-- ==== Sys2Proof/Word.lean ====
section
/-! DEFINITION. The words of HTB: the widths of `spec/00_scope.md` R5 and `spec/10_state.md`, all unsigned (R6). -/

namespace Sys2Proof

/-- A command word, 64 bits (R80). -/
abbrev CmdWord := BitVec 64

/-- A byte: a symbol, or a character on a stream port. -/
abbrev Byte := BitVec 8

/-- A node index, 9 bits (R30, R66). -/
abbrev NodeIdx := BitVec 9

/-- The symbol field of a node, `SYM_W` = 9 bits (R5). -/
abbrev Sym := BitVec 9

/-- A counter or total. It is `W` bits wide (R28, R29), held in a container of the largest `W`, 32. -/
abbrev Count := BitVec 32

/-- A node weight. It is `NW = W + 1` bits wide (R5), held in a container of the largest `NW`, 33. -/
abbrev Weight := BitVec 33

/-- The selector operand of `QNODE` (R88, R204). -/
inductive NodeSel where
  | weight
  | symbol
  | left
  | right
deriving DecidableEq, Repr

end Sys2Proof
end

