-- ==== Sys2Proof/Config.lean ====
section
/-! DEFINITION. What an instance of HTB fixes (`spec/00_scope.md` R5), and the values the spec leaves open
(`spec/93_implementation_defined.md` U6, U8, U9, U12, U14), which are constants without a body. -/

namespace Sys2Proof

/-- The parameter `W` of an instance (R5, D4): every value 1..32 and no other. `widthLessOne` is `W - 1`. -/
structure Config where
  widthLessOne : Fin 32
deriving DecidableEq, Repr

/-- `W`, the width in bits of a frequency counter and of `TOTAL` (R5). -/
def Config.W (c : Config) : Nat := c.widthLessOne.val + 1

/-- `NW = W + 1`, the width of a node weight (R5). -/
def Config.NW (c : Config) : Nat := c.W + 1

/-- `2^W − 1`, the bound of `TOTAL` (R29). -/
def Config.maxCount (c : Config) : Nat := 2 ^ c.W - 1

/-- The default instance, `W = 32` (R5). -/
def Config.default : Config := ⟨31⟩

/-- The symbol value of internal nodes and of the placeholder leaf (R5). -/
def SENTINEL : Sym := 0x100#9

/-- The node index meaning "absent" (R5). -/
def NIL : NodeIdx := 0x1FF#9

/-- The character '0' on the bit-stream ports (R5). -/
def CHAR0 : Byte := 0x30#8

/-- The character '1' on the bit-stream ports (R5). -/
def CHAR1 : Byte := 0x31#8

/-- Number of node RAM entries (R5). The type of `State.node` has this length. -/
abbrev NODE_MAX : Nat := 511

/-- The largest code length (R5). The type of `CodeEntry.bits` has this length. -/
abbrev CODE_MAX : Nat := 255

/-- The number of symbol values (R5). The types of `State.freq` and `State.code` have this length. -/
abbrev ALPHABET : Nat := 256

/-- The priority queue's capacity (R5, R139). -/
def PQ_MAX : Nat := 256

/-- FREE VALUE (U6): the bits of node RAM entry `index` where it is unspecified, anew at each draw. -/
opaque Config.freeNodeBits (draw index : Nat) : BitVec 61

/-- FREE VALUE (U9): bit `k` of the code of symbol `sym` where it is unspecified, anew at each draw. -/
opaque Config.freeCodeBit (draw sym k : Nat) : Bool

/-- FREE VALUE (U8): the `STATUS` bits above `BUSY` that read number `read` finds while `BUSY = 1`. -/
opaque Config.freeStatus (draw read : Nat) : BitVec 31

/-- FREE VALUE (U8): what read number `read` of `result` finds while `BUSY = 1`. -/
opaque Config.freeResult (draw read : Nat) : BitVec 64

/-- FREE VALUE (U14): how many elements a command that `rst` abandons has emitted, anew at each draw. -/
opaque Config.freePrefix (draw : Nat) : Nat

/-- FREE VALUE (U12): one less than the latency in cycles of the command with opcode `opc`. -/
opaque Config.freeLatencyLessOne (opc : BitVec 8) : Nat

/-- `LAT_<mnemonic>` (R5, D29): finite, at least 1, otherwise open. No rule of the model reads it (R259). -/
def Config.latency (opc : BitVec 8) : Nat := Config.freeLatencyLessOne opc + 1

end Sys2Proof
end

