-- ==== Sys2Proof/Syntax.lean ====
section
/-! DEFINITION. The commands of HTB, one constructor per row of `spec/opcode_table.json` (`spec/30_encoding.md` R84).
The operands have the widths of R82 and R83, so no operand of a command can be out of range. -/

namespace Sys2Proof

/-- A command (R84). `b` is a byte, `d` the 32-bit `DATA` operand, `n` a node index, `sel` a node field. -/
inductive Instr where
  /-- R200 -/
  | nop
  /-- R201 -/
  | clr
  /-- R202 -/
  | errclr
  /-- R110 -/
  | hist (b : Byte)
  /-- R111 -/
  | wfreq (b : Byte) (d : BitVec 32)
  /-- R112 -/
  | rfreq (b : Byte)
  /-- R113 -/
  | qtotal
  /-- R130 -/
  | build
  /-- R160 -/
  | enc (b : Byte)
  /-- R161 -/
  | qlen (b : Byte)
  /-- R162 -/
  | qbit (b : Byte) (d : BitVec 32)
  /-- R180 -/
  | dec (b : Byte)
  /-- R181 -/
  | dend
  /-- R203 -/
  | qroot
  /-- R204 -/
  | qnode (n : NodeIdx) (sel : NodeSel)
  /-- R205 -/
  | qerr
deriving DecidableEq, Repr

end Sys2Proof
end

