-- ==== Sys2Proof/WellFormed.lean ====
section
/-! DEFINITION. Well-formedness. A term of `Instr` has operands of the right widths by its type. What can be ill-formed
is an assembly line, whose operands are numbers (`spec/30_encoding.md` R88): it has the wrong number of operands, or one
outside its range. "An operand outside its range is an assembly error. It is never truncated." -/

namespace Sys2Proof

/-- The four operand forms (R82). -/
inductive Form where
  | Z
  | B
  | BD
  | N
deriving DecidableEq, Repr

/-- Why an assembly line is refused (R88). -/
inductive AsmError where
  /-- The number of operands is not the form's. -/
  | operandCount
  /-- `b` is not 0..255. -/
  | byteRange
  /-- `d` is not 0..2^32−1. -/
  | dataRange
  /-- `n` is not 0..511. -/
  | nodeRange
  /-- `sel` is not 0..3. -/
  | selRange
deriving DecidableEq, Repr

/-- The operand checks of R88 for a line of form `f` with the operands `args`. -/
def checkOperands (f : Form) (args : List Nat) : Except AsmError Unit :=
  match f, args with
  | .Z, [] => .ok ()
  | .B, [b] => if b < 256 then .ok () else .error .byteRange
  | .BD, [b, d] => if b < 256 then if d < 2 ^ 32 then .ok () else .error .dataRange else .error .byteRange
  | .N, [n, sel] => if n < 512 then if sel < 4 then .ok () else .error .selRange else .error .nodeRange
  | .Z, _ | .B, _ | .BD, _ | .N, _ => .error .operandCount

/-- The line's operands are those its form takes, each in its range. -/
def operandsWf (f : Form) (args : List Nat) : Bool :=
  match checkOperands f args with
  | .ok _ => true
  | .error _ => false

end Sys2Proof
end

