-- ==== Sys2Proof/Decode.lean ====
section
/-! DEFINITION. Command words: the fields (`spec/30_encoding.md` R81), the opcode map (R84), the decode procedure, total on
every 64-bit word (R85, R86), the encoder, the assembler (R88) and the pseudo-instructions (R89). -/

namespace Sys2Proof

/-- The mnemonics of the opcode map (R84). -/
inductive Mnemonic where
  | NOP | CLR | ERRCLR | HIST | WFREQ | RFREQ | QTOTAL | BUILD
  | ENC | QLEN | QBIT | DEC | DEND | QROOT | QNODE | QERR
deriving DecidableEq, Repr

/-- The opcode map's rows in its order (R84). -/
def Mnemonic.all : List Mnemonic :=
  [.NOP, .CLR, .ERRCLR, .HIST, .WFREQ, .RFREQ, .QTOTAL, .BUILD,
   .ENC, .QLEN, .QBIT, .DEC, .DEND, .QROOT, .QNODE, .QERR]

/-- The `OPC` column of R84. -/
def Mnemonic.opc : Mnemonic → BitVec 8
  | .NOP => 0x00#8
  | .CLR => 0x01#8
  | .ERRCLR => 0x02#8
  | .HIST => 0x10#8
  | .WFREQ => 0x11#8
  | .RFREQ => 0x12#8
  | .QTOTAL => 0x13#8
  | .BUILD => 0x20#8
  | .ENC => 0x30#8
  | .QLEN => 0x31#8
  | .QBIT => 0x32#8
  | .DEC => 0x40#8
  | .DEND => 0x41#8
  | .QROOT => 0x50#8
  | .QNODE => 0x51#8
  | .QERR => 0x52#8

/-- The form column of R84. -/
def Mnemonic.form : Mnemonic → Form
  | .NOP | .CLR | .ERRCLR | .QTOTAL | .BUILD | .DEND | .QROOT | .QERR => .Z
  | .HIST | .RFREQ | .ENC | .QLEN | .DEC => .B
  | .WFREQ | .QBIT => .BD
  | .QNODE => .N

/-- The match column of R84's second table. -/
def Mnemonic.matchWord : Mnemonic → CmdWord
  | .NOP => 0x0000000000000000#64
  | .CLR => 0x0100000000000000#64
  | .ERRCLR => 0x0200000000000000#64
  | .HIST => 0x1000000000000000#64
  | .WFREQ => 0x1100000000000000#64
  | .RFREQ => 0x1200000000000000#64
  | .QTOTAL => 0x1300000000000000#64
  | .BUILD => 0x2000000000000000#64
  | .ENC => 0x3000000000000000#64
  | .QLEN => 0x3100000000000000#64
  | .QBIT => 0x3200000000000000#64
  | .DEC => 0x4000000000000000#64
  | .DEND => 0x4100000000000000#64
  | .QROOT => 0x5000000000000000#64
  | .QNODE => 0x5100000000000000#64
  | .QERR => 0x5200000000000000#64

/-- The mask column of R84's second table. -/
def Mnemonic.maskWord : Mnemonic → CmdWord
  | .NOP | .CLR | .ERRCLR | .QTOTAL | .BUILD | .DEND | .QROOT | .QERR => 0xFFFFFFFFFFFFFFFF#64
  | .HIST | .RFREQ | .ENC | .QLEN | .DEC => 0xFFFFFF00FFFFFFFF#64
  | .WFREQ | .QBIT => 0xFFFFFF0000000000#64
  | .QNODE => 0xFFFFFE00FFFFFFFC#64

/-- "A word `w` spells mnemonic `m` iff `(w AND mask(m)) = match(m)`" (R84). -/
def spells (m : Mnemonic) (w : CmdWord) : Bool := w &&& m.maskWord == m.matchWord

/-- The mnemonic with opcode `opc`; none for a reserved opcode (R84, R85). -/
def Mnemonic.ofOpc (opc : BitVec 8) : Option Mnemonic := Mnemonic.all.find? (fun m => m.opc == opc)

/-- `OPC`, bits 63:56 (R81). -/
def opcField (w : CmdWord) : BitVec 8 := w.extractLsb' 56 8

/-- `RSV`, bits 55:41 (R81). -/
def rsvField (w : CmdWord) : BitVec 15 := w.extractLsb' 41 15

/-- `SYM`, bits 40:32 (R81). -/
def symField (w : CmdWord) : BitVec 9 := w.extractLsb' 32 9

/-- `DATA`, bits 31:0 (R81). -/
def dataField (w : CmdWord) : BitVec 32 := w.extractLsb' 0 32

/-- `cmd_word[63:32]`, the information word of an illegal command (R85, R86). -/
def illegalInfo (w : CmdWord) : BitVec 32 := w.extractLsb' 32 32

/-- Why a word is illegal (R85). Every reason gives the same error; the names are the model's. -/
inductive Reject where
  /-- `OPC` is not in the opcode map. -/
  | reservedOpcode
  /-- `RSV` is not 0. -/
  | reservedField
  /-- A bit of `SYM` that the form requires to be 0 is not. -/
  | unusedSym
  /-- A bit of `DATA` that the form requires to be 0 is not. -/
  | unusedData
deriving DecidableEq, Repr

/-- The checks R86 makes for a form on `SYM` and `DATA`. -/
def Form.check (f : Form) (sym : BitVec 9) (data : BitVec 32) : Option Reject :=
  match f with
  | .Z => if sym ≠ 0#9 then some .unusedSym else if data ≠ 0#32 then some .unusedData else none
  | .B => if sym.getLsbD 8 then some .unusedSym else if data ≠ 0#32 then some .unusedData else none
  | .BD => if sym.getLsbD 8 then some .unusedSym else none
  | .N => if data.extractLsb' 2 30 ≠ 0#30 then some .unusedData else none

/-- `sel` as a number (R88). -/
def NodeSel.bits : NodeSel → BitVec 2
  | .weight => 0#2
  | .symbol => 1#2
  | .left => 2#2
  | .right => 3#2

/-- The selector with the given number (R88, R204). -/
def NodeSel.ofBits (v : BitVec 2) : NodeSel :=
  if v = 0#2 then .weight else if v = 1#2 then .symbol else if v = 2#2 then .left else .right

/-- The operands assembled from a word's `SYM` and `DATA` fields: unsigned, taken as they stand (R83). -/
structure Operands where
  b : Byte
  d : BitVec 32
  n : NodeIdx
  sel : NodeSel
deriving DecidableEq, Repr

/-- Operand assembly (R83). -/
def operandsOf (sym : BitVec 9) (data : BitVec 32) : Operands where
  b := sym.extractLsb' 0 8
  d := data
  n := sym
  sel := NodeSel.ofBits (data.extractLsb' 0 2)

/-- The command with mnemonic `m`, taking the operands its form has (R82, R84). -/
def Instr.ofMnemonic (m : Mnemonic) (o : Operands) : Instr :=
  match m with
  | .NOP => .nop
  | .CLR => .clr
  | .ERRCLR => .errclr
  | .HIST => .hist o.b
  | .WFREQ => .wfreq o.b o.d
  | .RFREQ => .rfreq o.b
  | .QTOTAL => .qtotal
  | .BUILD => .build
  | .ENC => .enc o.b
  | .QLEN => .qlen o.b
  | .QBIT => .qbit o.b o.d
  | .DEC => .dec o.b
  | .DEND => .dend
  | .QROOT => .qroot
  | .QNODE => .qnode o.n o.sel
  | .QERR => .qerr

/-- The decode procedure on the four fields (R86). -/
def decodeFields (opc : BitVec 8) (rsv : BitVec 15) (sym : BitVec 9) (data : BitVec 32) : Except Reject Instr :=
  match Mnemonic.ofOpc opc with
  | none => .error .reservedOpcode
  | some m =>
    if rsv ≠ 0#15 then .error .reservedField
    else
      match m.form.check sym data with
      | some r => .error r
      | none => .ok (Instr.ofMnemonic m (operandsOf sym data))

/-- The decode procedure (R86), total on every 64-bit word. -/
def decode (w : CmdWord) : Except Reject Instr :=
  decodeFields (opcField w) (rsvField w) (symField w) (dataField w)

/-- The row of the opcode map a command stands in (R84). -/
def Instr.mnemonic : Instr → Mnemonic
  | .nop => .NOP
  | .clr => .CLR
  | .errclr => .ERRCLR
  | .hist _ => .HIST
  | .wfreq _ _ => .WFREQ
  | .rfreq _ => .RFREQ
  | .qtotal => .QTOTAL
  | .build => .BUILD
  | .enc _ => .ENC
  | .qlen _ => .QLEN
  | .qbit _ _ => .QBIT
  | .dec _ => .DEC
  | .dend => .DEND
  | .qroot => .QROOT
  | .qnode _ _ => .QNODE
  | .qerr => .QERR

/-- A byte operand in `SYM`: `SYM[8] = 0`, `SYM[7:0] = b` (R82). -/
def byteSym (b : Byte) : BitVec 9 := 0#1 ++ b

/-- A selector operand in `DATA`: `DATA[31:2] = 0`, `DATA[1:0] = sel` (R82). -/
def selData (sel : NodeSel) : BitVec 32 := 0#30 ++ sel.bits

/-- The `SYM` field of a command's word (R82, R88). -/
def Instr.symOf : Instr → BitVec 9
  | .hist b | .rfreq b | .enc b | .qlen b | .dec b => byteSym b
  | .wfreq b _ | .qbit b _ => byteSym b
  | .qnode n _ => n
  | .nop | .clr | .errclr | .qtotal | .build | .dend | .qroot | .qerr => 0#9

/-- The `DATA` field of a command's word (R82, R88). -/
def Instr.dataOf : Instr → BitVec 32
  | .wfreq _ d | .qbit _ d => d
  | .qnode _ sel => selData sel
  | .hist _ | .rfreq _ | .enc _ | .qlen _ | .dec _ => 0#32
  | .nop | .clr | .errclr | .qtotal | .build | .dend | .qroot | .qerr => 0#32

/-- A word from its four fields (R81). -/
def packWord (opc : BitVec 8) (rsv : BitVec 15) (sym : BitVec 9) (data : BitVec 32) : CmdWord :=
  opc ++ rsv ++ sym ++ data

/-- The word of a command (R82, R84, R88). -/
def encode (i : Instr) : CmdWord := packWord i.mnemonic.opc 0#15 i.symOf i.dataOf

/-- The instruction the decoder reads from a table word: one whole 64-bit word, no bytes to order (R62, R80). -/
def decodeTableWord (nbits w : Nat) : Option Instr :=
  if nbits ≤ 64 then (decode (BitVec.ofNat 64 (w % 2 ^ nbits))).toOption else none

/-- An assembly line: a mnemonic and its operands as numbers (R88). -/
structure AsmLine where
  mnemonic : Mnemonic
  args : List Nat
deriving DecidableEq, Repr

/-- Assembling a line gives its command, or the error that refuses it (R88). -/
def AsmLine.assemble (l : AsmLine) : Except AsmError Instr :=
  match checkOperands l.mnemonic.form l.args with
  | .error e => .error e
  | .ok () =>
    match l.mnemonic.form, l.args with
    | .N, [n, sel] =>
      .ok (Instr.ofMnemonic l.mnemonic (operandsOf (BitVec.ofNat 9 n) (selData (NodeSel.ofBits (BitVec.ofNat 2 sel)))))
    | .BD, [b, d] => .ok (Instr.ofMnemonic l.mnemonic (operandsOf (byteSym (BitVec.ofNat 8 b)) (BitVec.ofNat 32 d)))
    | .B, [b] => .ok (Instr.ofMnemonic l.mnemonic (operandsOf (byteSym (BitVec.ofNat 8 b)) 0#32))
    | _, _ => .ok (Instr.ofMnemonic l.mnemonic (operandsOf 0#9 0#32))

/-- The pseudo-instructions (R89), on a string given as its bytes. -/
inductive Pseudo where
  | HISTS (s : List Byte)
  | ENCS (s : List Byte)
  | DECS (t : List Byte)
  | COMPRESS (s : List Byte)
  | DECOMPRESS (t : List Byte)
deriving DecidableEq, Repr

/-- The expansions of R89. -/
def Pseudo.expand : Pseudo → List Instr
  | .HISTS s => s.map .hist
  | .ENCS s => s.map .enc
  | .DECS t => t.map .dec
  | .COMPRESS s => .clr :: (s.map .hist ++ .build :: s.map .enc)
  | .DECOMPRESS t => t.map .dec ++ [.dend]

end Sys2Proof
end

