-- ==== Sys2Proof/Machine/State.lean ====
section
/-! DEFINITION. The state of HTB as plain data (`spec/10_state.md`), the reasons a step can stop, and the state right after
reset (R39). -/

namespace Sys2Proof.Machine

/-- The machine stops with a fault. -/
inductive Fault where
  /-- Raised by `DEC` and `QNODE` when they would read `NODE[511]`: 511 is `NIL` and "is never an entry" (R66). Safe: it
  arises only in states no run reaches (log 7), and stopping proves nothing. -/
  | noSuchNode
deriving DecidableEq, Repr

/-- The machine has no meaning for what it is given. -/
inductive Refusal where
  /-- Raised by `exec` for a command without a meaning. Safe. No command of this model is so refused. -/
  | notModelled (mnemonic : String)
  /-- Raised by `step` when the host changes `cmd_word` before it is accepted, which R253 calls unpredictable and U7 says
  a model refuses. Safe (log 8). -/
  | unstableCommand
deriving DecidableEq, Repr

/-- The outcome of a command or a step. -/
abbrev Outcome := Host.Outcome

/-- The kinds of error (R221). -/
inductive ErrKind where
  | lookup
  | invalidBit
  | noTree
  | placeholderLeaf
  | countOverflow
  | illegalCommand
  | queryRange
deriving DecidableEq, Repr

/-- One entry of node RAM (R30). -/
structure Node where
  /-- `NW` bits, in a 33-bit container (log 3). -/
  weight : Weight
  /-- A byte value for a real leaf; `SENTINEL` for an internal node and the placeholder leaf. -/
  sym : Sym
  leaf : Bool
  left : NodeIdx
  right : NodeIdx
deriving DecidableEq, Repr

/-- One entry of the code-table LUT (R33). `bits[0]` is the branch at the root, `false` = left, `true` = right (R63). -/
structure CodeEntry where
  valid : Bool
  len : BitVec 8
  bits : Vector Bool CODE_MAX
deriving DecidableEq, Repr

/-- What the host does with `cmd_word` while `cmd_valid = 1`, until the word is accepted (R253). -/
inductive Presentation where
  /-- It holds the word stable, as it must. -/
  | held (w : CmdWord)
  /-- It changes the word before acceptance, which is unpredictable (R253, U7). -/
  | changed (before after : CmdWord)
deriving DecidableEq, Repr

/-- What `rst` does during a step (R21, R250; log 2). -/
inductive RstLevel where
  /-- It is low throughout. -/
  | low
  /-- It is high. -/
  | high
  /-- It is low when the step begins, and rises while the step's command is executing (R230). -/
  | rises
deriving DecidableEq, Repr

/-- The state of HTB, with the two inputs its step reads. -/
structure State where
  /-- The instance's parameter (R5). No step changes it (log 3). -/
  cfg : Config
  /-- INPUT: the presentations the host has yet to make on the command port, in order (R21, R38; log 1). -/
  cmdIn : List Presentation
  /-- INPUT: what `rst` does at the coming steps; low when the list ends (R21, R250; log 2). -/
  rstIn : List RstLevel
  /-- `BUSY` between two steps (R25): 1 from a step with `rst` high or rising until the reset clearing (R250). -/
  busy : Bool
  /-- `RESULT` (R26). -/
  result : BitVec 64
  /-- `ERR` (R27). -/
  err : Bool
  /-- `ERRCODE` (R27). -/
  errcode : BitVec 4
  /-- `ERRINFO` (R27). -/
  errinfo : BitVec 32
  /-- `FREQ[0..255]` (R28). -/
  freq : Vector Count ALPHABET
  /-- `TOTAL` (R29). -/
  total : Count
  /-- `NODE[0..510]` (R30). -/
  node : Vector Node NODE_MAX
  /-- `NODE_COUNT` (R32). -/
  nodeCount : BitVec 10
  /-- `ROOT` (R32). `TREE_VALID` is computed from it (log 5). -/
  root : NodeIdx
  /-- `LEAVES` (R32). -/
  leaves : BitVec 9
  /-- `DEGEN` (R32). -/
  degen : Bool
  /-- `CODE[0..255]` (R33). -/
  code : Vector CodeEntry ALPHABET
  /-- `CUR` (R35). -/
  cur : NodeIdx
  /-- `DEPTH` (R35). `AT_ROOT` is computed from it (log 5). -/
  depth : BitVec 8
  /-- `PARTIAL` (R35). -/
  partialBit : Bool
  /-- `PQ` (R36), as a list whose order means nothing. `PQ_COUNT` is its length (log 5). -/
  pq : List NodeIdx
  /-- `ENC_OUT`, oldest first (R37). -/
  encOut : List Byte
  /-- `DEC_OUT`, oldest first (R37). -/
  decOut : List Byte
  /-- `ERRLOG`, oldest first: `(ERRCODE, ERRINFO)` of every recorded error (R237). -/
  errLog : List (BitVec 4 × BitVec 32)
  /-- The MODEL's own: the number of the next draw of free values (log 6). -/
  draws : Nat
deriving DecidableEq, Repr

/-- A node RAM entry at reset: the spec leaves it unspecified, the model names zero (log 4). -/
def Node.reset : Node := { weight := 0, sym := 0, leaf := false, left := 0, right := 0 }

/-- A code-table entry at reset: `valid = 0`, `len = 0` (R39); its bits are unspecified and the model names zero (log 4). -/
def CodeEntry.reset : CodeEntry := { valid := false, len := 0, bits := Vector.replicate CODE_MAX false }

/-- The machine right after reset (R39, R250, R251), the default instance (R5), no command presented and `rst` low. -/
def State.reset : State where
  cfg := Config.default
  cmdIn := []
  rstIn := []
  busy := false
  result := 0
  err := false
  errcode := 0
  errinfo := 0
  freq := Vector.replicate ALPHABET 0
  total := 0
  node := Vector.replicate NODE_MAX Node.reset
  nodeCount := 0
  root := NIL
  leaves := 0
  degen := false
  code := Vector.replicate ALPHABET CodeEntry.reset
  cur := NIL
  depth := 0
  partialBit := false
  pq := []
  encOut := []
  decOut := []
  errLog := []
  draws := 0

end Sys2Proof.Machine
end

