-- ==== Sys2Proof/Machine/Flags.lean ====
section
/-! DEFINITION. The flags of HTB: `TREE_VALID` and `AT_ROOT`, which follow other registers, the 32-bit `STATUS` view, and
the `status`, `result` and `cmd_ready` ports (`spec/10_state.md` R21, R24, R25; `spec/70_reset_and_hazards.md` R261). -/

namespace Sys2Proof.Machine

/-- `TREE_VALID = 1 ⇔ ROOT ≠ NIL` (R32). -/
def State.treeValid (s : State) : Bool := s.root != NIL

/-- `AT_ROOT = (DEPTH = 0)` (R35). -/
def State.atRoot (s : State) : Bool := s.depth == 0#8

/-- What `rst` does at the coming step. -/
def State.rstNow (s : State) : RstLevel := s.rstIn.headD .low

/-- `rst` is high as the coming step begins. -/
def State.rst (s : State) : Bool := s.rstNow == .high

/-- `rst` rises within the coming step. -/
def State.rstRises (s : State) : Bool := s.rstNow == .rises

/-- `BUSY`: 1 while `rst` is high and until the reset clearing is complete (R25). -/
def State.busyNow (s : State) : Bool := s.busy || s.rst

/-- `cmd_ready = NOT BUSY AND NOT rst` (R21). -/
def State.cmdReady (s : State) : Bool := !s.busy && !s.rst

/-- The fields of `STATUS` above `BUSY`, bits 31:1 (R24). The reserved bits read 0. -/
def State.statusFields (s : State) : BitVec 31 :=
  0#7 ++ s.leaves ++ 0#6 ++ BitVec.ofBool s.partialBit ++ BitVec.ofBool s.atRoot ++ s.errcode
    ++ BitVec.ofBool s.degen ++ BitVec.ofBool s.err ++ BitVec.ofBool s.treeValid

/-- `STATUS` while `BUSY = 0` (R24). -/
def State.statusWord (s : State) : BitVec 32 := s.statusFields ++ 0#1

/-- The `status` port at read number `read`: while `BUSY = 1`, every field except `BUSY` is any value (R24, U8; log 10). -/
def State.statusPort (s : State) (read : Nat) : BitVec 32 :=
  if s.busyNow then Config.freeStatus s.draws read ++ 1#1 else s.statusWord

/-- The `result` port at read number `read`: any value while `BUSY = 1` (R261, U8; log 10). -/
def State.resultPort (s : State) (read : Nat) : BitVec 64 :=
  if s.busyNow then Config.freeResult s.draws read else s.result

end Sys2Proof.Machine
end

