-- ==== Sys2Proof/Machine/Operands.lean ====
section
/-! DEFINITION. How operands are read and how the values a command returns are laid out: bit characters
(`spec/30_encoding.md` R83, `spec/43_decoder.md` R182), zero extensions (R6), and the layouts of `RESULT`
(`spec/44_control.md` R203–R205). -/

namespace Sys2Proof.Machine

/-- `zext_32` of a byte, for `ERRINFO` (R6, R221). -/
def infoOfByte (b : Byte) : BitVec 32 := b.setWidth 32

/-- `zext_32` of a node index, for `ERRINFO` (R6, R221). -/
def infoOfNode (n : NodeIdx) : BitVec 32 := n.setWidth 32

/-- The bit a `DEC` character means: only `CHAR0` and `CHAR1` are bits (R83, R182). -/
def bitOfChar (b : Byte) : Option Bool :=
  if b = CHAR1 then some true else if b = CHAR0 then some false else none

/-- The character `ENC` emits for a bit: `CHAR0 + bit` (R160). -/
def charOfBit (x : Bool) : Byte := if x then CHAR1 else CHAR0

/-- The child a bit selects, "0 = left, 1 = right" (R33, R182). -/
def Node.child (nd : Node) (x : Bool) : NodeIdx := if x then nd.right else nd.left

/-- `NODE[i].sym` of a real leaf as a byte, `sym[7:0]` (R136, R180). -/
def Node.byte (nd : Node) : Byte := nd.sym.extractLsb' 0 8

/-- The node is a real leaf: a leaf whose symbol is not the sentinel (`spec/00_scope.md`, glossary). -/
def Node.isRealLeaf (nd : Node) : Bool := nd.leaf && nd.sym != SENTINEL

/-- The code of an entry: `bits[0..len−1]` (R34). -/
def CodeEntry.path (e : CodeEntry) : List Bool := e.bits.toList.take e.len.toNat

/-- The value `QNODE` returns (R204). -/
def nodeResult (nd : Node) (sel : NodeSel) : BitVec 64 :=
  match sel with
  | .weight => nd.weight.setWidth 64
  | .symbol => 0#47 ++ BitVec.ofBool nd.leaf ++ 0#7 ++ nd.sym
  | .left => nd.left.setWidth 64
  | .right => nd.right.setWidth 64

/-- The value `QROOT` returns (R203): `ROOT` in 8:0, `NODE_COUNT` in 25:16, `TREE_VALID` in 32. -/
def rootResult (treeValid : Bool) (nodeCount : BitVec 10) (root : NodeIdx) : BitVec 64 :=
  0#31 ++ BitVec.ofBool treeValid ++ 0#6 ++ nodeCount ++ 0#7 ++ root

/-- The value `QERR` returns (R205): `ERRINFO` in 31:0, `ERRCODE` in 35:32, `ERR` in 40. -/
def errResult (err : Bool) (errcode : BitVec 4) (errinfo : BitVec 32) : BitVec 64 :=
  0#23 ++ BitVec.ofBool err ++ 0#4 ++ errcode ++ errinfo

end Sys2Proof.Machine
end

