-- ==== Sys2Proof/Machine/Ops.lean ====
section
/-! DEFINITION. The named operations over registers and memories that the commands share: taking an error and returning from
one (`spec/60_exceptions.md` R220, R229, R232), the accessors of `FREQ`, `NODE` and `CODE` (`spec/20_memory.md` R61), the
output streams (`spec/10_state.md` R37), the walker, the free contents of unspecified memory, and the clearing that `CLR`
and reset share (R39). -/

namespace Sys2Proof.Machine

/-! ### Errors -/

/-- The error codes (R221). -/
def ErrKind.code : ErrKind → BitVec 4
  | .lookup => 1#4
  | .invalidBit => 2#4
  | .noTree => 3#4
  | .placeholderLeaf => 4#4
  | .countOverflow => 5#4
  | .illegalCommand => 6#4
  | .queryRange => 7#4

/-- Taking an error, the only way one is taken (R220): the first error is recorded and logged (R237); while `ERR = 1` a raise
changes nothing. -/
def State.raise (s : State) (e : ErrKind) (info : BitVec 32) : State :=
  if s.err then s
  else { s with err := true, errcode := e.code, errinfo := info, errLog := s.errLog ++ [(e.code, info)] }

/-- A command that raises ends there (R7, R220): the state with the error taken is its next state. -/
def raiseError (e : ErrKind) (info : BitVec 32) (s : State) : Outcome State Fault Refusal :=
  .next (s.raise e info)

/-- The blocking check: while `ERR = 1` a blocked command completes with no effect at all (R229, R230). -/
def unlessBlocked (s : State) (go : State → Outcome State Fault Refusal) : Outcome State Fault Refusal :=
  if s.err then .next s else go s

/-- Clearing the error registers, part of the return from an error (R202, R232). `ERRLOG` is kept (R237). -/
def State.clearError (s : State) : State := { s with err := false, errcode := 0, errinfo := 0 }

/-! ### Registers -/

/-- Writing `RESULT` (R26). -/
def State.setResult (s : State) (v : BitVec 64) : State := { s with result := v }

/-- The walker goes to the root: `CUR <- ROOT; DEPTH <- 0` (R35). -/
def State.walkerToRoot (s : State) : State := { s with cur := s.root, depth := 0 }

/-- The walker moves to node `n`: `CUR <- n; DEPTH <- DEPTH + 1` (R180). -/
def State.walkerTo (s : State) (n : NodeIdx) : State := { s with cur := n, depth := s.depth + 1 }

/-- Writing `PARTIAL` (R181). -/
def State.setPartial (s : State) (v : Bool) : State := { s with partialBit := v }

/-! ### The frequency table -/

/-- The value a `W`-bit register holds after `v` is written to it: `v[W−1:0]` (R6, R28). -/
def truncCount (c : Config) (v : Nat) : Count := BitVec.ofNat 32 (v % 2 ^ c.W)

/-- `FREQ[b]` (R28). -/
def State.readFreq (s : State) (b : Byte) : Count := s.freq[b.toNat]'b.isLt

/-- `FREQ[b] <- v; TOTAL <- t`, each at `W` bits (R110, R111). -/
def State.setCount (s : State) (b : Byte) (v t : Nat) : State :=
  { s with freq := s.freq.set b.toNat (truncCount s.cfg v) b.isLt, total := truncCount s.cfg t }

/-! ### Node RAM and the code table -/

/-- `NODE[i]`; none for `i = 511`, which is never an entry (R66). -/
def State.readNode (s : State) (i : NodeIdx) : Option Node :=
  if h : i.toNat < NODE_MAX then some s.node[i.toNat] else none

/-- Running `go` on `NODE[i]`. A read of the entry that does not exist stops with a fault (log 7). -/
def withNode (s : State) (i : NodeIdx) (go : Node → Outcome State Fault Refusal) : Outcome State Fault Refusal :=
  match s.readNode i with
  | some nd => go nd
  | none => .fault .noSuchNode

/-- `CODE[b]` (R33). -/
def State.readCode (s : State) (b : Byte) : CodeEntry := s.code[b.toNat]'b.isLt

/-! ### Output streams -/

/-- `emit_enc` of each character in order (R7, R37, R69). -/
def State.emitEnc (s : State) (cs : List Byte) : State := { s with encOut := s.encOut ++ cs }

/-- `emit_dec` (R7, R37, R69). -/
def State.emitDec (s : State) (b : Byte) : State := { s with decOut := s.decOut ++ [b] }

/-! ### Unspecified contents and clearing -/

/-- The vector whose entry `i` is `f i`. -/
def tabulate {α : Type} (n : Nat) (f : Nat → α) : Vector α n := ⟨⟨(List.range n).map f⟩, by simp⟩

/-- FREE VALUE: node RAM entry `index` where the spec leaves it unspecified (R30, U6; log 9), its weight at `NW` bits. -/
def freeNode (c : Config) (draw index : Nat) : Node :=
  let x := Config.freeNodeBits draw index
  { weight := BitVec.ofNat 33 ((x.extractLsb' 28 33).toNat % 2 ^ c.NW)
    sym := x.extractLsb' 19 9
    leaf := x.getLsbD 18
    left := x.extractLsb' 9 9
    right := x.extractLsb' 0 9 }

/-- The code bits of symbol `sym` whose first bits are `p` and whose bits from `len p` on are unspecified (R33, U9; log 9). -/
def codeBits (draw sym : Nat) (p : List Bool) : Vector Bool CODE_MAX :=
  tabulate CODE_MAX fun k => p.getD k (Config.freeCodeBit draw sym k)

/-- The entry of a symbol that has no code: `valid = 0`, `len = 0`, its bits unspecified (R33, R39). -/
def noCode (draw sym : Nat) : CodeEntry := { valid := false, len := 0, bits := codeBits draw sym [] }

/-- Every item of R39 at its reset value, except the three output logs, which the caller decides; the host's inputs and the
parameter stay. Unspecified contents are drawn anew. -/
def State.clearAll (s : State) : State :=
  { s with
    busy := false
    result := 0
    err := false
    errcode := 0
    errinfo := 0
    freq := Vector.replicate ALPHABET 0
    total := 0
    node := tabulate NODE_MAX (freeNode s.cfg s.draws)
    nodeCount := 0
    root := NIL
    leaves := 0
    degen := false
    code := tabulate ALPHABET (noCode s.draws)
    cur := NIL
    depth := 0
    partialBit := false
    pq := []
    draws := s.draws + 1 }

/-- The output logs start empty (R39, R250): a new observation. -/
def State.clearLogs (s : State) : State := { s with encOut := [], decOut := [], errLog := [] }

end Sys2Proof.Machine
end

