-- ==== Sys2Proof/Machine/Build.lean ====
section
/-! DEFINITION. The tree builder and the code-table derivation (`spec/41_tree_builder.md`), as the one atomic transition that
R140 allows. The builder works on the nodes created so far, in index order, and on the priority queue of node indices. -/

namespace Sys2Proof.Machine

/-- The builder between two of its steps: `NODE[0..n−1]` and `PQ` (R130). -/
structure Builder where
  nodes : List Node
  pq : List NodeIdx
deriving DecidableEq, Repr

/-- A leaf of symbol `sym` (R132, R133). -/
def leafNode (weight : Weight) (sym : Sym) : Node :=
  { weight := weight, sym := sym, leaf := true, left := NIL, right := NIL }

/-- Phase 1 (R132): one leaf for each symbol with a positive frequency, in ascending symbol order, its weight
zero-extended to `NW` bits. -/
def scanLeaves (freq : Vector Count ALPHABET) : List Node :=
  freq.toList.zipIdx.filterMap fun (f, sym) =>
    if f = 0 then none else some (leafNode (f.setWidth 33) (BitVec.ofNat 9 sym))

/-- The placeholder leaf of phase 2 (R133). -/
def placeholder : Node := leafNode 1 SENTINEL

/-- The node a queue entry names. Every index in the queue is below the number of nodes, so the default is never read. -/
def nodeOf (nodes : List Node) (i : NodeIdx) : Node := nodes.getD i.toNat Node.reset

/-- `key(i) = { NODE[i].weight, NODE[i].sym, i }`, compared as unsigned (R131). -/
def key (nodes : List Node) (i : NodeIdx) : BitVec 51 := (nodeOf nodes i).weight ++ (nodeOf nodes i).sym ++ i

/-- The entry of the queue with the smallest key (R131). -/
def minEntry (nodes : List Node) : List NodeIdx → Option NodeIdx
  | [] => none
  | i :: rest =>
    match minEntry nodes rest with
    | none => some i
    | some j => if key nodes i ≤ key nodes j then some i else some j

/-- `PQ.extract_min()` (R131): the entry with the smallest key, and the queue without it. -/
def extractMin (nodes : List Node) (pq : List NodeIdx) : Option (NodeIdx × List NodeIdx) :=
  match minEntry nodes pq with
  | none => none
  | some i => some (i, pq.erase i)

/-- The sum of two weights, in the `NW` bits of a weight (R134, R141). -/
def addWeights (c : Config) (x y : Weight) : Weight := BitVec.ofNat 33 ((x.toNat + y.toNat) % 2 ^ c.NW)

/-- The internal node that merges `a` (removed first, left child) and `b` (removed second, right child) (R134). -/
def mergedNode (c : Config) (nodes : List Node) (a b : NodeIdx) : Node :=
  { weight := addWeights c (nodeOf nodes a).weight (nodeOf nodes b).weight
    sym := SENTINEL
    leaf := false
    left := a
    right := b }

/-- One turn of the merge loop (R134); none when the queue holds fewer than two entries. -/
def mergeStep (c : Config) (bd : Builder) : Option Builder :=
  match extractMin bd.nodes bd.pq with
  | none => none
  | some (a, pq1) =>
    match extractMin bd.nodes pq1 with
    | none => none
    | some (b, pq2) =>
      some { nodes := bd.nodes ++ [mergedNode c bd.nodes a b]
             pq := pq2 ++ [BitVec.ofNat 9 bd.nodes.length] }

/-- Phase 3 (R134), the loop `while PQ_COUNT > 1`. Each turn takes one entry from the queue, so as many turns as the queue
has entries are enough. -/
def mergeLoop (c : Config) : Nat → Builder → Builder
  | 0, bd => bd
  | turns + 1, bd =>
    match mergeStep c bd with
    | none => bd
    | some bd' => mergeLoop c turns bd'

/-- The depth-first traversal of R136 from node `i`, reached by the branches `p`: each real leaf's symbol with its path.
A child's index is below its parent's (R31), so a walk never needs more levels than there are nodes. -/
def visit (nodes : List Node) : Nat → NodeIdx → List Bool → List (Byte × List Bool)
  | 0, _, _ => []
  | levels + 1, i, p =>
    match nodes[i.toNat]? with
    | none => []
    | some nd =>
      if nd.leaf then if nd.sym = SENTINEL then [] else [(nd.byte, p)]
      else visit nodes levels nd.left (p ++ [false]) ++ visit nodes levels nd.right (p ++ [true])

/-- The code-table entry of symbol `sym` from the traversal's records (R136). -/
def codeEntry (draw : Nat) (records : List (Byte × List Bool)) (sym : Nat) : CodeEntry :=
  match records.lookup (BitVec.ofNat 8 sym) with
  | none => noCode draw sym
  | some p => { valid := true, len := BitVec.ofNat 8 p.length, bits := codeBits draw sym p }

/-- What the builder hands over: the nodes, the root, `LEAVES`, `DEGEN` and the queue that is left. -/
structure Tree where
  nodes : List Node
  root : NodeIdx
  leaves : BitVec 9
  degen : Bool
  pq : List NodeIdx
deriving DecidableEq, Repr

/-- No tree (R135). -/
def Tree.empty : Tree := { nodes := [], root := NIL, leaves := 0, degen := false, pq := [] }

/-- The nodes and the queue before the merge loop: the leaves, and the placeholder when exactly one symbol occurs
(R132, R133). -/
def startBuilder (leaves : List Node) : Builder :=
  let nodes := if leaves.length = 1 then leaves ++ [placeholder] else leaves
  { nodes := nodes, pq := (List.range nodes.length).map (BitVec.ofNat 9) }

/-- The builder after the merge loop (R134). -/
def mergeAll (c : Config) (leaves : List Node) : Builder :=
  mergeLoop c (startBuilder leaves).pq.length (startBuilder leaves)

/-- Phases 1 to 4 of R130. -/
def buildTree (c : Config) (freq : Vector Count ALPHABET) : Tree :=
  let leaves := scanLeaves freq
  if leaves.length = 0 then Tree.empty
  else
    let bd := mergeAll c leaves
    match extractMin bd.nodes bd.pq with
    | none => Tree.empty
    | some (root, pq) =>
      { nodes := bd.nodes
        root := root
        leaves := BitVec.ofNat 9 leaves.length
        degen := leaves.length == 1
        pq := pq }

/-- The code table of a tree (`DERIVE_CODES`, R136). -/
def deriveCodes (draw : Nat) (t : Tree) : Vector CodeEntry ALPHABET :=
  let records := visit t.nodes t.nodes.length t.root []
  tabulate ALPHABET (codeEntry draw records)

/-- What `BUILD` writes (R137): node RAM, whose entries from `NODE_COUNT` on become unspecified (R30), the tree registers,
the code table, the walker and the queue. -/
def State.installTree (s : State) (t : Tree) : State :=
  { s with
    node := tabulate NODE_MAX fun i => t.nodes.getD i (freeNode s.cfg s.draws i)
    nodeCount := BitVec.ofNat 10 t.nodes.length
    root := t.root
    leaves := t.leaves
    degen := t.degen
    code := deriveCodes s.draws t
    cur := t.root
    depth := 0
    pq := t.pq
    draws := s.draws + 1 }

/-- `BUILD` (R130). -/
def execBuild (s : State) : Outcome State Fault Refusal :=
  unlessBlocked s fun s => .next (s.installTree (buildTree s.cfg s.freq))

end Sys2Proof.Machine
end

