-- ==== Sys2Proof/Machine/Control.lean ====
section
/-! DEFINITION. The control and inspection commands (`spec/44_control.md`). -/

namespace Sys2Proof.Machine

/-- `NOP` (R200). -/
def execNop (s : State) : Outcome State Fault Refusal := .next s

/-- `CLR` (R201): every state item to its reset value, except the logs, which keep what was emitted. -/
def execClr (s : State) : Outcome State Fault Refusal := .next s.clearAll

/-- `ERRCLR` (R202). -/
def execErrclr (s : State) : Outcome State Fault Refusal := .next s.clearError.walkerToRoot

/-- `QROOT` (R203). -/
def execQroot (s : State) : Outcome State Fault Refusal :=
  .next (s.setResult (rootResult s.treeValid s.nodeCount s.root))

/-- `QNODE n, sel` (R204). -/
def execQnode (n : NodeIdx) (sel : NodeSel) (s : State) : Outcome State Fault Refusal :=
  if s.nodeCount.toNat ≤ n.toNat then raiseError .queryRange (infoOfNode n) s
  else withNode s n fun nd => .next (s.setResult (nodeResult nd sel))

/-- `QERR` (R205). -/
def execQerr (s : State) : Outcome State Fault Refusal :=
  .next (s.setResult (errResult s.err s.errcode s.errinfo))

end Sys2Proof.Machine
end

