-- ==== Sys2Proof/Machine/Decoder.lean ====
section
/-! DEFINITION. The decoder tree-walker (`spec/43_decoder.md`). -/

namespace Sys2Proof.Machine

/-- The walker arrives at node `nxt`, which is `nd` (R180): a real leaf is emitted and the walker returns to the root, the
placeholder leaf raises, an internal node becomes the walker's. -/
def arriveAt (nxt : NodeIdx) (nd : Node) (s : State) : Outcome State Fault Refusal :=
  if nd.leaf then
    if nd.sym = SENTINEL then raiseError .placeholderLeaf (infoOfNode nxt) s
    else .next (s.emitDec nd.byte).walkerToRoot
  else .next (s.walkerTo nxt)

/-- The bit-stream mux (R182): `go` on the child of `NODE[CUR]` that the character selects, or `INVALID_BIT`. -/
def mux (b : Byte) (s : State) (go : NodeIdx → Outcome State Fault Refusal) : Outcome State Fault Refusal :=
  match bitOfChar b with
  | none => raiseError .invalidBit (infoOfByte b) s
  | some x => withNode s s.cur fun nd => go (nd.child x)

/-- `DEC b` (R180). -/
def execDec (b : Byte) (s : State) : Outcome State Fault Refusal :=
  unlessBlocked s fun s =>
    if s.treeValid then mux b s fun nxt => withNode s nxt fun nd => arriveAt nxt nd s
    else raiseError .noTree (infoOfByte b) s

/-- `DEND` (R181). -/
def execDend (s : State) : Outcome State Fault Refusal :=
  unlessBlocked s fun s =>
    .next ((s.setResult (s.depth.setWidth 64)).setPartial (s.depth != 0#8)).walkerToRoot

end Sys2Proof.Machine
end

