-- ==== Sys2Proof/Machine/Encoder.lean ====
section
/-! DEFINITION. The encoder and the reads of the code-table LUT (`spec/42_encoder.md`). -/

namespace Sys2Proof.Machine

/-- `ENC b` (R160). -/
def execEnc (b : Byte) (s : State) : Outcome State Fault Refusal :=
  unlessBlocked s fun s =>
    if (s.readCode b).valid then .next (s.emitEnc ((s.readCode b).path.map charOfBit))
    else raiseError .lookup (infoOfByte b) s

/-- `QLEN b` (R161). -/
def execQlen (b : Byte) (s : State) : Outcome State Fault Refusal :=
  .next (s.setResult (if (s.readCode b).valid then (s.readCode b).len.setWidth 64 else 0))

/-- `QBIT b, d` (R162). A length is below 256, so an index below it is one of the 255 bits. -/
def execQbit (b : Byte) (d : BitVec 32) (s : State) : Outcome State Fault Refusal :=
  let e := s.readCode b
  if h : e.valid = true ∧ d.toNat < e.len.toNat then
    .next (s.setResult ((BitVec.ofBool (e.bits[d.toNat]'(by have := e.len.isLt; unfold CODE_MAX; omega))).setWidth 64))
  else raiseError .queryRange d s

end Sys2Proof.Machine
end

