-- ==== Sys2Proof/Machine/Histogram.lean ====
section
/-! DEFINITION. The frequency table commands (`spec/40_histogram.md`). -/

namespace Sys2Proof.Machine

/-- `HIST b` (R110). -/
def execHist (b : Byte) (s : State) : Outcome State Fault Refusal :=
  unlessBlocked s fun s =>
    if s.total.toNat = s.cfg.maxCount then raiseError .countOverflow (infoOfByte b) s
    else .next (s.setCount b ((s.readFreq b).toNat + 1) (s.total.toNat + 1))

/-- `WFREQ b, d` (R111): the new total `t` is an exact integer. -/
def execWfreq (b : Byte) (d : BitVec 32) (s : State) : Outcome State Fault Refusal :=
  unlessBlocked s fun s =>
    let t : Int := (s.total.toNat : Int) - (s.readFreq b).toNat + d.toNat
    if (s.cfg.maxCount : Int) < t then raiseError .countOverflow (infoOfByte b) s
    else .next (s.setCount b d.toNat (t % 2 ^ s.cfg.W).toNat)

/-- `RFREQ b` (R112). -/
def execRfreq (b : Byte) (s : State) : Outcome State Fault Refusal :=
  .next (s.setResult ((s.readFreq b).setWidth 64))

/-- `QTOTAL` (R113). -/
def execQtotal (s : State) : Outcome State Fault Refusal :=
  .next (s.setResult (s.total.setWidth 64))

end Sys2Proof.Machine
end

