-- ==== Sys2Proof/Machine/Dispatch.lean ====
section
/-! DEFINITION. One arm per command of `spec/30_encoding.md` R84. -/

namespace Sys2Proof.Machine

def exec (i : Instr) (s : State) : Host.Outcome State Fault Refusal :=
  match i with
  | .nop => Sys2Proof.Machine.execNop s
  | .clr => Sys2Proof.Machine.execClr s
  | .errclr => Sys2Proof.Machine.execErrclr s
  | .hist b => Sys2Proof.Machine.execHist b s
  | .wfreq b d => Sys2Proof.Machine.execWfreq b d s
  | .rfreq b => Sys2Proof.Machine.execRfreq b s
  | .qtotal => Sys2Proof.Machine.execQtotal s
  | .build => Sys2Proof.Machine.execBuild s
  | .enc b => Sys2Proof.Machine.execEnc b s
  | .qlen b => Sys2Proof.Machine.execQlen b s
  | .qbit b d => Sys2Proof.Machine.execQbit b d s
  | .dec b => Sys2Proof.Machine.execDec b s
  | .dend => Sys2Proof.Machine.execDend s
  | .qroot => Sys2Proof.Machine.execQroot s
  | .qnode n sel => Sys2Proof.Machine.execQnode n sel s
  | .qerr => Sys2Proof.Machine.execQerr s

end Sys2Proof.Machine
end

