-- ==== Sys2Proof/Machine/Port.lean ====
section
/-! DEFINITION. The command port and the `rst` pin (`spec/10_state.md` R21, R25; `spec/70_reset_and_hazards.md` R250–R253). -/

namespace Sys2Proof.Machine

/-- One level of `rst` is over. -/
def State.tickRst (s : State) : State := { s with rstIn := s.rstIn.tail }

/-- `rst` is high (R250): `BUSY = 1`, and no command is accepted. -/
def State.holdReset (s : State) : State := { s.tickRst with busy := true }

/-- The first step with `rst` low again (R250): the reset clearing completes, `BUSY = 0`, and the logs start empty. -/
def State.finishReset (s : State) : State := s.tickRst.clearAll.clearLogs

/-- Executing an accepted command word (R86): the command it spells, or `ILLEGAL_COMMAND` with `cmd_word[63:32]` (R227). -/
def runWord (w : CmdWord) (s : State) : Outcome State Fault Refusal :=
  match decode w with
  | .ok i => exec i s
  | .error _ => raiseError .illegalCommand (illegalInfo w) s

/-- What the port offers while `cmd_ready = 1`: nothing (HTB waits idle, R251), a word held until it is accepted, which runs,
or a word changed before that, which is refused (R253, U7). -/
def acceptCommand (s : State) : Outcome State Fault Refusal :=
  match s.cmdIn with
  | [] => .next s.tickRst
  | .held w :: rest => runWord w { s.tickRst with cmdIn := rest }
  | .changed _ _ :: _ => .refused .unstableCommand

/-- What an abandoned command leaves (R230, R250): of the elements it would have emitted a prefix, of any length (U14), the
rest being dropped. Its other effects are lost; `t` is the state it would have left. -/
def State.abandon (s t : State) : State :=
  { s with
    busy := true
    encOut := s.encOut ++ (t.encOut.drop s.encOut.length).take (Config.freePrefix s.draws)
    decOut := s.decOut ++ (t.decOut.drop s.decOut.length).take (Config.freePrefix s.draws)
    draws := s.draws + 1 }

/-- The command of an accepted word, abandoned because `rst` rises while it executes (R230, R250). -/
def abandonWord (w : CmdWord) (s : State) : Outcome State Fault Refusal :=
  match runWord w s with
  | .next t => .next (s.abandon t)
  | .fault r => .fault r
  | .refused r => .refused r

/-- The port when `rst` rises within the step: a word is accepted while `rst` is low still, and its command is abandoned. -/
def acceptAndAbandon (s : State) : Outcome State Fault Refusal :=
  match s.cmdIn with
  | [] => .next s.holdReset
  | .held w :: rest => abandonWord w { s.tickRst with cmdIn := rest }
  | .changed _ _ :: _ => .refused .unstableCommand

/-- What a step does. `rst` comes first (R230): a step that finds it high holds, and one within which it rises puts off the
reset clearing that is due or abandons the command it accepts. An accepted command is otherwise one atomic transition (R25). -/
def advance (s : State) : Outcome State Fault Refusal :=
  if s.rst then .next s.holdReset
  else if s.busy then .next (if s.rstRises then s.holdReset else s.finishReset)
  else if s.rstRises then acceptAndAbandon s
  else acceptCommand s

/-- The inputs under which the next step accepts exactly the word `w`: it stands first on the port, `rst` is low and no
reset clearing is due. -/
def State.presentWord (s : State) (w : CmdWord) : State :=
  { s with cmdIn := .held w :: s.cmdIn, rstIn := s.rstIn.dropWhile (· != .low), busy := false }

/-- Commands executed one after another, each from the state the one before it left (R67). -/
def execAll : List Instr → State → Outcome State Fault Refusal
  | [], s => .next s
  | i :: rest, s =>
    match exec i s with
    | .next t => execAll rest t
    | .fault r => .fault r
    | .refused r => .refused r

end Sys2Proof.Machine
end

