-- ==== Sys2Proof/Machine/Step.lean ====
section
/-! DEFINITION. One step of HTB, and a command word placed where the next step accepts it (`spec/10_state.md` R25). -/

namespace Sys2Proof.Machine

/-- One step: what `rst` and the command port bring (R21, R25, R250). -/
def step (s : State) : Host.Outcome State Fault Refusal := advance s

/-- `s` with the command word `w` where the next step accepts it (log 14). -/
def State.withFetchWord (s : State) (nbits w : Nat) : State := s.presentWord (BitVec.ofNat 64 (w % 2 ^ nbits))

end Sys2Proof.Machine
end

