-- ==== Sys2Proof/Safety.lean ====
section
/-! DEFINITION. What holds in every state a run reaches: the invariants that the spec states of the counts
(`spec/10_state.md` R29), the error registers (`spec/60_exceptions.md` R221), the tree (R31, R32), the code table (R34), the
walker (R35) and the queue (R36). Claims are stated in these terms. -/

namespace Sys2Proof.Machine

/-- The sum of all `FREQ[s]` (R29). -/
def State.freqSum (s : State) : Nat := (s.freq.toList.map BitVec.toNat).sum

/-- `TOTAL = Σ FREQ[s] ≤ 2^W − 1` (R29). -/
def State.CountsOk (s : State) : Prop := s.total.toNat = s.freqSum ∧ s.total.toNat ≤ s.cfg.maxCount

/-- `ERRCODE` is 0 exactly when `ERR = 0`, and then `ERRINFO` is 0; codes 8–15 are never produced (R221). -/
def State.ErrorsOk (s : State) : Prop :=
  (s.err = false ↔ s.errcode = 0#4) ∧ (s.err = false → s.errinfo = 0#32) ∧ s.errcode.toNat ≤ 7

/-- The number of leaves with the placeholder, `L'` of R134. -/
def State.leafCount (s : State) : Nat := s.leaves.toNat + s.degen.toNat

/-- Node `i` is a child of node `p` of the tree. -/
def State.IsChild (s : State) (i p : NodeIdx) : Prop :=
  p.toNat < s.nodeCount.toNat ∧
    ∃ nd, s.readNode p = some nd ∧ nd.leaf = false ∧ (nd.left = i ∨ nd.right = i)

/-- Node `i` was created before node `k`, and no internal node created before `k` has it as a child (R134). -/
def State.Unmerged (s : State) (k i : NodeIdx) : Prop :=
  i.toNat < k.toNat ∧ ∀ p nd, p.toNat < k.toNat → s.readNode p = some nd → nd.leaf = false → nd.left ≠ i ∧ nd.right ≠ i

/-- Node `i` comes before node `j` in the priority order: by weight, then symbol, then index (R131). -/
def State.Precedes (s : State) (i j : NodeIdx) : Prop :=
  ∃ a b, s.readNode i = some a ∧ s.readNode j = some b ∧
    (a.weight.toNat < b.weight.toNat ∨
      (a.weight = b.weight ∧ (a.sym.toNat < b.sym.toNat ∨ (a.sym = b.sym ∧ i.toNat < j.toNat))))

/-- The tree registers (R32) have the values R139 tabulates. -/
structure State.TreeRegsOk (s : State) : Prop where
  leaves_le : s.leaves.toNat ≤ 256
  degen_iff : s.degen = true ↔ s.leaves.toNat = 1
  root_nil_iff : s.root = NIL ↔ s.leaves.toNat = 0
  no_tree : s.leaves.toNat = 0 → s.nodeCount.toNat = 0
  tree : s.leaves.toNat ≠ 0 →
    s.nodeCount.toNat + 1 = 2 * s.leafCount ∧ s.root.toNat + 1 = s.nodeCount.toNat

/-- The node invariants of R31, for every node of the tree. -/
structure State.NodesOk (s : State) : Prop where
  leaf_iff : ∀ i nd, i.toNat < s.nodeCount.toNat → s.readNode i = some nd →
    (nd.leaf = true ↔ nd.left = NIL ∧ nd.right = NIL)
  internal : ∀ i nd, i.toNat < s.nodeCount.toNat → s.readNode i = some nd → nd.leaf = false →
    nd.left.toNat < i.toNat ∧ nd.right.toNat < i.toNat ∧ nd.left ≠ nd.right ∧
      ∃ l r, s.readNode nd.left = some l ∧ s.readNode nd.right = some r ∧
        nd.weight.toNat = l.weight.toNat + r.weight.toNat
  byte_leaf : ∀ i nd, i.toNat < s.nodeCount.toNat → s.readNode i = some nd →
    nd.sym.toNat ≤ 0xFF → nd.leaf = true
  one_parent : ∀ i, i.toNat < s.nodeCount.toNat → i ≠ s.root → ∃! p, s.IsChild i p

/-- Where the nodes lie (R132–R134): the real leaves first, in ascending symbol order, then the placeholder if there is one,
then the internal nodes. -/
structure State.LayoutOk (s : State) : Prop where
  leaf_index : ∀ i nd, i.toNat < s.nodeCount.toNat → s.readNode i = some nd →
    (nd.leaf = true ↔ i.toNat < s.leafCount)
  byte_index : ∀ i nd, i.toNat < s.nodeCount.toNat → s.readNode i = some nd →
    (nd.sym.toNat ≤ 0xFF ↔ i.toNat < s.leaves.toNat)
  sentinel : ∀ i nd, i.toNat < s.nodeCount.toNat → s.readNode i = some nd →
    (nd.sym = SENTINEL ↔ s.leaves.toNat ≤ i.toNat)
  ascending : ∀ i j a b, i.toNat < j.toNat → j.toNat < s.leaves.toNat → s.readNode i = some a → s.readNode j = some b →
    a.sym.toNat < b.sym.toNat

/-- The tree is as R31, R32 and R132–R134 say. -/
structure State.TreeOk (s : State) : Prop where
  regs : s.TreeRegsOk
  nodes : s.NodesOk
  layout : s.LayoutOk

/-- Where the branches `p` lead from node `i`, through internal nodes: "0 = left, 1 = right" (R34). -/
def State.follow (s : State) (i : NodeIdx) : List Bool → Option NodeIdx
  | [] => some i
  | x :: p =>
    match s.readNode i with
    | none => none
    | some nd => if nd.leaf then none else s.follow (nd.child x) p

/-- Node `i` is the real leaf of the tree that carries byte `b`. -/
def State.IsLeafOf (s : State) (b : Byte) (i : NodeIdx) : Prop :=
  i.toNat < s.nodeCount.toNat ∧ ∃ nd, s.readNode i = some nd ∧ nd.leaf = true ∧ nd.sym = b.setWidth 9

/-- The code-table invariants of R34, with the length range of R33. -/
structure State.CodesOk (s : State) : Prop where
  valid_iff : ∀ b, (s.readCode b).valid = true ↔ ∃ i, s.IsLeafOf b i
  path : ∀ b, (s.readCode b).valid = true →
    ∃ i, s.follow s.root (s.readCode b).path = some i ∧ s.IsLeafOf b i
  len_pos : ∀ b, (s.readCode b).valid = true → 1 ≤ (s.readCode b).len.toNat
  len_zero : ∀ b, (s.readCode b).valid = false → (s.readCode b).len = 0#8

/-- The walker invariants of R35: with no tree it stands at `NIL`; with a tree it stands on an internal node, `DEPTH` moves
below the root, and `DEPTH ≤ 254`. -/
structure State.WalkerOk (s : State) : Prop where
  no_tree : s.root = NIL → s.cur = NIL ∧ s.depth = 0#8
  depth_le : s.depth.toNat ≤ 254
  on_path : s.root ≠ NIL → ∃ p, p.length = s.depth.toNat ∧ s.follow s.root p = some s.cur
  internal : s.root ≠ NIL → s.cur.toNat < s.nodeCount.toNat ∧ ∃ nd, s.readNode s.cur = some nd ∧ nd.leaf = false

/-- Every invariant the spec states of the block between two commands. -/
structure State.Inv (s : State) : Prop where
  counts : s.CountsOk
  errors : s.ErrorsOk
  tree : s.TreeOk
  codes : s.CodesOk
  walker : s.WalkerOk
  /-- `PQ` is empty whenever `BUSY = 0` (R36). -/
  queue : s.pq = []

/-- The state with the error `code` recorded, and nothing else changed (R220, R231, R237). -/
def State.withError (s : State) (code : BitVec 4) (info : BitVec 32) : State :=
  { s with err := true, errcode := code, errinfo := info, errLog := s.errLog ++ [(code, info)] }

/-- Every register and memory the table of R39 gives a reset value holds it. The three output logs are not part of this. -/
structure State.ResetValues (s : State) : Prop where
  freq : ∀ b, s.readFreq b = 0#32
  total : s.total = 0#32
  nodeCount : s.nodeCount = 0#10
  root : s.root = NIL
  treeValid : s.treeValid = false
  degen : s.degen = false
  leaves : s.leaves = 0#9
  codeValid : ∀ b, (s.readCode b).valid = false
  codeLen : ∀ b, (s.readCode b).len = 0#8
  cur : s.cur = NIL
  depth : s.depth = 0#8
  atRoot : s.atRoot = true
  partialBit : s.partialBit = false
  err : s.err = false
  errcode : s.errcode = 0#4
  errinfo : s.errinfo = 0#32
  result : s.result = 0#64
  pq : s.pq = []
  busy : s.busy = false

/-- The word is illegal: it decodes to no command, and with no error recorded it raises `ILLEGAL_COMMAND` with
`cmd_word[63:32]` and has no other effect (R85). -/
def IllegalWord (w : CmdWord) : Prop :=
  (∃ r, decode w = .error r) ∧
    ∀ s : State, s.err = false → runWord w s = .next (s.withError 6#4 (w.extractLsb' 32 32))

/-- Command `i` is spelled by opcode `opc` in form Z, and every other word with that opcode is illegal (R82, R85). -/
def SpelledZ (opc : BitVec 8) (i : Instr) : Prop :=
  decode (opc ++ 0#56) = .ok i ∧ ∀ w : CmdWord, opcField w = opc → w ≠ opc ++ 0#56 → IllegalWord w

/-- The same for form B: the commands `f b`. -/
def SpelledB (opc : BitVec 8) (f : Byte → Instr) : Prop :=
  (∀ b : Byte, decode (opc ++ 0#16 ++ b ++ 0#32) = .ok (f b)) ∧
    ∀ w : CmdWord, opcField w = opc → (∀ b : Byte, w ≠ opc ++ 0#16 ++ b ++ 0#32) → IllegalWord w

/-- The same for form BD: the commands `f b d`. -/
def SpelledBD (opc : BitVec 8) (f : Byte → BitVec 32 → Instr) : Prop :=
  (∀ (b : Byte) (d : BitVec 32), decode (opc ++ 0#16 ++ b ++ d) = .ok (f b d)) ∧
    ∀ w : CmdWord, opcField w = opc → (∀ (b : Byte) (d : BitVec 32), w ≠ opc ++ 0#16 ++ b ++ d) → IllegalWord w

/-- The same for form N: the commands `f n sel`, the selectors numbered 0 to 3 in the order of R204. -/
def SpelledN (opc : BitVec 8) (f : NodeIdx → NodeSel → Instr) : Prop :=
  (∀ n : NodeIdx, decode (opc ++ 0#15 ++ n ++ 0#32) = .ok (f n .weight) ∧ decode (opc ++ 0#15 ++ n ++ 1#32) = .ok (f n .symbol) ∧
      decode (opc ++ 0#15 ++ n ++ 2#32) = .ok (f n .left) ∧ decode (opc ++ 0#15 ++ n ++ 3#32) = .ok (f n .right)) ∧
    ∀ w : CmdWord, opcField w = opc →
      (∀ (n : NodeIdx) (d : BitVec 32), d.toNat < 4 → w ≠ opc ++ 0#15 ++ n ++ d) → IllegalWord w

/-- A safe run records no error: `ERRLOG` gained nothing and `ERR` is clear (R237). -/
def State.NoErrorSince (s t : State) : Prop := t.err = false ∧ t.errLog = s.errLog

end Sys2Proof.Machine
end

