-- ==== Sys2Proof/Certificates/Slice0/Obligations.lean ====
section
/-! DEFINITION. The statements for the provers, each a numbered rule of the spec or what follows from several.
Every statement is for a host that consumes both output streams, as R258 and U15 require (log 12). -/

open Sys2Proof Sys2Proof.Machine

/-! ### Encoding (`spec/30_encoding.md`) -/

/-- The words the spec writes out decode to the commands it names (R84, `spec/95_test_vectors.md`). -/
def Obligations.SampleWordsDecode : Prop :=
  decode 0x0000000000000000#64 = .ok .nop ∧
  decode 0x0100000000000000#64 = .ok .clr ∧
  decode 0x0200000000000000#64 = .ok .errclr ∧
  decode 0x1000006100000000#64 = .ok (.hist 0x61#8) ∧
  decode 0x1100006100000005#64 = .ok (.wfreq 0x61#8 5#32) ∧
  decode 0x1200007A00000000#64 = .ok (.rfreq 0x7A#8) ∧
  decode 0x1300000000000000#64 = .ok .qtotal ∧
  decode 0x2000000000000000#64 = .ok .build ∧
  decode 0x3000006200000000#64 = .ok (.enc 0x62#8) ∧
  decode 0x3100006300000000#64 = .ok (.qlen 0x63#8) ∧
  decode 0x32000061FFFFFFFF#64 = .ok (.qbit 0x61#8 0xFFFFFFFF#32) ∧
  decode 0x4000003100000000#64 = .ok (.dec 0x31#8) ∧
  decode 0x4100000000000000#64 = .ok .dend ∧
  decode 0x5000000000000000#64 = .ok .qroot ∧
  decode 0x5100000200000002#64 = .ok (.qnode 2#9 .left) ∧
  decode 0x5200000000000000#64 = .ok .qerr

/-- Decoding the word of a command gives the command back, with every operand at every value. -/
def Obligations.DecodeEncodeRoundTrip : Prop := ∀ i : Instr, decode (encode i) = .ok i

/-- A word that decodes to a command is the word of that command: no bit of it is ignored. -/
def Obligations.DecodedWordIsTheEncoding : Prop := ∀ (w : CmdWord) (i : Instr), decode w = .ok i → encode i = w

/-- The match and mask table and the decode procedure agree, and no word spells two mnemonics (R84). -/
def Obligations.DecodeAgreesWithMatchAndMask : Prop :=
  (∀ (w : CmdWord) (m : Mnemonic),
    (∃ i, decode w = .ok i ∧ i.mnemonic = m) ↔ w &&& m.maskWord = m.matchWord) ∧
  ∀ (w : CmdWord) (m k : Mnemonic), w &&& m.maskWord = m.matchWord → w &&& k.maskWord = k.matchWord → m = k

/-- A word is illegal exactly when its opcode is reserved or a field its form requires to be 0 is not, and an illegal word
raises `ILLEGAL_COMMAND` with `cmd_word[63:32]` and has no other effect; the all-zero word alone spells `NOP` (R85). -/
def Obligations.IllegalWordsRaiseIllegalCommand : Prop :=
  (∀ w : CmdWord, (∃ r, decode w = .error r) ↔
    (let o := (opcField w).toNat
     (0x03 ≤ o ∧ o ≤ 0x0F) ∨ (0x14 ≤ o ∧ o ≤ 0x1F) ∨ (0x21 ≤ o ∧ o ≤ 0x2F) ∨ (0x33 ≤ o ∧ o ≤ 0x3F) ∨
       (0x42 ≤ o ∧ o ≤ 0x4F) ∨ (0x53 ≤ o ∧ o ≤ 0xFF)) ∨
    ∃ m : Mnemonic, m.opc = opcField w ∧
      (rsvField w ≠ 0#15 ∨
        (m.form = .Z ∧ (symField w ≠ 0#9 ∨ dataField w ≠ 0#32)) ∨
        (m.form = .B ∧ ((symField w).getLsbD 8 = true ∨ dataField w ≠ 0#32)) ∨
        (m.form = .BD ∧ (symField w).getLsbD 8 = true) ∨
        (m.form = .N ∧ 4 ≤ (dataField w).toNat))) ∧
  (∀ w : CmdWord, decode w = .ok .nop ↔ w = 0#64) ∧
  ∀ (w : CmdWord) (s : State) (r : Reject), decode w = .error r →
    (s.err = false → runWord w s = .next (s.withError 6#4 (w.extractLsb' 32 32))) ∧
    (s.err = true → runWord w s = .next s)

/-- An assembly line whose operands are in range assembles to the word of R88's table; one with an operand out of range, or
the wrong number of them, is an error and never truncated (R88). The line as a list of numbers, the names of the errors and
which of them a line gets are the model's choice (log 15). -/
def Obligations.AssemblyNeverTruncates : Prop :=
  (∀ m : Mnemonic, m.form = .Z →
    ∃ i, (AsmLine.mk m []).assemble = .ok i ∧ (encode i).toNat = m.opc.toNat * 2 ^ 56) ∧
  (∀ (m : Mnemonic) (b : Nat), m.form = .B →
    (b < 256 → ∃ i, (AsmLine.mk m [b]).assemble = .ok i ∧ (encode i).toNat = m.opc.toNat * 2 ^ 56 + b * 2 ^ 32) ∧
    (256 ≤ b → (AsmLine.mk m [b]).assemble = .error .byteRange)) ∧
  (∀ (m : Mnemonic) (b d : Nat), m.form = .BD →
    (b < 256 → d < 2 ^ 32 →
      ∃ i, (AsmLine.mk m [b, d]).assemble = .ok i ∧ (encode i).toNat = m.opc.toNat * 2 ^ 56 + b * 2 ^ 32 + d) ∧
    (256 ≤ b → (AsmLine.mk m [b, d]).assemble = .error .byteRange) ∧
    (b < 256 → 2 ^ 32 ≤ d → (AsmLine.mk m [b, d]).assemble = .error .dataRange)) ∧
  (∀ (m : Mnemonic) (n sel : Nat), m.form = .N →
    (n < 512 → sel < 4 →
      ∃ i, (AsmLine.mk m [n, sel]).assemble = .ok i ∧ (encode i).toNat = m.opc.toNat * 2 ^ 56 + n * 2 ^ 32 + sel) ∧
    (512 ≤ n → (AsmLine.mk m [n, sel]).assemble = .error .nodeRange) ∧
    (n < 512 → 4 ≤ sel → (AsmLine.mk m [n, sel]).assemble = .error .selRange)) ∧
  ∀ (m : Mnemonic) (args : List Nat),
    args.length ≠ (match m.form with | .Z => 0 | .B => 1 | .BD => 2 | .N => 2) →
    (AsmLine.mk m args).assemble = .error .operandCount

/-! ### The step (`spec/10_state.md` R25, `spec/70_reset_and_hazards.md`) -/

/-- A step with `rst` low that finds a held word which decodes to a command executes that command, with the word taken off the port and
one level of `rst` gone by. -/
def Obligations.StepRunsDecodedCommand : Prop :=
  ∀ (s : State) (w : CmdWord) (rest : List Presentation) (i : Instr),
    s.rstNow = .low → s.busy = false → s.cmdIn = .held w :: rest → decode w = .ok i →
    step s = exec i { s with cmdIn := rest, rstIn := s.rstIn.tail }

/-- A step with `rst` low that finds a held word which is illegal takes `ILLEGAL_COMMAND`, unless an error is recorded already (R227). -/
def Obligations.StepRaisesOnIllegalWord : Prop :=
  ∀ (s : State) (w : CmdWord) (rest : List Presentation) (r : Reject),
    s.rstNow = .low → s.busy = false → s.cmdIn = .held w :: rest → decode w = .error r →
    (s.err = false → step s =
      .next ({ s with cmdIn := rest, rstIn := s.rstIn.tail }.withError 6#4 (w.extractLsb' 32 32))) ∧
    (s.err = true → step s = .next { s with cmdIn := rest, rstIn := s.rstIn.tail })

/-- With no command presented HTB waits, its state as it was (R251). A word changed before it was accepted is refused: R253
calls it unpredictable (the refusal is U7's treatment, log 8). -/
def Obligations.StepWaitsOrRefusesUnstableWord : Prop :=
  (∀ s : State, s.rstNow = .low → s.busy = false → s.cmdIn = [] → step s = .next { s with rstIn := s.rstIn.tail }) ∧
  ∀ (s : State) (v w : CmdWord) (rest : List Presentation),
    s.rst = false → s.busy = false → s.cmdIn = .changed v w :: rest → step s = .refused .unstableCommand

/-- While `rst` is high, `BUSY = 1`, `cmd_ready = 0` and no command is accepted, whatever is presented; if it rises again
before the clearing, the clearing is put off. When it falls the reset clearing completes: `BUSY = 0`, every piece of state at
its reset value, the logs empty (R250). That the clearing takes one step is the model's choice (log 2). -/
def Obligations.ResetHoldsThenClears : Prop :=
  (∀ s : State, s.rst = true → s.busyNow = true ∧ s.cmdReady = false ∧
    ∃ t, step s = .next t ∧ t.busy = true ∧ t.cmdReady = false ∧ t.cmdIn = s.cmdIn ∧ t.rstIn = s.rstIn.tail) ∧
  (∀ s : State, s.rstNow = .rises → s.busy = true →
    ∃ t, step s = .next t ∧ t.busy = true ∧ t.cmdReady = false ∧ t.cmdIn = s.cmdIn ∧ t.rstIn = s.rstIn.tail) ∧
  ∀ s : State, s.rstNow = .low → s.busy = true →
    ∃ t, step s = .next t ∧ t.ResetValues ∧ t.encOut = [] ∧ t.decOut = [] ∧ t.errLog = [] ∧
      t.cmdIn = s.cmdIn ∧ t.rstIn = s.rstIn.tail ∧ t.cfg = s.cfg

/-- When `rst` rises while a command executes, the command is abandoned: `BUSY = 1`, no command is accepted, a prefix of what
it would have emitted stays in the output streams and the rest is dropped, and once `rst` is low the state becomes the reset
state, the logs empty (R250, R230, U14). Two clauses are the model's choice (log 2), not the spec's: that an abandoned command
adds nothing to `ERRLOG`, and that the clearing takes one step. -/
def Obligations.ResetAbandonsTheCommand : Prop :=
  ∀ (s u : State) (w : CmdWord) (rest : List Presentation),
    s.rstNow = .rises → s.busy = false → s.cmdIn = .held w :: rest →
    runWord w { s with cmdIn := rest, rstIn := s.rstIn.tail } = .next u →
    ∃ t, step s = .next t ∧ t.busy = true ∧ t.busyNow = true ∧ t.cmdReady = false ∧ t.cmdIn = rest ∧
      t.rstIn = s.rstIn.tail ∧ t.cfg = s.cfg ∧ t.errLog = s.errLog ∧
      (s.encOut <+: t.encOut ∧ t.encOut <+: u.encOut) ∧ (s.decOut <+: t.decOut ∧ t.decOut <+: u.decOut) ∧
      (t.rstNow = .low →
        ∃ v, step t = .next v ∧ v.ResetValues ∧ v.encOut = [] ∧ v.decOut = [] ∧ v.errLog = [] ∧ v.cmdIn = rest)

/-- The reset state, and the state after `CLR` from any state, hold the values of R39's table. After reset the logs are
empty. `CLR` does not empty them (R201). `BUSY` is 1 while `rst` is high and until the clearing, and 0 after it. -/
def Obligations.ResetAndClrGiveResetValues : Prop :=
  (State.reset.ResetValues ∧ State.reset.encOut = [] ∧ State.reset.decOut = [] ∧ State.reset.errLog = []) ∧
  (∀ s : State, s.rst = true ∨ s.busy = true → s.busyNow = true) ∧
  ∀ s : State, ∃ t, exec .clr s = .next t ∧ t.ResetValues ∧
    t.encOut = s.encOut ∧ t.decOut = s.decOut ∧ t.errLog = s.errLog ∧
    t.cfg = s.cfg ∧ t.cmdIn = s.cmdIn ∧ t.rstIn = s.rstIn

/-- Commands presented one after another are executed in the order presented, each from the state the one before it
left (R67). -/
def Obligations.QueuedCommandsRunInOrder : Prop :=
  ∀ (is : List Instr) (s : State),
    s.rstIn = [] → s.busy = false → s.cmdIn = is.map (fun i => .held (encode i)) →
    Host.Core.run Sys2Proof.core is.length s = execAll is { s with cmdIn := [] }

/-! ### Errors (`spec/60_exceptions.md`) -/

/-- Taking an error records it when none is recorded, and changes nothing when one is; and a command that takes an error
changes nothing else: it leaves exactly the state with that error recorded (R220). -/
def Obligations.ErrorsArePrecise : Prop :=
  (∀ (s : State) (e : ErrKind) (info : BitVec 32),
    (s.err = false → s.raise e info = s.withError e.code info) ∧ (s.err = true → s.raise e info = s)) ∧
  ∀ (i : Instr) (s t : State), exec i s = .next t → s.err = false → t.err = true →
    ∃ code info, t = s.withError code info

/-- Each cause of R221's table, with its code and its information word. -/
def Obligations.ErrorCodesAndInformation : Prop :=
  ∀ s : State, s.err = false →
    (∀ b, (s.readCode b).valid = false → exec (.enc b) s = .next (s.withError 1#4 (b.setWidth 32))) ∧
    (∀ b, s.root ≠ NIL → b ≠ 0x30#8 → b ≠ 0x31#8 → exec (.dec b) s = .next (s.withError 2#4 (b.setWidth 32))) ∧
    (∀ b, s.root = NIL → exec (.dec b) s = .next (s.withError 3#4 (b.setWidth 32))) ∧
    (∀ (b : Byte) (nd nx : Node) (x : NodeIdx), s.root ≠ NIL → s.readNode s.cur = some nd →
      ((b = 0x30#8 ∧ x = nd.left) ∨ (b = 0x31#8 ∧ x = nd.right)) →
      s.readNode x = some nx → nx.leaf = true → nx.sym = SENTINEL →
      exec (.dec b) s = .next (s.withError 4#4 (x.setWidth 32))) ∧
    (∀ b, s.total.toNat = 2 ^ s.cfg.W - 1 → exec (.hist b) s = .next (s.withError 5#4 (b.setWidth 32))) ∧
    (∀ b (d : BitVec 32), (2 : Int) ^ s.cfg.W - 1 < (s.total.toNat : Int) - (s.readFreq b).toNat + d.toNat →
      exec (.wfreq b d) s = .next (s.withError 5#4 (b.setWidth 32))) ∧
    (∀ (w : CmdWord) r, decode w = .error r → runWord w s = .next (s.withError 6#4 (w.extractLsb' 32 32))) ∧
    (∀ b (d : BitVec 32), (s.readCode b).valid = false ∨ (s.readCode b).len.toNat ≤ d.toNat →
      exec (.qbit b d) s = .next (s.withError 7#4 d)) ∧
    (∀ n sel, s.nodeCount.toNat ≤ n.toNat → exec (.qnode n sel) s = .next (s.withError 7#4 (n.setWidth 32)))

/-- While `ERR = 1` the six data commands have no effect at all, and the others execute normally (R229). -/
def Obligations.BlockedCommandsHaveNoEffect : Prop :=
  ∀ s : State, s.err = true →
    ((∀ b, exec (.hist b) s = .next s) ∧ (∀ b d, exec (.wfreq b d) s = .next s) ∧ exec .build s = .next s ∧
      (∀ b, exec (.enc b) s = .next s) ∧ (∀ b, exec (.dec b) s = .next s) ∧ exec .dend s = .next s) ∧
    exec .nop s = .next s ∧
    (∃ t, exec .clr s = .next t ∧ t.ResetValues) ∧
    exec .errclr s = .next { s with err := false, errcode := 0, errinfo := 0, cur := s.root, depth := 0 } ∧
    (∀ b, exec (.rfreq b) s = .next { s with result := (s.readFreq b).setWidth 64 }) ∧
    exec .qtotal s = .next { s with result := s.total.setWidth 64 } ∧
    (∀ b, ∃ v : BitVec 64, exec (.qlen b) s = .next { s with result := v } ∧
      ((s.readCode b).valid = true → v.toNat = (s.readCode b).len.toNat) ∧ ((s.readCode b).valid = false → v = 0)) ∧
    (∀ b (d : BitVec 32), (s.readCode b).valid = true → d.toNat < (s.readCode b).len.toNat →
      exec (.qbit b d) s =
        .next { s with result := if (s.readCode b).bits.toList.getD d.toNat false then 1 else 0 }) ∧
    (∃ v : BitVec 64, exec .qroot s = .next { s with result := v } ∧ v.extractLsb' 0 9 = s.root) ∧
    (∀ n sel nd, n.toNat < s.nodeCount.toNat → s.readNode n = some nd →
      exec (.qnode n sel) s = .next { s with result := nodeResult nd sel }) ∧
    (∃ v : BitVec 64, exec .qerr s = .next { s with result := v } ∧ v.extractLsb' 0 32 = s.errinfo)

/-- While an error is recorded no command but `ERRCLR` and `CLR` changes the error registers, and those two clear them; the
log of errors is kept by all (R232). -/
def Obligations.FirstErrorIsKeptUntilCleared : Prop :=
  ∀ (i : Instr) (s t : State), s.err = true → exec i s = .next t →
    t.errLog = s.errLog ∧
    (i ≠ .clr → i ≠ .errclr → t.err = true ∧ t.errcode = s.errcode ∧ t.errinfo = s.errinfo) ∧
    (i = .clr ∨ i = .errclr → t.err = false ∧ t.errcode = 0#4 ∧ t.errinfo = 0#32)

/-- Outside reset, a step appends `(ERRCODE, ERRINFO)` to `ERRLOG` exactly when `ERR` goes from 0 to 1, and no step removes
an entry (R237). -/
def Obligations.ErrorLogRecordsEachNewError : Prop :=
  ∀ s t : State, s.rst = false → s.busy = false → step s = .next t →
    (s.err = false ∧ t.err = true → t.errLog = s.errLog ++ [(t.errcode, t.errinfo)]) ∧
    (¬ (s.err = false ∧ t.err = true) → t.errLog = s.errLog)

/-! ### Invariants (`spec/10_state.md`) -/

/-- The state after reset meets every invariant. -/
def Obligations.ResetMeetsEveryInvariant : Prop := State.reset.Inv

/-- `ERRCODE = 0` exactly when `ERR = 0`, `ERRINFO = 0` then, and no code above 7, is kept by every step (R221). -/
def Obligations.ErrorInvariantKeptByEveryStep : Prop :=
  ∀ s t : State, s.ErrorsOk → step s = .next t → t.ErrorsOk

/-- `TOTAL = Σ FREQ[s] ≤ 2^W − 1` is kept by every step (R29). -/
def Obligations.CountInvariantKeptByEveryStep : Prop :=
  ∀ s t : State, s.CountsOk → step s = .next t → t.CountsOk

/-- The tree invariants are kept by every step, given that the counts are as R29 says (R31). -/
def Obligations.TreeInvariantKeptByEveryStep : Prop :=
  ∀ s t : State, s.CountsOk → s.TreeOk → step s = .next t → t.TreeOk

/-- The code-table invariants are kept by every step, given that the counts are as R29 says: the keys, the paths, and no
valid code a prefix of another (R34). -/
def Obligations.CodeInvariantKeptByEveryStep : Prop :=
  ∀ s t : State, s.CountsOk → s.CodesOk → step s = .next t →
    t.CodesOk ∧ ∀ a b : Byte, a ≠ b → (t.readCode a).valid = true → (t.readCode b).valid = true →
      ¬ (t.readCode a).path <+: (t.readCode b).path

/-- The walker invariants are kept by every step, given the tree's (R35). -/
def Obligations.WalkerInvariantKeptByEveryStep : Prop :=
  ∀ s t : State, s.CountsOk → s.TreeOk → s.WalkerOk → step s = .next t → t.WalkerOk

/-- `PQ` is empty between commands (R36). -/
def Obligations.QueueEmptyBetweenSteps : Prop :=
  ∀ s t : State, s.CountsOk → s.pq = [] → step s = .next t → t.pq = []

/-- In a state with the invariants every command completes: it answers a next state, neither a fault nor a refusal (R25). That
the host consumes the output streams (R258) is the model's assumption (log 12). -/
def Obligations.EveryCommandCompletes : Prop := ∀ (i : Instr) (s : State), s.Inv → ∃ t, exec i s = .next t

/-! ### Counting (`spec/40_histogram.md`) -/

/-- `HIST b` adds 1 to `FREQ[b]` and `TOTAL` and changes nothing else, or raises `COUNT_OVERFLOW` when `TOTAL` is
`2^W − 1` (R110).
The words of its form spell it, and every other word with its opcode is illegal. -/
def Obligations.HistCountsOneByte : Prop :=
  SpelledB 0x10#8 .hist ∧
  ∀ (s : State) (b : Byte), s.CountsOk →
    (s.err = true → exec (.hist b) s = .next s) ∧
    (s.err = false → s.total.toNat = 2 ^ s.cfg.W - 1 → exec (.hist b) s = .next (s.withError 5#4 (b.setWidth 32))) ∧
    (s.err = false → s.total.toNat ≠ 2 ^ s.cfg.W - 1 →
      ∃ f n, exec (.hist b) s = .next { s with freq := f, total := n } ∧
        n.toNat = s.total.toNat + 1 ∧
        (f[b.toNat]'b.isLt).toNat = (s.readFreq b).toNat + 1 ∧
        ∀ c : Byte, c ≠ b → f[c.toNat]'c.isLt = s.readFreq c)

/-- `WFREQ b, d` sets `FREQ[b]` to `d` and adjusts `TOTAL`, and changes nothing else, or raises `COUNT_OVERFLOW` when the new
total would exceed `2^W − 1` (R111).
The words of its form spell it, and every other word with its opcode is illegal. -/
def Obligations.WfreqSetsOneCount : Prop :=
  SpelledBD 0x11#8 .wfreq ∧
  ∀ (s : State) (b : Byte) (d : BitVec 32), s.CountsOk →
    (s.err = true → exec (.wfreq b d) s = .next s) ∧
    (s.err = false → 2 ^ s.cfg.W - 1 < s.total.toNat - (s.readFreq b).toNat + d.toNat →
      exec (.wfreq b d) s = .next (s.withError 5#4 (b.setWidth 32))) ∧
    (s.err = false → s.total.toNat - (s.readFreq b).toNat + d.toNat ≤ 2 ^ s.cfg.W - 1 →
      ∃ f n, exec (.wfreq b d) s = .next { s with freq := f, total := n } ∧
        n.toNat = s.total.toNat - (s.readFreq b).toNat + d.toNat ∧
        f[b.toNat]'b.isLt = d ∧
        ∀ c : Byte, c ≠ b → f[c.toNat]'c.isLt = s.readFreq c)

/-- `RFREQ` and `QTOTAL` write the count they read to `RESULT` and nothing else, in every state (R112, R113).
The words of their forms spell them, and every other word with their opcodes is illegal. -/
def Obligations.CountReadsReturnTheCount : Prop :=
  SpelledB 0x12#8 .rfreq ∧ SpelledZ 0x13#8 .qtotal ∧
  ∀ s : State,
    (∀ b, ∃ v : BitVec 64, exec (.rfreq b) s = .next { s with result := v } ∧ v.toNat = (s.readFreq b).toNat) ∧
    ∃ v : BitVec 64, exec .qtotal s = .next { s with result := v } ∧ v.toNat = s.total.toNat

/-- Two `HIST` commands may change places: the state does not depend on the order in which bytes arrive (R138). -/
def Obligations.HistOrderDoesNotMatter : Prop :=
  ∀ (s : State) (a b : Byte), s.CountsOk → s.total.toNat + 2 ≤ 2 ^ s.cfg.W - 1 →
    execAll [.hist a, .hist b] s = execAll [.hist b, .hist a] s

/-! ### The tree builder (`spec/41_tree_builder.md`) -/

/-- `BUILD` completes, writes the node RAM, the tree registers and the code table, puts the walker on the root, leaves the
queue empty, and writes nothing else; the draw counter is the model's own (R137). -/
def Obligations.BuildWritesOnlyTheTree : Prop :=
  ∀ s : State, s.CountsOk → s.err = false →
    ∃ t, exec .build s = .next t ∧ t.cur = t.root ∧ t.depth = 0#8 ∧ t.pq = [] ∧
      t = { s with node := t.node, nodeCount := t.nodeCount, root := t.root, leaves := t.leaves, degen := t.degen,
                   code := t.code, cur := t.cur, depth := t.depth, pq := t.pq, draws := t.draws }

/-- `BUILD` of an empty table leaves no tree and an empty code table, and is no error (R135). -/
def Obligations.BuildOfEmptyTableGivesNoTree : Prop :=
  ∀ s : State, s.err = false → (∀ b, s.readFreq b = 0#32) →
    ∃ t, exec .build s = .next t ∧ t.root = NIL ∧ t.treeValid = false ∧ t.nodeCount = 0#10 ∧ t.leaves = 0#9 ∧
      t.degen = false ∧ (∀ b, (t.readCode b).valid = false ∧ (t.readCode b).len = 0#8) ∧
      t.cur = NIL ∧ t.depth = 0#8 ∧ t.err = false

/-- The leaves stand at the lowest indices in ascending symbol order, one for each symbol with a positive frequency and none
for any other, each with its frequency as weight (R132). -/
def Obligations.BuildCreatesLeavesInSymbolOrder : Prop :=
  ∀ s : State, s.CountsOk → s.err = false →
    ∃ t, exec .build s = .next t ∧
      t.leaves.toNat = (List.range 256).countP (fun k => s.readFreq (BitVec.ofNat 8 k) != 0#32) ∧
      (∀ b : Byte, s.readFreq b ≠ 0#32 →
        ∃ i : NodeIdx, i.toNat = (List.range b.toNat).countP (fun k => s.readFreq (BitVec.ofNat 8 k) != 0#32) ∧
          t.readNode i = some { weight := (s.readFreq b).setWidth 33, sym := b.setWidth 9, leaf := true,
                                left := NIL, right := NIL }) ∧
      ∀ (i : NodeIdx) (nd : Node), i.toNat < t.nodeCount.toNat → t.readNode i = some nd → nd.sym.toNat ≤ 0xFF →
        s.readFreq (BitVec.ofNat 8 nd.sym.toNat) ≠ 0#32

/-- With exactly one symbol the placeholder leaf is `NODE[1]`, the root is `NODE[2]`, and the symbol's code is `0` when its
frequency is 1 and `1` otherwise; with two or more symbols there is no placeholder (R133). -/
def Obligations.BuildOfOneSymbolAddsPlaceholder : Prop :=
  (∀ (s : State) (b : Byte), s.CountsOk → s.err = false → s.readFreq b ≠ 0#32 → (∀ c, c ≠ b → s.readFreq c = 0#32) →
    ∃ t, exec .build s = .next t ∧ t.degen = true ∧ t.nodeCount = 3#10 ∧ t.root = 2#9 ∧ t.leaves = 1#9 ∧
      t.readNode 1#9 = some { weight := 1#33, sym := 0x100#9, leaf := true, left := NIL, right := NIL } ∧
      (t.readCode b).valid = true ∧
      (s.readFreq b = 1#32 → (t.readCode b).path = [false]) ∧ (s.readFreq b ≠ 1#32 → (t.readCode b).path = [true])) ∧
  ∀ (s : State) (a b : Byte), s.CountsOk → s.err = false → a ≠ b → s.readFreq a ≠ 0#32 → s.readFreq b ≠ 0#32 →
    ∃ t, exec .build s = .next t ∧ t.degen = false ∧
      ∀ (i : NodeIdx) (nd : Node), i.toNat < t.nodeCount.toNat → t.readNode i = some nd → nd.leaf = true →
        nd.sym ≠ 0x100#9

/-- The sizes after `BUILD`: the table of R139, with the root's weight and the range of the code lengths. -/
def Obligations.BuildSizesAreThoseOfAFullTree : Prop :=
  ∀ s : State, s.CountsOk → s.err = false →
    ∃ t, exec .build s = .next t ∧ t.leaves.toNat ≤ 256 ∧
      (t.leaves.toNat = 0 → t.nodeCount.toNat = 0 ∧ t.root = NIL ∧ t.degen = false) ∧
      (t.leaves.toNat = 1 → t.nodeCount.toNat = 3 ∧ t.root.toNat = 2 ∧ t.degen = true ∧
        (∃ nd, t.readNode t.root = some nd ∧ nd.weight.toNat = s.total.toNat + 1) ∧
        ∀ b, (t.readCode b).valid = true → (t.readCode b).len.toNat = 1) ∧
      (2 ≤ t.leaves.toNat → t.nodeCount.toNat = 2 * t.leaves.toNat - 1 ∧ t.root.toNat = 2 * t.leaves.toNat - 2 ∧
        t.degen = false ∧
        (∃ nd, t.readNode t.root = some nd ∧ nd.weight.toNat = s.total.toNat) ∧
        ∀ b, (t.readCode b).valid = true →
          1 ≤ (t.readCode b).len.toNat ∧ (t.readCode b).len.toNat ≤ t.leaves.toNat - 1)

/-- `BUILD` depends on the frequencies alone: two states of one instance with the same table get the same tree, registers and
codes, wherever those are specified (R138). -/
def Obligations.BuildDependsOnFrequenciesAlone : Prop :=
  ∀ s s' t t' : State, s.cfg = s'.cfg → s.freq = s'.freq → s.err = false → s'.err = false →
    exec .build s = .next t → exec .build s' = .next t' →
    t.nodeCount = t'.nodeCount ∧ t.root = t'.root ∧ t.leaves = t'.leaves ∧ t.degen = t'.degen ∧
      t.cur = t'.cur ∧ t.depth = t'.depth ∧
      (∀ i : NodeIdx, i.toNat < t.nodeCount.toNat → t.readNode i = t'.readNode i) ∧
      ∀ b, (t.readCode b).valid = (t'.readCode b).valid ∧ (t.readCode b).len = (t'.readCode b).len ∧
        (t.readCode b).path = (t'.readCode b).path

/-- `extract_min` removes the entry with the smallest weight, at equal weight the smallest symbol, and at equal weight and
symbol the smallest index, so that a node with the sentinel comes after every real leaf of its weight (R131). -/
def Obligations.ExtractMinFollowsThePriorityOrder : Prop :=
  ∀ (nodes : List Node) (pq : List NodeIdx),
    (extractMin nodes pq = none ↔ pq = []) ∧
    ∀ i rest, extractMin nodes pq = some (i, rest) →
      i ∈ pq ∧ rest = pq.erase i ∧ rest.length + 1 = pq.length ∧
      ∀ j ∈ pq, (nodeOf nodes i).weight.toNat < (nodeOf nodes j).weight.toNat ∨
        ((nodeOf nodes i).weight = (nodeOf nodes j).weight ∧
          ((nodeOf nodes i).sym.toNat < (nodeOf nodes j).sym.toNat ∨
            ((nodeOf nodes i).sym = (nodeOf nodes j).sym ∧ i.toNat ≤ j.toNat)))

/-- One turn of the merge loop: the two smallest entries, left and right in the order of their removal, become a new internal
node at the next index, with the sum of their weights; it enters the queue (R134). -/
def Obligations.MergeCombinesTheTwoSmallest : Prop :=
  ∀ (c : Config) (bd : Builder),
    (bd.pq.length ≤ 1 → mergeStep c bd = none) ∧
    (2 ≤ bd.pq.length →
      ∃ a pq1 b pq2 nd, extractMin bd.nodes bd.pq = some (a, pq1) ∧ extractMin bd.nodes pq1 = some (b, pq2) ∧
        mergeStep c bd = some { nodes := bd.nodes ++ [nd], pq := pq2 ++ [BitVec.ofNat 9 bd.nodes.length] } ∧
        nd.left = a ∧ nd.right = b ∧ nd.leaf = false ∧ nd.sym = 0x100#9 ∧
        ((nodeOf bd.nodes a).weight.toNat + (nodeOf bd.nodes b).weight.toNat < 2 ^ (c.W + 1) →
          nd.weight.toNat = (nodeOf bd.nodes a).weight.toNat + (nodeOf bd.nodes b).weight.toNat))

/-- In the tree `BUILD` leaves, the internal nodes follow the leaves in the order of their creation, and each is the merge of
the two smallest nodes, by weight, symbol and index, among those created before it that were not merged yet: the smallest is
its left child, the next its right child, and its weight is their sum. The last node created is the root (R134). -/
def Obligations.BuildMergesTheTwoSmallest : Prop :=
  ∀ s : State, s.CountsOk → s.err = false →
    ∃ t, exec .build s = .next t ∧
      (t.root ≠ NIL → t.root.toNat + 1 = t.nodeCount.toNat) ∧
      ∀ (k : NodeIdx) (nd : Node), k.toNat < t.nodeCount.toNat → t.readNode k = some nd →
        (t.leafCount ≤ k.toNat ↔ nd.leaf = false) ∧
        (nd.leaf = false →
          nd.sym = 0x100#9 ∧
          t.Unmerged k nd.left ∧ t.Unmerged k nd.right ∧ t.Precedes nd.left nd.right ∧
          (∀ j, t.Unmerged k j → j = nd.left ∨ j = nd.right ∨ t.Precedes nd.right j) ∧
          ∃ l r, t.readNode nd.left = some l ∧ t.readNode nd.right = some r ∧
            nd.weight.toNat = l.weight.toNat + r.weight.toNat)

/-- No valid code is a prefix of another valid code (R34). -/
def Obligations.CodesArePrefixFree : Prop :=
  ∀ s : State, s.CodesOk → ∀ a b : Byte, a ≠ b → (s.readCode a).valid = true → (s.readCode b).valid = true →
    ¬ (s.readCode a).path <+: (s.readCode b).path

/-! ### The encoder (`spec/42_encoder.md`) -/

/-- `ENC b` appends the code of `b`, one character per bit, and changes nothing else, or raises `LOOKUP` (R160).
The words of its form spell it, and every other word with its opcode is illegal. -/
def Obligations.EncEmitsTheCode : Prop :=
  SpelledB 0x30#8 .enc ∧
  ∀ (s : State) (b : Byte),
    (s.err = true → exec (.enc b) s = .next s) ∧
    (s.err = false → (s.readCode b).valid = false → exec (.enc b) s = .next (s.withError 1#4 (b.setWidth 32))) ∧
    (s.err = false → (s.readCode b).valid = true →
      exec (.enc b) s =
        .next { s with
          encOut := s.encOut ++ (List.range (s.readCode b).len.toNat).map (fun k =>
            if (s.readCode b).bits.toList.getD k false then 0x31#8 else 0x30#8) })

/-- `QLEN b` writes the code's length, or 0 without a code, to `RESULT` and changes nothing else; by the code-table invariants
0 is never the length of a valid code (R161).
The words of its form spell it, and every other word with its opcode is illegal. -/
def Obligations.QlenReadsTheLength : Prop :=
  SpelledB 0x31#8 .qlen ∧
  ∀ (s : State) (b : Byte), ∃ v : BitVec 64, exec (.qlen b) s = .next { s with result := v } ∧
    ((s.readCode b).valid = true → v.toNat = (s.readCode b).len.toNat) ∧ ((s.readCode b).valid = false → v.toNat = 0) ∧
    (s.CodesOk → (s.readCode b).valid = true → v.toNat ≠ 0)

/-- `QBIT b, d` writes bit `d` of the code to `RESULT` and changes nothing else; out of range it raises `QUERY_RANGE` with
`ERRINFO = d`, or changes nothing while an error is recorded (R162).
The words of its form spell it, and every other word with its opcode is illegal. -/
def Obligations.QbitReadsOneBit : Prop :=
  SpelledBD 0x32#8 .qbit ∧
  ∀ (s : State) (b : Byte) (d : BitVec 32),
    ((s.readCode b).valid = true → d.toNat < (s.readCode b).len.toNat →
      ∃ v : BitVec 64, exec (.qbit b d) s = .next { s with result := v } ∧
        v.toNat = ((s.readCode b).bits.toList.getD d.toNat false).toNat) ∧
    ((s.readCode b).valid = false ∨ (s.readCode b).len.toNat ≤ d.toNat →
      (s.err = false → exec (.qbit b d) s = .next (s.withError 7#4 d)) ∧
      (s.err = true → exec (.qbit b d) s = .next s))

/-- A sequence of `ENC` commands appends the codes of its bytes in order; if one byte has no code, what came before it is
emitted, `LOOKUP` is recorded, and what comes after it is blocked (R163). -/
def Obligations.EncoderStreamLaw : Prop :=
  ∀ (s : State) (bs : List Byte), s.err = false → (∀ b ∈ bs, (s.readCode b).valid = true) →
    execAll (bs.map .enc) s =
      .next { s with encOut := s.encOut ++ bs.flatMap (fun b => (s.readCode b).path.map charOfBit) } ∧
    ∀ (b : Byte) (cs : List Byte), (s.readCode b).valid = false →
      execAll ((bs ++ b :: cs).map .enc) s =
        .next ({ s with encOut := s.encOut ++ bs.flatMap (fun b => (s.readCode b).path.map charOfBit) }.withError 1#4
          (b.setWidth 32))

/-! ### The decoder (`spec/43_decoder.md`) -/

/-- `DEC b`: blocked, or `NO_TREE`, or `INVALID_BIT`, in this order; otherwise the walker moves to the child that the
character selects and stays there if it is internal, or emits its byte and returns to the root if it is a real leaf, or
`PLACEHOLDER_LEAF` is raised; nothing else changes (R180, R182).
The words of its form spell it, and every other word with its opcode is illegal. -/
def Obligations.DecTakesOneCharacter : Prop :=
  SpelledB 0x40#8 .dec ∧
  ∀ (s : State) (b : Byte), s.TreeOk → s.WalkerOk →
    (s.err = true → exec (.dec b) s = .next s) ∧
    (s.err = false → s.root = NIL → exec (.dec b) s = .next (s.withError 3#4 (b.setWidth 32))) ∧
    (s.err = false → s.root ≠ NIL → b ≠ 0x30#8 → b ≠ 0x31#8 →
      exec (.dec b) s = .next (s.withError 2#4 (b.setWidth 32))) ∧
    (s.err = false → s.root ≠ NIL → b = 0x30#8 ∨ b = 0x31#8 →
      ∃ nd nx, s.readNode s.cur = some nd ∧
        let nxt := if b = 0x31#8 then nd.right else nd.left
        s.readNode nxt = some nx ∧
        (nx.leaf = false → exec (.dec b) s = .next { s with cur := nxt, depth := s.depth + 1#8 }) ∧
        (nx.leaf = true → nx.sym ≠ 0x100#9 →
          exec (.dec b) s =
            .next { s with decOut := s.decOut ++ [BitVec.ofNat 8 nx.sym.toNat], cur := s.root, depth := 0#8 }) ∧
        (nx.leaf = true → nx.sym = 0x100#9 → nxt = 1#9 ∧ exec (.dec b) s = .next (s.withError 4#4 1#32)))

/-- `DEND` reports the depth and whether it was not 0, returns the walker to the root, and changes nothing else (R181).
The words of its form spell it, and every other word with its opcode is illegal. -/
def Obligations.DendReportsTheDepth : Prop :=
  SpelledZ 0x41#8 .dend ∧
  ∀ s : State,
    (s.err = true → exec .dend s = .next s) ∧
    (s.err = false → ∃ v : BitVec 64, v.toNat = s.depth.toNat ∧
      exec .dend s = .next { s with result := v, partialBit := decide (s.depth ≠ 0#8), cur := s.root, depth := 0#8 })

/-- From the root of a tree, the characters that `ENC` commands append, given back to `DEC` commands and a `DEND` against the
same tree, append exactly the encoded bytes to `DEC_OUT`; no error is raised and the walker ends at the root with
`RESULT = 0` and `PARTIAL = 0` (R183). -/
def Obligations.DecodeStreamLaw : Prop :=
  ∀ (s : State) (bs : List Byte), s.TreeOk → s.CodesOk → s.WalkerOk →
    s.root ≠ NIL → s.depth = 0#8 → s.err = false → (∀ b ∈ bs, (s.readCode b).valid = true) →
    ∃ chars, execAll (Pseudo.ENCS bs).expand s = .next { s with encOut := s.encOut ++ chars } ∧
      execAll (Pseudo.DECOMPRESS chars).expand { s with encOut := s.encOut ++ chars } =
        .next { s with encOut := s.encOut ++ chars, decOut := s.decOut ++ bs, result := 0#64, partialBit := false,
                       cur := s.root, depth := 0#8 }

/-! ### Operations (`spec/60_exceptions.md` R236) -/

/-- From any state, compressing at most `2^W − 1` bytes never raises: no error is recorded or logged, every byte is counted,
and the output is the concatenation of the bytes' codes in order; the empty string gives no tree (R236). -/
def Obligations.CompressNeverRaises : Prop :=
  ∀ (s : State) (bs : List Byte), bs.length ≤ 2 ^ s.cfg.W - 1 →
    ∃ t, execAll (Pseudo.COMPRESS bs).expand s = .next t ∧ s.NoErrorSince t ∧
      (∀ b, (t.readFreq b).toNat = bs.count b) ∧ t.total.toNat = bs.length ∧
      (∀ b ∈ bs, (t.readCode b).valid = true) ∧
      t.encOut = s.encOut ++ bs.flatMap (fun b => (t.readCode b).path.map charOfBit) ∧
      (bs = [] → t.root = NIL)

/-- Compressing a string and decompressing what came out gives the string back, from any state and without an error
(`spec/95_test_vectors.md` S1). -/
def Obligations.CompressThenDecompressGivesInput : Prop :=
  ∀ (s : State) (bs : List Byte), bs.length ≤ 2 ^ s.cfg.W - 1 →
    ∃ t u chars, execAll (Pseudo.COMPRESS bs).expand s = .next t ∧ t.encOut = s.encOut ++ chars ∧
      execAll (Pseudo.DECOMPRESS chars).expand t = .next u ∧ u.decOut = s.decOut ++ bs ∧
      s.NoErrorSince u ∧ u.result = 0#64 ∧ u.partialBit = false

/-! ### Control and inspection (`spec/44_control.md`) -/

/-- `NOP` changes nothing, in every state (R200).
The words of its form spell it, and every other word with its opcode is illegal. -/
def Obligations.NopChangesNothing : Prop :=
  SpelledZ 0x00#8 .nop ∧
  ∀ s : State, exec .nop s = .next s

/-- `ERRCLR` clears the error registers, returns the walker to the root and changes nothing else, in every state (R202).
The words of its form spell it, and every other word with its opcode is illegal. -/
def Obligations.ErrclrReturnsFromAnError : Prop :=
  SpelledZ 0x02#8 .errclr ∧
  ∀ s : State, exec .errclr s =
    .next { s with err := false, errcode := 0#4, errinfo := 0#32, cur := s.root, depth := 0#8 }

/-- `QROOT` writes `ROOT`, `NODE_COUNT` and `TREE_VALID` at their places in `RESULT`, every other bit 0, and changes nothing
else (R203).
The words of its form spell it, and every other word with its opcode is illegal. -/
def Obligations.QrootReportsTheTreeRegisters : Prop :=
  SpelledZ 0x50#8 .qroot ∧
  ∀ s : State, ∃ v : BitVec 64, exec .qroot s = .next { s with result := v } ∧
    v.toNat = s.root.toNat + s.nodeCount.toNat * 2 ^ 16 + (if s.root = NIL then 0 else 2 ^ 32) ∧
    (s.TreeRegsOk → s.root = NIL → v = 0x00000000000001FF#64)

/-- `QNODE n, sel` writes the selected field of node `n` to `RESULT` and changes nothing else; for an index that is not below
`NODE_COUNT` it raises `QUERY_RANGE` with `ERRINFO = n`, or changes nothing while an error is recorded (R204).
The words of its form spell it, and every other word with its opcode is illegal. -/
def Obligations.QnodeReportsOneField : Prop :=
  SpelledN 0x51#8 .qnode ∧
  ∀ (s : State) (n : NodeIdx) (sel : NodeSel), s.nodeCount.toNat ≤ 511 →
    (s.nodeCount.toNat ≤ n.toNat →
      (s.err = false → exec (.qnode n sel) s = .next (s.withError 7#4 (n.setWidth 32))) ∧
      (s.err = true → exec (.qnode n sel) s = .next s)) ∧
    (n.toNat < s.nodeCount.toNat → ∃ nd, s.readNode n = some nd ∧
      ∃ v : BitVec 64, exec (.qnode n sel) s = .next { s with result := v } ∧
        v.toNat = match sel with
          | .weight => nd.weight.toNat
          | .symbol => nd.sym.toNat + nd.leaf.toNat * 2 ^ 16
          | .left => nd.left.toNat
          | .right => nd.right.toNat)

/-- `QERR` writes the error registers at their places in `RESULT`, every other bit 0, and changes nothing else (R205).
The words of its form spell it, and every other word with its opcode is illegal. -/
def Obligations.QerrReportsTheErrorRegisters : Prop :=
  SpelledZ 0x52#8 .qerr ∧
  ∀ s : State, ∃ v : BitVec 64, exec .qerr s = .next { s with result := v } ∧
    v.toNat = s.errinfo.toNat + s.errcode.toNat * 2 ^ 32 + s.err.toNat * 2 ^ 40

/-- `STATUS` after reset, its layout while `BUSY = 0`, and that while `BUSY = 1` bit 0 reads 1; nothing is said then of the other
fields (R24). The `result` port shows `RESULT` while `BUSY = 0` (R26, R261). -/
def Obligations.StatusShowsTheState : Prop :=
  (∀ read : Nat, State.reset.statusPort read = 0x00000100#32) ∧
  ∀ (s : State) (read : Nat),
    (s.busyNow = false → (s.statusPort read).toNat =
      (if s.root = NIL then 0 else 2) + s.err.toNat * 4 + s.degen.toNat * 8 + s.errcode.toNat * 16 +
        (if s.depth = 0#8 then 256 else 0) + s.partialBit.toNat * 512 + s.leaves.toNat * 2 ^ 16) ∧
    (s.busyNow = true → (s.statusPort read).getLsbD 0 = true) ∧
    (s.busyNow = false → s.resultPort read = s.result)

/-! ### Rules about the whole machine -/

/-- `RESULT` is written only by the eight commands that return a value, and by `CLR`, which writes 0; every other command
leaves it, and so does every command that raises; its reset value is 0 (R26). -/
def Obligations.ResultWrittenOnlyByReturningCommands : Prop :=
  State.reset.result = 0#64 ∧
  ∀ (i : Instr) (s t : State), exec i s = .next t →
    (i = .clr → t.result = 0#64) ∧
    (s.err = false → t.err = true → t.result = s.result) ∧
    ((match i with
      | .rfreq _ | .qtotal | .qlen _ | .qbit _ _ | .dend | .qroot | .qnode _ _ | .qerr | .clr => True
      | _ => t.result = s.result))

/-- Which command writes which memory: counts only `HIST`, `WFREQ`, `CLR`; the tree and the code table only `BUILD`, `CLR`;
the walker only `BUILD`, `DEC`, `DEND`, `CLR`, `ERRCLR`; `PARTIAL` only `DEND`, `CLR`; the parameter none (R61). -/
def Obligations.AccessMatrixOfWrites : Prop :=
  ∀ (i : Instr) (s t : State), exec i s = .next t →
    t.cfg = s.cfg ∧
    ((match i with | .hist _ | .wfreq _ _ | .clr => True | _ => t.freq = s.freq ∧ t.total = s.total)) ∧
    ((match i with
      | .build | .clr => True
      | _ => t.node = s.node ∧ t.nodeCount = s.nodeCount ∧ t.root = s.root ∧ t.leaves = s.leaves ∧ t.degen = s.degen ∧
          t.code = s.code)) ∧
    ((match i with | .build | .dec _ | .dend | .clr | .errclr => True | _ => t.cur = s.cur ∧ t.depth = s.depth)) ∧
    (match i with | .dend | .clr => True | _ => t.partialBit = s.partialBit)

/-- No command removes or rewrites what was emitted or logged; only `ENC` emits characters, and only `DEC` bytes, at most one
(R37). -/
def Obligations.OutputLogsAreAppendOnly : Prop :=
  ∀ (i : Instr) (s t : State), exec i s = .next t →
    s.encOut <+: t.encOut ∧ s.decOut <+: t.decOut ∧ s.errLog <+: t.errLog ∧
    ((match i with | .enc _ => True | _ => t.encOut = s.encOut)) ∧
    (match i with | .dec _ => t.decOut.length ≤ s.decOut.length + 1 | _ => t.decOut = s.decOut)

/-- Every command but `HIST`, `ENC`, `DEC` and `DEND`, repeated at once, leaves the state as the first left it. `CLR` and
`BUILD` draw unspecified contents anew and are not part of this statement (R65). -/
def Obligations.OtherCommandsMayBeRepeated : Prop :=
  ∀ (i : Instr) (s t : State), s.CountsOk →
    (match i with | .hist _ | .enc _ | .dec _ | .dend | .clr | .build => False | _ => True) →
    exec i s = .next t → exec i t = .next t

/-- Where neither raises, an `ENC` and a `DEC`, or an `ENC` and a `DEND`, may change places (R260). -/
def Obligations.EncodeAndDecodeInterleave : Prop :=
  ∀ (s : State) (a : Byte), s.err = false → (s.readCode a).valid = true →
    (∀ (b : Byte) (t : State), exec (.dec b) s = .next t → t.err = false →
      execAll [.enc a, .dec b] s = execAll [.dec b, .enc a] s) ∧
    execAll [.enc a, .dend] s = execAll [.dend, .enc a] s
end

