-- ==== Sys2Proof/Laws/State.lean ====
section
/-! SUPPORT. The fields of the state after each named update, one lemma per field per update, so that no proof unfolds a record
update; and the fields of the state after an error is taken. -/

namespace Sys2Proof.Machine

variable (s : State)

/-! ### `setResult` -/

@[simp] theorem State.setResult_cfg (v : BitVec 64) : (s.setResult v).cfg = s.cfg := rfl
@[simp] theorem State.setResult_cmdIn (v : BitVec 64) : (s.setResult v).cmdIn = s.cmdIn := rfl
@[simp] theorem State.setResult_rstIn (v : BitVec 64) : (s.setResult v).rstIn = s.rstIn := rfl
@[simp] theorem State.setResult_busy (v : BitVec 64) : (s.setResult v).busy = s.busy := rfl
@[simp] theorem State.setResult_result (v : BitVec 64) : (s.setResult v).result = v := rfl
@[simp] theorem State.setResult_err (v : BitVec 64) : (s.setResult v).err = s.err := rfl
@[simp] theorem State.setResult_errcode (v : BitVec 64) : (s.setResult v).errcode = s.errcode := rfl
@[simp] theorem State.setResult_errinfo (v : BitVec 64) : (s.setResult v).errinfo = s.errinfo := rfl
@[simp] theorem State.setResult_freq (v : BitVec 64) : (s.setResult v).freq = s.freq := rfl
@[simp] theorem State.setResult_total (v : BitVec 64) : (s.setResult v).total = s.total := rfl
@[simp] theorem State.setResult_node (v : BitVec 64) : (s.setResult v).node = s.node := rfl
@[simp] theorem State.setResult_nodeCount (v : BitVec 64) : (s.setResult v).nodeCount = s.nodeCount := rfl
@[simp] theorem State.setResult_root (v : BitVec 64) : (s.setResult v).root = s.root := rfl
@[simp] theorem State.setResult_leaves (v : BitVec 64) : (s.setResult v).leaves = s.leaves := rfl
@[simp] theorem State.setResult_degen (v : BitVec 64) : (s.setResult v).degen = s.degen := rfl
@[simp] theorem State.setResult_code (v : BitVec 64) : (s.setResult v).code = s.code := rfl
@[simp] theorem State.setResult_cur (v : BitVec 64) : (s.setResult v).cur = s.cur := rfl
@[simp] theorem State.setResult_depth (v : BitVec 64) : (s.setResult v).depth = s.depth := rfl
@[simp] theorem State.setResult_partialBit (v : BitVec 64) : (s.setResult v).partialBit = s.partialBit := rfl
@[simp] theorem State.setResult_pq (v : BitVec 64) : (s.setResult v).pq = s.pq := rfl
@[simp] theorem State.setResult_encOut (v : BitVec 64) : (s.setResult v).encOut = s.encOut := rfl
@[simp] theorem State.setResult_decOut (v : BitVec 64) : (s.setResult v).decOut = s.decOut := rfl
@[simp] theorem State.setResult_errLog (v : BitVec 64) : (s.setResult v).errLog = s.errLog := rfl
@[simp] theorem State.setResult_draws (v : BitVec 64) : (s.setResult v).draws = s.draws := rfl

/-! ### `walkerToRoot` -/

@[simp] theorem State.walkerToRoot_cfg : s.walkerToRoot.cfg = s.cfg := rfl
@[simp] theorem State.walkerToRoot_cmdIn : s.walkerToRoot.cmdIn = s.cmdIn := rfl
@[simp] theorem State.walkerToRoot_rstIn : s.walkerToRoot.rstIn = s.rstIn := rfl
@[simp] theorem State.walkerToRoot_busy : s.walkerToRoot.busy = s.busy := rfl
@[simp] theorem State.walkerToRoot_result : s.walkerToRoot.result = s.result := rfl
@[simp] theorem State.walkerToRoot_err : s.walkerToRoot.err = s.err := rfl
@[simp] theorem State.walkerToRoot_errcode : s.walkerToRoot.errcode = s.errcode := rfl
@[simp] theorem State.walkerToRoot_errinfo : s.walkerToRoot.errinfo = s.errinfo := rfl
@[simp] theorem State.walkerToRoot_freq : s.walkerToRoot.freq = s.freq := rfl
@[simp] theorem State.walkerToRoot_total : s.walkerToRoot.total = s.total := rfl
@[simp] theorem State.walkerToRoot_node : s.walkerToRoot.node = s.node := rfl
@[simp] theorem State.walkerToRoot_nodeCount : s.walkerToRoot.nodeCount = s.nodeCount := rfl
@[simp] theorem State.walkerToRoot_root : s.walkerToRoot.root = s.root := rfl
@[simp] theorem State.walkerToRoot_leaves : s.walkerToRoot.leaves = s.leaves := rfl
@[simp] theorem State.walkerToRoot_degen : s.walkerToRoot.degen = s.degen := rfl
@[simp] theorem State.walkerToRoot_code : s.walkerToRoot.code = s.code := rfl
@[simp] theorem State.walkerToRoot_cur : s.walkerToRoot.cur = s.root := rfl
@[simp] theorem State.walkerToRoot_depth : s.walkerToRoot.depth = 0 := rfl
@[simp] theorem State.walkerToRoot_partialBit : s.walkerToRoot.partialBit = s.partialBit := rfl
@[simp] theorem State.walkerToRoot_pq : s.walkerToRoot.pq = s.pq := rfl
@[simp] theorem State.walkerToRoot_encOut : s.walkerToRoot.encOut = s.encOut := rfl
@[simp] theorem State.walkerToRoot_decOut : s.walkerToRoot.decOut = s.decOut := rfl
@[simp] theorem State.walkerToRoot_errLog : s.walkerToRoot.errLog = s.errLog := rfl
@[simp] theorem State.walkerToRoot_draws : s.walkerToRoot.draws = s.draws := rfl

/-! ### `walkerTo` -/

@[simp] theorem State.walkerTo_cfg (n : NodeIdx) : (s.walkerTo n).cfg = s.cfg := rfl
@[simp] theorem State.walkerTo_cmdIn (n : NodeIdx) : (s.walkerTo n).cmdIn = s.cmdIn := rfl
@[simp] theorem State.walkerTo_rstIn (n : NodeIdx) : (s.walkerTo n).rstIn = s.rstIn := rfl
@[simp] theorem State.walkerTo_busy (n : NodeIdx) : (s.walkerTo n).busy = s.busy := rfl
@[simp] theorem State.walkerTo_result (n : NodeIdx) : (s.walkerTo n).result = s.result := rfl
@[simp] theorem State.walkerTo_err (n : NodeIdx) : (s.walkerTo n).err = s.err := rfl
@[simp] theorem State.walkerTo_errcode (n : NodeIdx) : (s.walkerTo n).errcode = s.errcode := rfl
@[simp] theorem State.walkerTo_errinfo (n : NodeIdx) : (s.walkerTo n).errinfo = s.errinfo := rfl
@[simp] theorem State.walkerTo_freq (n : NodeIdx) : (s.walkerTo n).freq = s.freq := rfl
@[simp] theorem State.walkerTo_total (n : NodeIdx) : (s.walkerTo n).total = s.total := rfl
@[simp] theorem State.walkerTo_node (n : NodeIdx) : (s.walkerTo n).node = s.node := rfl
@[simp] theorem State.walkerTo_nodeCount (n : NodeIdx) : (s.walkerTo n).nodeCount = s.nodeCount := rfl
@[simp] theorem State.walkerTo_root (n : NodeIdx) : (s.walkerTo n).root = s.root := rfl
@[simp] theorem State.walkerTo_leaves (n : NodeIdx) : (s.walkerTo n).leaves = s.leaves := rfl
@[simp] theorem State.walkerTo_degen (n : NodeIdx) : (s.walkerTo n).degen = s.degen := rfl
@[simp] theorem State.walkerTo_code (n : NodeIdx) : (s.walkerTo n).code = s.code := rfl
@[simp] theorem State.walkerTo_cur (n : NodeIdx) : (s.walkerTo n).cur = n := rfl
@[simp] theorem State.walkerTo_depth (n : NodeIdx) : (s.walkerTo n).depth = s.depth + 1 := rfl
@[simp] theorem State.walkerTo_partialBit (n : NodeIdx) : (s.walkerTo n).partialBit = s.partialBit := rfl
@[simp] theorem State.walkerTo_pq (n : NodeIdx) : (s.walkerTo n).pq = s.pq := rfl
@[simp] theorem State.walkerTo_encOut (n : NodeIdx) : (s.walkerTo n).encOut = s.encOut := rfl
@[simp] theorem State.walkerTo_decOut (n : NodeIdx) : (s.walkerTo n).decOut = s.decOut := rfl
@[simp] theorem State.walkerTo_errLog (n : NodeIdx) : (s.walkerTo n).errLog = s.errLog := rfl
@[simp] theorem State.walkerTo_draws (n : NodeIdx) : (s.walkerTo n).draws = s.draws := rfl

/-! ### `setPartial` -/

@[simp] theorem State.setPartial_cfg (v : Bool) : (s.setPartial v).cfg = s.cfg := rfl
@[simp] theorem State.setPartial_cmdIn (v : Bool) : (s.setPartial v).cmdIn = s.cmdIn := rfl
@[simp] theorem State.setPartial_rstIn (v : Bool) : (s.setPartial v).rstIn = s.rstIn := rfl
@[simp] theorem State.setPartial_busy (v : Bool) : (s.setPartial v).busy = s.busy := rfl
@[simp] theorem State.setPartial_result (v : Bool) : (s.setPartial v).result = s.result := rfl
@[simp] theorem State.setPartial_err (v : Bool) : (s.setPartial v).err = s.err := rfl
@[simp] theorem State.setPartial_errcode (v : Bool) : (s.setPartial v).errcode = s.errcode := rfl
@[simp] theorem State.setPartial_errinfo (v : Bool) : (s.setPartial v).errinfo = s.errinfo := rfl
@[simp] theorem State.setPartial_freq (v : Bool) : (s.setPartial v).freq = s.freq := rfl
@[simp] theorem State.setPartial_total (v : Bool) : (s.setPartial v).total = s.total := rfl
@[simp] theorem State.setPartial_node (v : Bool) : (s.setPartial v).node = s.node := rfl
@[simp] theorem State.setPartial_nodeCount (v : Bool) : (s.setPartial v).nodeCount = s.nodeCount := rfl
@[simp] theorem State.setPartial_root (v : Bool) : (s.setPartial v).root = s.root := rfl
@[simp] theorem State.setPartial_leaves (v : Bool) : (s.setPartial v).leaves = s.leaves := rfl
@[simp] theorem State.setPartial_degen (v : Bool) : (s.setPartial v).degen = s.degen := rfl
@[simp] theorem State.setPartial_code (v : Bool) : (s.setPartial v).code = s.code := rfl
@[simp] theorem State.setPartial_cur (v : Bool) : (s.setPartial v).cur = s.cur := rfl
@[simp] theorem State.setPartial_depth (v : Bool) : (s.setPartial v).depth = s.depth := rfl
@[simp] theorem State.setPartial_partialBit (v : Bool) : (s.setPartial v).partialBit = v := rfl
@[simp] theorem State.setPartial_pq (v : Bool) : (s.setPartial v).pq = s.pq := rfl
@[simp] theorem State.setPartial_encOut (v : Bool) : (s.setPartial v).encOut = s.encOut := rfl
@[simp] theorem State.setPartial_decOut (v : Bool) : (s.setPartial v).decOut = s.decOut := rfl
@[simp] theorem State.setPartial_errLog (v : Bool) : (s.setPartial v).errLog = s.errLog := rfl
@[simp] theorem State.setPartial_draws (v : Bool) : (s.setPartial v).draws = s.draws := rfl

/-! ### `setCount` -/

@[simp] theorem State.setCount_cfg (b : Byte) (v t : Nat) : (s.setCount b v t).cfg = s.cfg := rfl
@[simp] theorem State.setCount_cmdIn (b : Byte) (v t : Nat) : (s.setCount b v t).cmdIn = s.cmdIn := rfl
@[simp] theorem State.setCount_rstIn (b : Byte) (v t : Nat) : (s.setCount b v t).rstIn = s.rstIn := rfl
@[simp] theorem State.setCount_busy (b : Byte) (v t : Nat) : (s.setCount b v t).busy = s.busy := rfl
@[simp] theorem State.setCount_result (b : Byte) (v t : Nat) : (s.setCount b v t).result = s.result := rfl
@[simp] theorem State.setCount_err (b : Byte) (v t : Nat) : (s.setCount b v t).err = s.err := rfl
@[simp] theorem State.setCount_errcode (b : Byte) (v t : Nat) : (s.setCount b v t).errcode = s.errcode := rfl
@[simp] theorem State.setCount_errinfo (b : Byte) (v t : Nat) : (s.setCount b v t).errinfo = s.errinfo := rfl
@[simp] theorem State.setCount_freq (b : Byte) (v t : Nat) : (s.setCount b v t).freq = s.freq.set b.toNat (truncCount s.cfg v) b.isLt := rfl
@[simp] theorem State.setCount_total (b : Byte) (v t : Nat) : (s.setCount b v t).total = truncCount s.cfg t := rfl
@[simp] theorem State.setCount_node (b : Byte) (v t : Nat) : (s.setCount b v t).node = s.node := rfl
@[simp] theorem State.setCount_nodeCount (b : Byte) (v t : Nat) : (s.setCount b v t).nodeCount = s.nodeCount := rfl
@[simp] theorem State.setCount_root (b : Byte) (v t : Nat) : (s.setCount b v t).root = s.root := rfl
@[simp] theorem State.setCount_leaves (b : Byte) (v t : Nat) : (s.setCount b v t).leaves = s.leaves := rfl
@[simp] theorem State.setCount_degen (b : Byte) (v t : Nat) : (s.setCount b v t).degen = s.degen := rfl
@[simp] theorem State.setCount_code (b : Byte) (v t : Nat) : (s.setCount b v t).code = s.code := rfl
@[simp] theorem State.setCount_cur (b : Byte) (v t : Nat) : (s.setCount b v t).cur = s.cur := rfl
@[simp] theorem State.setCount_depth (b : Byte) (v t : Nat) : (s.setCount b v t).depth = s.depth := rfl
@[simp] theorem State.setCount_partialBit (b : Byte) (v t : Nat) : (s.setCount b v t).partialBit = s.partialBit := rfl
@[simp] theorem State.setCount_pq (b : Byte) (v t : Nat) : (s.setCount b v t).pq = s.pq := rfl
@[simp] theorem State.setCount_encOut (b : Byte) (v t : Nat) : (s.setCount b v t).encOut = s.encOut := rfl
@[simp] theorem State.setCount_decOut (b : Byte) (v t : Nat) : (s.setCount b v t).decOut = s.decOut := rfl
@[simp] theorem State.setCount_errLog (b : Byte) (v t : Nat) : (s.setCount b v t).errLog = s.errLog := rfl
@[simp] theorem State.setCount_draws (b : Byte) (v t : Nat) : (s.setCount b v t).draws = s.draws := rfl

/-! ### `emitEnc` -/

@[simp] theorem State.emitEnc_cfg (cs : List Byte) : (s.emitEnc cs).cfg = s.cfg := rfl
@[simp] theorem State.emitEnc_cmdIn (cs : List Byte) : (s.emitEnc cs).cmdIn = s.cmdIn := rfl
@[simp] theorem State.emitEnc_rstIn (cs : List Byte) : (s.emitEnc cs).rstIn = s.rstIn := rfl
@[simp] theorem State.emitEnc_busy (cs : List Byte) : (s.emitEnc cs).busy = s.busy := rfl
@[simp] theorem State.emitEnc_result (cs : List Byte) : (s.emitEnc cs).result = s.result := rfl
@[simp] theorem State.emitEnc_err (cs : List Byte) : (s.emitEnc cs).err = s.err := rfl
@[simp] theorem State.emitEnc_errcode (cs : List Byte) : (s.emitEnc cs).errcode = s.errcode := rfl
@[simp] theorem State.emitEnc_errinfo (cs : List Byte) : (s.emitEnc cs).errinfo = s.errinfo := rfl
@[simp] theorem State.emitEnc_freq (cs : List Byte) : (s.emitEnc cs).freq = s.freq := rfl
@[simp] theorem State.emitEnc_total (cs : List Byte) : (s.emitEnc cs).total = s.total := rfl
@[simp] theorem State.emitEnc_node (cs : List Byte) : (s.emitEnc cs).node = s.node := rfl
@[simp] theorem State.emitEnc_nodeCount (cs : List Byte) : (s.emitEnc cs).nodeCount = s.nodeCount := rfl
@[simp] theorem State.emitEnc_root (cs : List Byte) : (s.emitEnc cs).root = s.root := rfl
@[simp] theorem State.emitEnc_leaves (cs : List Byte) : (s.emitEnc cs).leaves = s.leaves := rfl
@[simp] theorem State.emitEnc_degen (cs : List Byte) : (s.emitEnc cs).degen = s.degen := rfl
@[simp] theorem State.emitEnc_code (cs : List Byte) : (s.emitEnc cs).code = s.code := rfl
@[simp] theorem State.emitEnc_cur (cs : List Byte) : (s.emitEnc cs).cur = s.cur := rfl
@[simp] theorem State.emitEnc_depth (cs : List Byte) : (s.emitEnc cs).depth = s.depth := rfl
@[simp] theorem State.emitEnc_partialBit (cs : List Byte) : (s.emitEnc cs).partialBit = s.partialBit := rfl
@[simp] theorem State.emitEnc_pq (cs : List Byte) : (s.emitEnc cs).pq = s.pq := rfl
@[simp] theorem State.emitEnc_encOut (cs : List Byte) : (s.emitEnc cs).encOut = s.encOut ++ cs := rfl
@[simp] theorem State.emitEnc_decOut (cs : List Byte) : (s.emitEnc cs).decOut = s.decOut := rfl
@[simp] theorem State.emitEnc_errLog (cs : List Byte) : (s.emitEnc cs).errLog = s.errLog := rfl
@[simp] theorem State.emitEnc_draws (cs : List Byte) : (s.emitEnc cs).draws = s.draws := rfl

/-! ### `emitDec` -/

@[simp] theorem State.emitDec_cfg (b : Byte) : (s.emitDec b).cfg = s.cfg := rfl
@[simp] theorem State.emitDec_cmdIn (b : Byte) : (s.emitDec b).cmdIn = s.cmdIn := rfl
@[simp] theorem State.emitDec_rstIn (b : Byte) : (s.emitDec b).rstIn = s.rstIn := rfl
@[simp] theorem State.emitDec_busy (b : Byte) : (s.emitDec b).busy = s.busy := rfl
@[simp] theorem State.emitDec_result (b : Byte) : (s.emitDec b).result = s.result := rfl
@[simp] theorem State.emitDec_err (b : Byte) : (s.emitDec b).err = s.err := rfl
@[simp] theorem State.emitDec_errcode (b : Byte) : (s.emitDec b).errcode = s.errcode := rfl
@[simp] theorem State.emitDec_errinfo (b : Byte) : (s.emitDec b).errinfo = s.errinfo := rfl
@[simp] theorem State.emitDec_freq (b : Byte) : (s.emitDec b).freq = s.freq := rfl
@[simp] theorem State.emitDec_total (b : Byte) : (s.emitDec b).total = s.total := rfl
@[simp] theorem State.emitDec_node (b : Byte) : (s.emitDec b).node = s.node := rfl
@[simp] theorem State.emitDec_nodeCount (b : Byte) : (s.emitDec b).nodeCount = s.nodeCount := rfl
@[simp] theorem State.emitDec_root (b : Byte) : (s.emitDec b).root = s.root := rfl
@[simp] theorem State.emitDec_leaves (b : Byte) : (s.emitDec b).leaves = s.leaves := rfl
@[simp] theorem State.emitDec_degen (b : Byte) : (s.emitDec b).degen = s.degen := rfl
@[simp] theorem State.emitDec_code (b : Byte) : (s.emitDec b).code = s.code := rfl
@[simp] theorem State.emitDec_cur (b : Byte) : (s.emitDec b).cur = s.cur := rfl
@[simp] theorem State.emitDec_depth (b : Byte) : (s.emitDec b).depth = s.depth := rfl
@[simp] theorem State.emitDec_partialBit (b : Byte) : (s.emitDec b).partialBit = s.partialBit := rfl
@[simp] theorem State.emitDec_pq (b : Byte) : (s.emitDec b).pq = s.pq := rfl
@[simp] theorem State.emitDec_encOut (b : Byte) : (s.emitDec b).encOut = s.encOut := rfl
@[simp] theorem State.emitDec_decOut (b : Byte) : (s.emitDec b).decOut = s.decOut ++ [b] := rfl
@[simp] theorem State.emitDec_errLog (b : Byte) : (s.emitDec b).errLog = s.errLog := rfl
@[simp] theorem State.emitDec_draws (b : Byte) : (s.emitDec b).draws = s.draws := rfl

/-! ### `clearError` -/

@[simp] theorem State.clearError_cfg : s.clearError.cfg = s.cfg := rfl
@[simp] theorem State.clearError_cmdIn : s.clearError.cmdIn = s.cmdIn := rfl
@[simp] theorem State.clearError_rstIn : s.clearError.rstIn = s.rstIn := rfl
@[simp] theorem State.clearError_busy : s.clearError.busy = s.busy := rfl
@[simp] theorem State.clearError_result : s.clearError.result = s.result := rfl
@[simp] theorem State.clearError_err : s.clearError.err = false := rfl
@[simp] theorem State.clearError_errcode : s.clearError.errcode = 0 := rfl
@[simp] theorem State.clearError_errinfo : s.clearError.errinfo = 0 := rfl
@[simp] theorem State.clearError_freq : s.clearError.freq = s.freq := rfl
@[simp] theorem State.clearError_total : s.clearError.total = s.total := rfl
@[simp] theorem State.clearError_node : s.clearError.node = s.node := rfl
@[simp] theorem State.clearError_nodeCount : s.clearError.nodeCount = s.nodeCount := rfl
@[simp] theorem State.clearError_root : s.clearError.root = s.root := rfl
@[simp] theorem State.clearError_leaves : s.clearError.leaves = s.leaves := rfl
@[simp] theorem State.clearError_degen : s.clearError.degen = s.degen := rfl
@[simp] theorem State.clearError_code : s.clearError.code = s.code := rfl
@[simp] theorem State.clearError_cur : s.clearError.cur = s.cur := rfl
@[simp] theorem State.clearError_depth : s.clearError.depth = s.depth := rfl
@[simp] theorem State.clearError_partialBit : s.clearError.partialBit = s.partialBit := rfl
@[simp] theorem State.clearError_pq : s.clearError.pq = s.pq := rfl
@[simp] theorem State.clearError_encOut : s.clearError.encOut = s.encOut := rfl
@[simp] theorem State.clearError_decOut : s.clearError.decOut = s.decOut := rfl
@[simp] theorem State.clearError_errLog : s.clearError.errLog = s.errLog := rfl
@[simp] theorem State.clearError_draws : s.clearError.draws = s.draws := rfl

/-! ### `clearLogs` -/

@[simp] theorem State.clearLogs_cfg : s.clearLogs.cfg = s.cfg := rfl
@[simp] theorem State.clearLogs_cmdIn : s.clearLogs.cmdIn = s.cmdIn := rfl
@[simp] theorem State.clearLogs_rstIn : s.clearLogs.rstIn = s.rstIn := rfl
@[simp] theorem State.clearLogs_busy : s.clearLogs.busy = s.busy := rfl
@[simp] theorem State.clearLogs_result : s.clearLogs.result = s.result := rfl
@[simp] theorem State.clearLogs_err : s.clearLogs.err = s.err := rfl
@[simp] theorem State.clearLogs_errcode : s.clearLogs.errcode = s.errcode := rfl
@[simp] theorem State.clearLogs_errinfo : s.clearLogs.errinfo = s.errinfo := rfl
@[simp] theorem State.clearLogs_freq : s.clearLogs.freq = s.freq := rfl
@[simp] theorem State.clearLogs_total : s.clearLogs.total = s.total := rfl
@[simp] theorem State.clearLogs_node : s.clearLogs.node = s.node := rfl
@[simp] theorem State.clearLogs_nodeCount : s.clearLogs.nodeCount = s.nodeCount := rfl
@[simp] theorem State.clearLogs_root : s.clearLogs.root = s.root := rfl
@[simp] theorem State.clearLogs_leaves : s.clearLogs.leaves = s.leaves := rfl
@[simp] theorem State.clearLogs_degen : s.clearLogs.degen = s.degen := rfl
@[simp] theorem State.clearLogs_code : s.clearLogs.code = s.code := rfl
@[simp] theorem State.clearLogs_cur : s.clearLogs.cur = s.cur := rfl
@[simp] theorem State.clearLogs_depth : s.clearLogs.depth = s.depth := rfl
@[simp] theorem State.clearLogs_partialBit : s.clearLogs.partialBit = s.partialBit := rfl
@[simp] theorem State.clearLogs_pq : s.clearLogs.pq = s.pq := rfl
@[simp] theorem State.clearLogs_encOut : s.clearLogs.encOut = [] := rfl
@[simp] theorem State.clearLogs_decOut : s.clearLogs.decOut = [] := rfl
@[simp] theorem State.clearLogs_errLog : s.clearLogs.errLog = [] := rfl
@[simp] theorem State.clearLogs_draws : s.clearLogs.draws = s.draws := rfl

/-! ### `clearAll` -/

@[simp] theorem State.clearAll_cfg : s.clearAll.cfg = s.cfg := rfl
@[simp] theorem State.clearAll_cmdIn : s.clearAll.cmdIn = s.cmdIn := rfl
@[simp] theorem State.clearAll_rstIn : s.clearAll.rstIn = s.rstIn := rfl
@[simp] theorem State.clearAll_busy : s.clearAll.busy = false := rfl
@[simp] theorem State.clearAll_result : s.clearAll.result = 0 := rfl
@[simp] theorem State.clearAll_err : s.clearAll.err = false := rfl
@[simp] theorem State.clearAll_errcode : s.clearAll.errcode = 0 := rfl
@[simp] theorem State.clearAll_errinfo : s.clearAll.errinfo = 0 := rfl
@[simp] theorem State.clearAll_freq : s.clearAll.freq = Vector.replicate ALPHABET 0 := rfl
@[simp] theorem State.clearAll_total : s.clearAll.total = 0 := rfl
@[simp] theorem State.clearAll_node : s.clearAll.node = tabulate NODE_MAX (freeNode s.cfg s.draws) := rfl
@[simp] theorem State.clearAll_nodeCount : s.clearAll.nodeCount = 0 := rfl
@[simp] theorem State.clearAll_root : s.clearAll.root = NIL := rfl
@[simp] theorem State.clearAll_leaves : s.clearAll.leaves = 0 := rfl
@[simp] theorem State.clearAll_degen : s.clearAll.degen = false := rfl
@[simp] theorem State.clearAll_code : s.clearAll.code = tabulate ALPHABET (noCode s.draws) := rfl
@[simp] theorem State.clearAll_cur : s.clearAll.cur = NIL := rfl
@[simp] theorem State.clearAll_depth : s.clearAll.depth = 0 := rfl
@[simp] theorem State.clearAll_partialBit : s.clearAll.partialBit = false := rfl
@[simp] theorem State.clearAll_pq : s.clearAll.pq = [] := rfl
@[simp] theorem State.clearAll_encOut : s.clearAll.encOut = s.encOut := rfl
@[simp] theorem State.clearAll_decOut : s.clearAll.decOut = s.decOut := rfl
@[simp] theorem State.clearAll_errLog : s.clearAll.errLog = s.errLog := rfl
@[simp] theorem State.clearAll_draws : s.clearAll.draws = s.draws + 1 := rfl

/-! ### `tickRst` -/

@[simp] theorem State.tickRst_cfg : s.tickRst.cfg = s.cfg := rfl
@[simp] theorem State.tickRst_cmdIn : s.tickRst.cmdIn = s.cmdIn := rfl
@[simp] theorem State.tickRst_rstIn : s.tickRst.rstIn = s.rstIn.tail := rfl
@[simp] theorem State.tickRst_busy : s.tickRst.busy = s.busy := rfl
@[simp] theorem State.tickRst_result : s.tickRst.result = s.result := rfl
@[simp] theorem State.tickRst_err : s.tickRst.err = s.err := rfl
@[simp] theorem State.tickRst_errcode : s.tickRst.errcode = s.errcode := rfl
@[simp] theorem State.tickRst_errinfo : s.tickRst.errinfo = s.errinfo := rfl
@[simp] theorem State.tickRst_freq : s.tickRst.freq = s.freq := rfl
@[simp] theorem State.tickRst_total : s.tickRst.total = s.total := rfl
@[simp] theorem State.tickRst_node : s.tickRst.node = s.node := rfl
@[simp] theorem State.tickRst_nodeCount : s.tickRst.nodeCount = s.nodeCount := rfl
@[simp] theorem State.tickRst_root : s.tickRst.root = s.root := rfl
@[simp] theorem State.tickRst_leaves : s.tickRst.leaves = s.leaves := rfl
@[simp] theorem State.tickRst_degen : s.tickRst.degen = s.degen := rfl
@[simp] theorem State.tickRst_code : s.tickRst.code = s.code := rfl
@[simp] theorem State.tickRst_cur : s.tickRst.cur = s.cur := rfl
@[simp] theorem State.tickRst_depth : s.tickRst.depth = s.depth := rfl
@[simp] theorem State.tickRst_partialBit : s.tickRst.partialBit = s.partialBit := rfl
@[simp] theorem State.tickRst_pq : s.tickRst.pq = s.pq := rfl
@[simp] theorem State.tickRst_encOut : s.tickRst.encOut = s.encOut := rfl
@[simp] theorem State.tickRst_decOut : s.tickRst.decOut = s.decOut := rfl
@[simp] theorem State.tickRst_errLog : s.tickRst.errLog = s.errLog := rfl
@[simp] theorem State.tickRst_draws : s.tickRst.draws = s.draws := rfl

/-! ### `holdReset` -/

@[simp] theorem State.holdReset_cfg : s.holdReset.cfg = s.cfg := rfl
@[simp] theorem State.holdReset_cmdIn : s.holdReset.cmdIn = s.cmdIn := rfl
@[simp] theorem State.holdReset_rstIn : s.holdReset.rstIn = s.rstIn.tail := rfl
@[simp] theorem State.holdReset_busy : s.holdReset.busy = true := rfl
@[simp] theorem State.holdReset_result : s.holdReset.result = s.result := rfl
@[simp] theorem State.holdReset_err : s.holdReset.err = s.err := rfl
@[simp] theorem State.holdReset_errcode : s.holdReset.errcode = s.errcode := rfl
@[simp] theorem State.holdReset_errinfo : s.holdReset.errinfo = s.errinfo := rfl
@[simp] theorem State.holdReset_freq : s.holdReset.freq = s.freq := rfl
@[simp] theorem State.holdReset_total : s.holdReset.total = s.total := rfl
@[simp] theorem State.holdReset_node : s.holdReset.node = s.node := rfl
@[simp] theorem State.holdReset_nodeCount : s.holdReset.nodeCount = s.nodeCount := rfl
@[simp] theorem State.holdReset_root : s.holdReset.root = s.root := rfl
@[simp] theorem State.holdReset_leaves : s.holdReset.leaves = s.leaves := rfl
@[simp] theorem State.holdReset_degen : s.holdReset.degen = s.degen := rfl
@[simp] theorem State.holdReset_code : s.holdReset.code = s.code := rfl
@[simp] theorem State.holdReset_cur : s.holdReset.cur = s.cur := rfl
@[simp] theorem State.holdReset_depth : s.holdReset.depth = s.depth := rfl
@[simp] theorem State.holdReset_partialBit : s.holdReset.partialBit = s.partialBit := rfl
@[simp] theorem State.holdReset_pq : s.holdReset.pq = s.pq := rfl
@[simp] theorem State.holdReset_encOut : s.holdReset.encOut = s.encOut := rfl
@[simp] theorem State.holdReset_decOut : s.holdReset.decOut = s.decOut := rfl
@[simp] theorem State.holdReset_errLog : s.holdReset.errLog = s.errLog := rfl
@[simp] theorem State.holdReset_draws : s.holdReset.draws = s.draws := rfl

/-! ### `abandon` -/

@[simp] theorem State.abandon_cfg (t : State) : (s.abandon t).cfg = s.cfg := rfl
@[simp] theorem State.abandon_cmdIn (t : State) : (s.abandon t).cmdIn = s.cmdIn := rfl
@[simp] theorem State.abandon_rstIn (t : State) : (s.abandon t).rstIn = s.rstIn := rfl
@[simp] theorem State.abandon_busy (t : State) : (s.abandon t).busy = true := rfl
@[simp] theorem State.abandon_result (t : State) : (s.abandon t).result = s.result := rfl
@[simp] theorem State.abandon_err (t : State) : (s.abandon t).err = s.err := rfl
@[simp] theorem State.abandon_errcode (t : State) : (s.abandon t).errcode = s.errcode := rfl
@[simp] theorem State.abandon_errinfo (t : State) : (s.abandon t).errinfo = s.errinfo := rfl
@[simp] theorem State.abandon_freq (t : State) : (s.abandon t).freq = s.freq := rfl
@[simp] theorem State.abandon_total (t : State) : (s.abandon t).total = s.total := rfl
@[simp] theorem State.abandon_node (t : State) : (s.abandon t).node = s.node := rfl
@[simp] theorem State.abandon_nodeCount (t : State) : (s.abandon t).nodeCount = s.nodeCount := rfl
@[simp] theorem State.abandon_root (t : State) : (s.abandon t).root = s.root := rfl
@[simp] theorem State.abandon_leaves (t : State) : (s.abandon t).leaves = s.leaves := rfl
@[simp] theorem State.abandon_degen (t : State) : (s.abandon t).degen = s.degen := rfl
@[simp] theorem State.abandon_code (t : State) : (s.abandon t).code = s.code := rfl
@[simp] theorem State.abandon_cur (t : State) : (s.abandon t).cur = s.cur := rfl
@[simp] theorem State.abandon_depth (t : State) : (s.abandon t).depth = s.depth := rfl
@[simp] theorem State.abandon_partialBit (t : State) : (s.abandon t).partialBit = s.partialBit := rfl
@[simp] theorem State.abandon_pq (t : State) : (s.abandon t).pq = s.pq := rfl
@[simp] theorem State.abandon_encOut (t : State) : (s.abandon t).encOut = s.encOut ++ (t.encOut.drop s.encOut.length).take (Config.freePrefix s.draws) := rfl
@[simp] theorem State.abandon_decOut (t : State) : (s.abandon t).decOut = s.decOut ++ (t.decOut.drop s.decOut.length).take (Config.freePrefix s.draws) := rfl
@[simp] theorem State.abandon_errLog (t : State) : (s.abandon t).errLog = s.errLog := rfl
@[simp] theorem State.abandon_draws (t : State) : (s.abandon t).draws = s.draws + 1 := rfl

/-! ### `installTree` -/

@[simp] theorem State.installTree_cfg (t : Tree) : (s.installTree t).cfg = s.cfg := by simp only [State.installTree]
@[simp] theorem State.installTree_cmdIn (t : Tree) : (s.installTree t).cmdIn = s.cmdIn := by simp only [State.installTree]
@[simp] theorem State.installTree_rstIn (t : Tree) : (s.installTree t).rstIn = s.rstIn := by simp only [State.installTree]
@[simp] theorem State.installTree_busy (t : Tree) : (s.installTree t).busy = s.busy := by simp only [State.installTree]
@[simp] theorem State.installTree_result (t : Tree) : (s.installTree t).result = s.result := by simp only [State.installTree]
@[simp] theorem State.installTree_err (t : Tree) : (s.installTree t).err = s.err := by simp only [State.installTree]
@[simp] theorem State.installTree_errcode (t : Tree) : (s.installTree t).errcode = s.errcode := by simp only [State.installTree]
@[simp] theorem State.installTree_errinfo (t : Tree) : (s.installTree t).errinfo = s.errinfo := by simp only [State.installTree]
@[simp] theorem State.installTree_freq (t : Tree) : (s.installTree t).freq = s.freq := by simp only [State.installTree]
@[simp] theorem State.installTree_total (t : Tree) : (s.installTree t).total = s.total := by simp only [State.installTree]
@[simp] theorem State.installTree_node (t : Tree) : (s.installTree t).node = tabulate NODE_MAX fun i => t.nodes.getD i (freeNode s.cfg s.draws i) := by simp only [State.installTree]
@[simp] theorem State.installTree_nodeCount (t : Tree) : (s.installTree t).nodeCount = BitVec.ofNat 10 t.nodes.length := by simp only [State.installTree]
@[simp] theorem State.installTree_root (t : Tree) : (s.installTree t).root = t.root := by simp only [State.installTree]
@[simp] theorem State.installTree_leaves (t : Tree) : (s.installTree t).leaves = t.leaves := by simp only [State.installTree]
@[simp] theorem State.installTree_degen (t : Tree) : (s.installTree t).degen = t.degen := by simp only [State.installTree]
@[simp] theorem State.installTree_code (t : Tree) : (s.installTree t).code = deriveCodes s.draws t := by simp only [State.installTree]
@[simp] theorem State.installTree_cur (t : Tree) : (s.installTree t).cur = t.root := by simp only [State.installTree]
@[simp] theorem State.installTree_depth (t : Tree) : (s.installTree t).depth = 0 := by simp only [State.installTree]
@[simp] theorem State.installTree_partialBit (t : Tree) : (s.installTree t).partialBit = s.partialBit := by simp only [State.installTree]
@[simp] theorem State.installTree_pq (t : Tree) : (s.installTree t).pq = t.pq := by simp only [State.installTree]
@[simp] theorem State.installTree_encOut (t : Tree) : (s.installTree t).encOut = s.encOut := by simp only [State.installTree]
@[simp] theorem State.installTree_decOut (t : Tree) : (s.installTree t).decOut = s.decOut := by simp only [State.installTree]
@[simp] theorem State.installTree_errLog (t : Tree) : (s.installTree t).errLog = s.errLog := by simp only [State.installTree]
@[simp] theorem State.installTree_draws (t : Tree) : (s.installTree t).draws = s.draws + 1 := by simp only [State.installTree]

/-! ### `raise` (R220) -/

theorem State.raise_of_err {s : State} (h : s.err = true) (e : ErrKind) (info : BitVec 32) : s.raise e info = s := by
  simp [State.raise, h]

theorem State.raise_of_noErr {s : State} (h : s.err = false) (e : ErrKind) (info : BitVec 32) :
    s.raise e info = { s with err := true, errcode := e.code, errinfo := info, errLog := s.errLog ++ [(e.code, info)] } := by
  simp [State.raise, h]

variable (e : ErrKind) (info : BitVec 32)

@[simp] theorem State.raise_err : (s.raise e info).err = true := by
  unfold State.raise; split <;> simp_all

@[simp] theorem State.raise_cfg : (s.raise e info).cfg = s.cfg := by unfold State.raise; split <;> rfl
@[simp] theorem State.raise_cmdIn : (s.raise e info).cmdIn = s.cmdIn := by unfold State.raise; split <;> rfl
@[simp] theorem State.raise_rstIn : (s.raise e info).rstIn = s.rstIn := by unfold State.raise; split <;> rfl
@[simp] theorem State.raise_busy : (s.raise e info).busy = s.busy := by unfold State.raise; split <;> rfl
@[simp] theorem State.raise_result : (s.raise e info).result = s.result := by unfold State.raise; split <;> rfl
@[simp] theorem State.raise_freq : (s.raise e info).freq = s.freq := by unfold State.raise; split <;> rfl
@[simp] theorem State.raise_total : (s.raise e info).total = s.total := by unfold State.raise; split <;> rfl
@[simp] theorem State.raise_node : (s.raise e info).node = s.node := by unfold State.raise; split <;> rfl
@[simp] theorem State.raise_nodeCount : (s.raise e info).nodeCount = s.nodeCount := by unfold State.raise; split <;> rfl
@[simp] theorem State.raise_root : (s.raise e info).root = s.root := by unfold State.raise; split <;> rfl
@[simp] theorem State.raise_leaves : (s.raise e info).leaves = s.leaves := by unfold State.raise; split <;> rfl
@[simp] theorem State.raise_degen : (s.raise e info).degen = s.degen := by unfold State.raise; split <;> rfl
@[simp] theorem State.raise_code : (s.raise e info).code = s.code := by unfold State.raise; split <;> rfl
@[simp] theorem State.raise_cur : (s.raise e info).cur = s.cur := by unfold State.raise; split <;> rfl
@[simp] theorem State.raise_depth : (s.raise e info).depth = s.depth := by unfold State.raise; split <;> rfl
@[simp] theorem State.raise_partialBit : (s.raise e info).partialBit = s.partialBit := by unfold State.raise; split <;> rfl
@[simp] theorem State.raise_pq : (s.raise e info).pq = s.pq := by unfold State.raise; split <;> rfl
@[simp] theorem State.raise_encOut : (s.raise e info).encOut = s.encOut := by unfold State.raise; split <;> rfl
@[simp] theorem State.raise_decOut : (s.raise e info).decOut = s.decOut := by unfold State.raise; split <;> rfl
@[simp] theorem State.raise_draws : (s.raise e info).draws = s.draws := by unfold State.raise; split <;> rfl

end Sys2Proof.Machine
end

