-- ==== Sys2Proof/Laws/Ops.lean ====
section
/-! SUPPORT. What each shared operation can do, said once: the accessors of `FREQ`, `NODE` and `CODE`, the register widths,
the blocking check, taking an error, and the guarded read of a node. -/

namespace Sys2Proof.Machine

/-! ### The parameter -/

theorem Config.W_le (c : Config) : c.W ≤ 32 := by unfold Config.W; omega

theorem Config.W_pos (c : Config) : 1 ≤ c.W := by unfold Config.W; omega

theorem Config.pow_W_le (c : Config) : 2 ^ c.W ≤ 2 ^ 32 := Nat.pow_le_pow_right (by omega) (Config.W_le c)

theorem Config.maxCount_lt (c : Config) : c.maxCount < 2 ^ c.W := by
  have := Nat.two_pow_pos c.W
  unfold Config.maxCount; omega

theorem Config.pow_NW (c : Config) : 2 ^ c.NW = 2 * 2 ^ c.W := by
  unfold Config.NW; rw [pow_succ]; omega

/-- A value that fits in `W` bits is kept whole by a `W`-bit register. -/
theorem truncCount_toNat {c : Config} {v : Nat} (h : v ≤ c.maxCount) : (truncCount c v).toNat = v := by
  have h1 := Config.maxCount_lt c
  have h2 := Config.pow_W_le c
  unfold truncCount
  rw [Nat.mod_eq_of_lt (by omega), BitVec.toNat_ofNat, Nat.mod_eq_of_lt (by omega)]

/-! ### Tables -/

@[simp] theorem tabulate_getElem {α : Type} (n : Nat) (f : Nat → α) (i : Nat) (h : i < n) : (tabulate n f)[i] = f i := by
  simp [tabulate]

@[simp] theorem tabulate_toList {α : Type} (n : Nat) (f : Nat → α) : (tabulate n f).toList = (List.range n).map f := rfl

/-- Writing a count and reading one back. -/
theorem State.readFreq_setCount (s : State) (b c : Byte) (v t : Nat) :
    (s.setCount b v t).readFreq c = if b = c then truncCount s.cfg v else s.readFreq c := by
  have : (b.toNat = c.toNat) ↔ b = c := by rw [BitVec.toNat_inj]
  simp [State.readFreq, Vector.getElem_set, this]

/-- The frequencies other than the written one, summed, do not change. -/
theorem sum_set_toNat (l : List Count) (k : Nat) (h : k < l.length) (v : Count) :
    ((l.set k v).map BitVec.toNat).sum + l[k].toNat = (l.map BitVec.toNat).sum + v.toNat := by
  induction l generalizing k with
  | nil => simp at h
  | cons a l ih =>
    cases k with
    | zero => simp; omega
    | succ k =>
      have := ih k (by simpa using h)
      simp only [List.set_cons_succ, List.map_cons, List.sum_cons, List.getElem_cons_succ]
      omega

theorem State.freqSum_setCount (s : State) (b : Byte) (v t : Nat) :
    (s.setCount b v t).freqSum + (s.readFreq b).toNat = s.freqSum + (truncCount s.cfg v).toNat := by
  have h := sum_set_toNat s.freq.toList b.toNat (by simpa using b.isLt) (truncCount s.cfg v)
  simpa [State.freqSum, State.readFreq, Vector.toList_set] using h

theorem List.le_sum_of_getElem (l : List Nat) (k : Nat) (h : k < l.length) : l[k] ≤ l.sum :=
  List.single_le_sum (fun _ _ => Nat.zero_le _) _ (List.getElem_mem h)

/-- A frequency is at most the sum of all. -/
theorem State.readFreq_le_sum (s : State) (b : Byte) : (s.readFreq b).toNat ≤ s.freqSum := by
  have h := List.le_sum_of_getElem (s.freq.toList.map BitVec.toNat) b.toNat (by simpa using b.isLt)
  simpa [State.freqSum, State.readFreq] using h

/-! ### Nodes and codes -/

theorem State.readNode_of_lt {s : State} {i : NodeIdx} (h : i.toNat < NODE_MAX) : s.readNode i = some s.node[i.toNat] := by
  simp [State.readNode, h]

theorem State.readNode_congr {s t : State} (h : s.node = t.node) (i : NodeIdx) : s.readNode i = t.readNode i := by
  simp [State.readNode, h]

/-- A guarded read goes on with the node, or stops because the entry does not exist. -/
theorem withNode_some {s : State} {i : NodeIdx} {nd : Node} (h : s.readNode i = some nd)
    (go : Node → Outcome State Fault Refusal) : withNode s i go = go nd := by
  simp [withNode, h]

/-- A guarded read that answers a next state has read a node. -/
theorem withNode_next {s t : State} {i : NodeIdx} {go : Node → Outcome State Fault Refusal}
    (h : withNode s i go = .next t) : ∃ nd, s.readNode i = some nd ∧ go nd = .next t := by
  unfold withNode at h
  split at h
  · exact ⟨_, ‹_›, h⟩
  · cases h

/-! ### The blocking check and errors -/

/-- A blocked command changes nothing (R229). -/
theorem unlessBlocked_of_err {s : State} (h : s.err = true) (go : State → Outcome State Fault Refusal) :
    unlessBlocked s go = .next s := by simp [unlessBlocked, h]

theorem unlessBlocked_of_noErr {s : State} (h : s.err = false) (go : State → Outcome State Fault Refusal) :
    unlessBlocked s go = go s := by simp [unlessBlocked, h]

/-- A command behind the blocking check either did nothing, with an error recorded, or ran with none. -/
theorem unlessBlocked_next {s t : State} {go : State → Outcome State Fault Refusal} (h : unlessBlocked s go = .next t) :
    (s.err = true ∧ t = s) ∨ (s.err = false ∧ go s = .next t) := by
  unfold unlessBlocked at h
  split at h
  · cases h; exact .inl ⟨‹_›, rfl⟩
  · rename_i hne
    exact .inr ⟨Bool.eq_false_iff.mpr hne, h⟩

theorem raiseError_next {s t : State} {e : ErrKind} {info : BitVec 32} (h : raiseError e info s = .next t) :
    t = s.raise e info := by cases h; rfl

/-- The codes of R221 are 1 to 7. -/
theorem ErrKind.code_range (e : ErrKind) : 1 ≤ e.code.toNat ∧ e.code.toNat ≤ 7 := by cases e <;> decide

theorem State.raise_errorsOk {s : State} (h : s.ErrorsOk) (e : ErrKind) (info : BitVec 32) : (s.raise e info).ErrorsOk := by
  cases he : s.err with
  | true => rwa [State.raise_of_err he]
  | false =>
    rw [State.raise_of_noErr he]
    refine ⟨⟨fun h => by simp at h, fun h => ?_⟩, fun h => by simp at h, (ErrKind.code_range e).2⟩
    cases e <;> simp [ErrKind.code] at h

/-! ### Codes -/

theorem CodeEntry.path_length (e : CodeEntry) : e.path.length = e.len.toNat := by
  have := e.len.isLt
  simp [CodeEntry.path, CODE_MAX]; omega

/-- The first bits of a derived code are the recorded path (R136). -/
theorem codeBits_take (draw sym : Nat) (p : List Bool) (h : p.length ≤ CODE_MAX) :
    (codeBits draw sym p).toList.take p.length = p := by
  apply List.ext_getElem
  · simpa [codeBits] using h
  · intro k h1 h2
    simp [codeBits, List.getD_eq_getElem?_getD, h2]

end Sys2Proof.Machine
end

