-- ==== Sys2Proof/Laws/Build.lean ====
section
/-! SUPPORT. What the tree builder does, said once per operation (`spec/41_tree_builder.md`): the scan of the frequency table,
`extract_min`, one merge, and the merge loop. -/

namespace Sys2Proof.Machine

/-! ### The scan (R132) -/

/-- The scan of a part of the table that begins at symbol `k`. -/
def scanFrom (l : List Count) (k : Nat) : List Node :=
  (l.zipIdx k).filterMap fun (f, sym) => if f = 0 then none else some (leafNode (f.setWidth 33) (BitVec.ofNat 9 sym))

theorem scanLeaves_eq (freq : Vector Count ALPHABET) : scanLeaves freq = scanFrom freq.toList 0 := rfl

theorem scanFrom_cons (f : Count) (l : List Count) (k : Nat) :
    scanFrom (f :: l) k =
      if f = 0 then scanFrom l (k + 1) else leafNode (f.setWidth 33) (BitVec.ofNat 9 k) :: scanFrom l (k + 1) := by
  by_cases h : f = 0#32 <;> simp [scanFrom, h]

theorem scanFrom_length_le (l : List Count) (k : Nat) : (scanFrom l k).length ≤ l.length := by
  induction l generalizing k with
  | nil => simp [scanFrom]
  | cons f l ih =>
    have := ih (k + 1)
    rw [scanFrom_cons]; split <;> simp <;> omega

/-- A node of the scan is the leaf of a symbol with a positive frequency, and every such symbol has its leaf. -/
theorem mem_scanFrom (l : List Count) (k : Nat) (nd : Node) :
    nd ∈ scanFrom l k ↔ ∃ j, ∃ h : j < l.length, l[j] ≠ 0 ∧ nd = leafNode (l[j].setWidth 33) (BitVec.ofNat 9 (k + j)) := by
  induction l generalizing k with
  | nil => simp [scanFrom]
  | cons f l ih =>
    have key : (nd ∈ scanFrom (f :: l) k) ↔
        (f ≠ 0 ∧ nd = leafNode (f.setWidth 33) (BitVec.ofNat 9 k)) ∨ nd ∈ scanFrom l (k + 1) := by
      rw [scanFrom_cons]; split <;> simp_all
    rw [key, ih]
    constructor
    · rintro (⟨h, rfl⟩ | ⟨j, hj, h0, rfl⟩)
      · exact ⟨0, by simp, by simpa using h, by simp⟩
      · exact ⟨j + 1, by simpa using hj, by simpa using h0, by simp [Nat.add_comm 1, Nat.add_assoc]⟩
    · rintro ⟨j, hj, h0, rfl⟩
      cases j with
      | zero => exact .inl ⟨by simpa using h0, by simp⟩
      | succ j =>
        exact .inr ⟨j, by simpa using hj, by simpa using h0, by simp [Nat.add_comm 1, Nat.add_assoc]⟩

/-- The leaves stand in ascending symbol order. -/
theorem scanFrom_ascending (l : List Count) (k : Nat) (h : k + l.length ≤ 512) :
    (scanFrom l k).Pairwise fun a b => a.sym.toNat < b.sym.toNat := by
  induction l generalizing k with
  | nil => simp [scanFrom]
  | cons f l ih =>
    simp only [List.length_cons] at h
    have ih := ih (k + 1) (by omega)
    rw [scanFrom_cons]
    split
    · exact ih
    · refine List.pairwise_cons.mpr ⟨fun b hb => ?_, ih⟩
      obtain ⟨j, hj, -, rfl⟩ := (mem_scanFrom _ _ _).mp hb
      simp only [leafNode, BitVec.toNat_ofNat]
      rw [Nat.mod_eq_of_lt (by omega), Nat.mod_eq_of_lt (by omega)]
      omega

/-- The sum of a list of nodes' weights. -/
def weightSum (nodes : List Node) : Nat := (nodes.map fun nd => nd.weight.toNat).sum

theorem scanFrom_weightSum (l : List Count) (k : Nat) : weightSum (scanFrom l k) = (l.map BitVec.toNat).sum := by
  induction l generalizing k with
  | nil => simp [scanFrom, weightSum]
  | cons f l ih =>
    have ih := ih (k + 1)
    have hw : (f.setWidth 33).toNat = f.toNat := by
      simp only [BitVec.toNat_setWidth]; exact Nat.mod_eq_of_lt (by have := f.isLt; omega)
    rw [scanFrom_cons]
    split
    · subst f; simp [ih]
    · simp only [weightSum, List.map_cons, List.sum_cons, leafNode, hw] at ih ⊢
      omega

/-! ### `extract_min` (R131) -/

theorem minEntry_eq_none {nodes : List Node} {pq : List NodeIdx} : minEntry nodes pq = none ↔ pq = [] := by
  cases pq with
  | nil => simp [minEntry]
  | cons i rest =>
    simp only [minEntry]
    split
    · simp
    · split <;> simp

/-- The entry found is in the queue, and no entry has a smaller key. -/
theorem minEntry_spec {nodes : List Node} {pq : List NodeIdx} {i : NodeIdx} (h : minEntry nodes pq = some i) :
    i ∈ pq ∧ ∀ j ∈ pq, (key nodes i).toNat ≤ (key nodes j).toNat := by
  induction pq generalizing i with
  | nil => simp [minEntry] at h
  | cons a rest ih =>
    simp only [minEntry] at h
    split at h
    · rename_i hn
      cases h
      simp [minEntry_eq_none.mp hn]
    · rename_i j hj
      obtain ⟨hm, hle⟩ := ih hj
      split at h <;> rename_i hk <;> cases h <;> rw [BitVec.le_def] at hk
      · refine ⟨by simp, fun x hx => ?_⟩
        rcases List.mem_cons.mp hx with rfl | hx
        · exact Nat.le_refl _
        · exact hk.trans (hle x hx)
      · refine ⟨by simp [hm], fun x hx => ?_⟩
        rcases List.mem_cons.mp hx with rfl | hx
        · omega
        · exact hle x hx

theorem extractMin_eq_none {nodes : List Node} {pq : List NodeIdx} : extractMin nodes pq = none ↔ pq = [] := by
  unfold extractMin
  split
  · simpa using minEntry_eq_none.mp ‹_›
  · rename_i h
    constructor
    · intro h'; cases h'
    · rintro rfl; simp [minEntry] at h

/-- `extract_min` removes one entry, one with the smallest key. -/
theorem extractMin_spec {nodes : List Node} {pq rest : List NodeIdx} {i : NodeIdx}
    (h : extractMin nodes pq = some (i, rest)) :
    i ∈ pq ∧ rest = pq.erase i ∧ ∀ j ∈ pq, (key nodes i).toNat ≤ (key nodes j).toNat := by
  unfold extractMin at h
  split at h
  · cases h
  · rename_i hm
    cases h
    exact ⟨(minEntry_spec hm).1, rfl, (minEntry_spec hm).2⟩

/-- One turn of the merge loop: the two entries with the smallest keys, in that order, give way to their merged node,
which is the next node (R134). -/
theorem mergeStep_spec {c : Config} {bd bd' : Builder} (h : mergeStep c bd = some bd') :
    ∃ a b, a ∈ bd.pq ∧ b ∈ bd.pq.erase a ∧
      (∀ j ∈ bd.pq, (key bd.nodes a).toNat ≤ (key bd.nodes j).toNat) ∧
      (∀ j ∈ bd.pq.erase a, (key bd.nodes b).toNat ≤ (key bd.nodes j).toNat) ∧
      bd' = { nodes := bd.nodes ++ [mergedNode c bd.nodes a b]
              pq := (bd.pq.erase a).erase b ++ [BitVec.ofNat 9 bd.nodes.length] } := by
  unfold mergeStep at h
  split at h
  · cases h
  · rename_i a pq1 h1
    split at h
    · cases h
    · rename_i b pq2 h2
      obtain ⟨ha, rfl, hale⟩ := extractMin_spec h1
      obtain ⟨hb, rfl, hble⟩ := extractMin_spec h2
      cases h
      exact ⟨a, b, ha, hb, hale, hble, rfl⟩

theorem mergeStep_eq_none {c : Config} {bd : Builder} (h : mergeStep c bd = none) : bd.pq.length ≤ 1 := by
  unfold mergeStep at h
  split at h
  · rename_i h1; simp [extractMin_eq_none.mp h1]
  · rename_i a pq1 h1
    split at h
    · rename_i h2
      obtain ⟨ha, rfl, -⟩ := extractMin_spec h1
      have := List.length_erase_of_mem ha
      rw [extractMin_eq_none.mp h2] at this
      simp at this; omega
    · cases h

/-! ### The builder's invariant -/

/-- Node `i` is a child of the internal node `p`. -/
def ChildIn (nodes : List Node) (i p : Nat) : Prop :=
  ∃ nd, nodes[p]? = some nd ∧ nd.leaf = false ∧ (nd.left.toNat = i ∨ nd.right.toNat = i)

/-- The sum of the weights of the queue's entries. -/
def queueWeight (nodes : List Node) (pq : List NodeIdx) : Nat := (pq.map fun i => (nodeOf nodes i).weight.toNat).sum

/-- What holds between two merges, for a builder that began with the leaves `start`. -/
structure BuilderOk (start : List Node) (bd : Builder) : Prop where
  starts : start <+: bd.nodes
  count : bd.nodes.length + bd.pq.length = 2 * start.length
  nonempty : 1 ≤ bd.pq.length
  pq_lt : ∀ i ∈ bd.pq, i.toNat < bd.nodes.length
  pq_nodup : bd.pq.Nodup
  internal : ∀ k nd, start.length ≤ k → bd.nodes[k]? = some nd →
    nd.leaf = false ∧ nd.sym = SENTINEL ∧ nd.left.toNat < k ∧ nd.right.toNat < k ∧ nd.left ≠ nd.right ∧
      ∃ l r, bd.nodes[nd.left.toNat]? = some l ∧ bd.nodes[nd.right.toNat]? = some r ∧
        nd.weight.toNat = l.weight.toNat + r.weight.toNat
  queued : ∀ i, i ∈ bd.pq → ∀ p, ¬ ChildIn bd.nodes i.toNat p
  merged : ∀ i : NodeIdx, i.toNat < bd.nodes.length → i ∉ bd.pq → ∃! p, ChildIn bd.nodes i.toNat p
  weight : queueWeight bd.nodes bd.pq = weightSum start
  last : start.length < bd.nodes.length → BitVec.ofNat 9 (bd.nodes.length - 1) ∈ bd.pq

theorem nodeOf_of_getElem? {nodes : List Node} {i : NodeIdx} {nd : Node} (h : nodes[i.toNat]? = some nd) :
    nodeOf nodes i = nd := by simp [nodeOf, List.getD_eq_getElem?_getD, h]

theorem getElem?_nodeOf {nodes : List Node} {i : NodeIdx} (h : i.toNat < nodes.length) :
    nodes[i.toNat]? = some (nodeOf nodes i) := by simp [nodeOf, List.getD_eq_getElem?_getD, h]

theorem nodeOf_append {nodes : List Node} {i : NodeIdx} (h : i.toNat < nodes.length) (x : Node) :
    nodeOf (nodes ++ [x]) i = nodeOf nodes i := by
  simp [nodeOf, List.getD_eq_getElem?_getD, List.getElem?_append_left h]

theorem nodeOf_last (nodes : List Node) (h : nodes.length < 512) (x : Node) :
    nodeOf (nodes ++ [x]) (BitVec.ofNat 9 nodes.length) = x := by
  have : (BitVec.ofNat 9 nodes.length).toNat = nodes.length := by simp; omega
  simp [nodeOf, List.getD_eq_getElem?_getD, this]

theorem sum_map_erase (f : NodeIdx → Nat) (l : List NodeIdx) (a : NodeIdx) (h : a ∈ l) :
    f a + ((l.erase a).map f).sum = (l.map f).sum := by
  have := (List.perm_cons_erase h).map f
  have := this.sum_eq
  simpa using this.symm

/-- The children of the nodes so far are not changed by a new node at the end. -/
theorem childIn_append {nodes : List Node} {x : Node} {i p : Nat} :
    ChildIn (nodes ++ [x]) i p ↔
      ChildIn nodes i p ∨ (p = nodes.length ∧ x.leaf = false ∧ (x.left.toNat = i ∨ x.right.toNat = i)) := by
  unfold ChildIn
  rcases Nat.lt_trichotomy p nodes.length with h | h | h
  · rw [List.getElem?_append_left h]
    simp [show p ≠ nodes.length by omega]
  · subst h; simp
  · simp [List.getElem?_eq_none (show (nodes ++ [x]).length ≤ p by simp; omega),
      List.getElem?_eq_none (show nodes.length ≤ p by omega), show p ≠ nodes.length by omega]

/-- Adding two weights whose sum fits in `NW` bits does not wrap (R141). -/
theorem addWeights_toNat {c : Config} {x y : Weight} (h : x.toNat + y.toNat < 2 ^ c.NW) :
    (addWeights c x y).toNat = x.toNat + y.toNat := by
  have h1 := Config.pow_NW c
  have h2 := Config.pow_W_le c
  unfold addWeights
  rw [Nat.mod_eq_of_lt h, BitVec.toNat_ofNat, Nat.mod_eq_of_lt (by omega)]

/-- One turn keeps the invariant and takes one entry from the queue (R134), if no weight can exceed `NW` bits. -/
theorem mergeStep_ok {c : Config} {start : List Node} {bd bd' : Builder} (hs : start.length ≤ 256)
    (hleaves : ∀ nd ∈ start, nd.leaf = true)
    (hw : weightSum start < 2 ^ c.NW) (ok : BuilderOk start bd) (h : mergeStep c bd = some bd') :
    BuilderOk start bd' ∧ bd'.pq.length + 1 = bd.pq.length := by
  obtain ⟨a, b, ha, hb, -, -, rfl⟩ := mergeStep_spec h
  have hb' : b ∈ bd.pq := List.mem_of_mem_erase hb
  have hab : a ≠ b := fun e => by
    subst e; exact (List.Nodup.not_mem_erase ok.pq_nodup) hb
  have hla := List.length_erase_of_mem ha
  have hlb := List.length_erase_of_mem hb
  have hpos : 2 ≤ bd.pq.length := by
    have := List.length_pos_of_mem hb; omega
  have hn : bd.nodes.length < 512 := by have := ok.count; omega
  have hlt : (BitVec.ofNat 9 bd.nodes.length).toNat = bd.nodes.length := by simp; omega
  have halt := ok.pq_lt a ha
  have hblt := ok.pq_lt b hb'
  have hrest : ∀ i ∈ (bd.pq.erase a).erase b, i ∈ bd.pq ∧ i ≠ a ∧ i ≠ b := fun i hi => by
    have h1 := List.mem_of_mem_erase hi
    refine ⟨List.mem_of_mem_erase h1, ?_, ?_⟩
    · rintro rfl; exact (List.Nodup.not_mem_erase ok.pq_nodup) h1
    · rintro rfl; exact (List.Nodup.not_mem_erase (ok.pq_nodup.erase a)) hi
  have hmem : ∀ i ∈ bd.pq, i ≠ a → i ≠ b → i ∈ (bd.pq.erase a).erase b := fun i hi h1 h2 =>
    (List.mem_erase_of_ne h2).mpr ((List.mem_erase_of_ne h1).mpr hi)
  have hsum : (nodeOf bd.nodes a).weight.toNat + (nodeOf bd.nodes b).weight.toNat
      + queueWeight bd.nodes ((bd.pq.erase a).erase b) = weightSum start := by
    have h1 := sum_map_erase (fun i => (nodeOf bd.nodes i).weight.toNat) _ _ ha
    have h2 := sum_map_erase (fun i => (nodeOf bd.nodes i).weight.toNat) _ _ hb
    have h3 := ok.weight
    unfold queueWeight at h3 ⊢
    omega
  have hadd := addWeights_toNat (c := c) (x := (nodeOf bd.nodes a).weight) (y := (nodeOf bd.nodes b).weight) (by omega)
  have hqw : ∀ x, queueWeight (bd.nodes ++ [x]) ((bd.pq.erase a).erase b) = queueWeight bd.nodes ((bd.pq.erase a).erase b) :=
    fun x => by
      unfold queueWeight
      congr 1
      apply List.map_congr_left
      intro i hi
      rw [nodeOf_append (ok.pq_lt i (hrest i hi).1)]
  have hchild : ∀ i : NodeIdx, ∀ p, ChildIn (bd.nodes ++ [mergedNode c bd.nodes a b]) i.toNat p ↔
      ChildIn bd.nodes i.toNat p ∨ (p = bd.nodes.length ∧ (i = a ∨ i = b)) := fun i p => by
    rw [childIn_append]
    simp [mergedNode, BitVec.toNat_inj, eq_comm]
  have hchild_lt : ∀ i p, ChildIn bd.nodes i p → p < bd.nodes.length := fun i p ⟨nd, h, _⟩ =>
    (List.getElem?_eq_some_iff.mp h).1
  refine ⟨{ starts := ok.starts.trans (List.prefix_append _ _)
            count := ?_, nonempty := by simp, pq_lt := ?_, pq_nodup := ?_, internal := ?_
            queued := ?_, merged := ?_, weight := ?_, last := fun _ => by simp }, by simp; omega⟩
  · have := ok.count; simp; omega
  · intro i hi
    rcases List.mem_append.mp hi with hi | hi
    · have := ok.pq_lt i (hrest i hi).1; simp; omega
    · rw [List.mem_singleton.mp hi, hlt]; simp
  · refine List.nodup_append.mpr ⟨(ok.pq_nodup.erase a).erase b, by simp, ?_⟩
    rintro i hi _ hj rfl
    have := ok.pq_lt i (hrest i hi).1
    rw [List.mem_singleton.mp hj, hlt] at this
    omega
  · intro k nd hk hnd
    rcases Nat.lt_trichotomy k bd.nodes.length with h | h | h
    · rw [List.getElem?_append_left h] at hnd
      obtain ⟨h1, h2, h3, h4, h5, l, r, hl, hr, hw⟩ := ok.internal k nd hk hnd
      refine ⟨h1, h2, h3, h4, h5, l, r, ?_, ?_, hw⟩
      · rwa [List.getElem?_append_left (by omega)]
      · rwa [List.getElem?_append_left (by omega)]
    · subst h
      obtain rfl : mergedNode c bd.nodes a b = nd := by simpa using hnd
      refine ⟨rfl, rfl, halt, hblt, hab, nodeOf bd.nodes a, nodeOf bd.nodes b, ?_, ?_, hadd⟩
      · simp only [mergedNode]; rw [List.getElem?_append_left halt, getElem?_nodeOf halt]
      · simp only [mergedNode]; rw [List.getElem?_append_left hblt, getElem?_nodeOf hblt]
    · rw [List.getElem?_eq_none (by simp; omega)] at hnd; cases hnd
  · intro i hi p
    rw [hchild]
    rcases List.mem_append.mp hi with hi | hi
    · obtain ⟨h1, h2, h3⟩ := hrest i hi
      have := ok.queued i h1 p
      simp_all
    · have hi := List.mem_singleton.mp hi
      subst hi
      rintro (hc | ⟨-, rfl | rfl⟩)
      · obtain ⟨nd, hnd, hleaf, hor⟩ := hc
        have hp := (List.getElem?_eq_some_iff.mp hnd).1
        by_cases hps : start.length ≤ p
        · obtain ⟨-, -, h3, h4, -⟩ := ok.internal p nd hps hnd
          omega
        · have h1 : start[p]? = some nd := by
            have := ok.starts
            rw [List.prefix_iff_getElem?] at this
            have h2 := this p (by omega)
            rw [hnd] at h2
            rw [List.getElem?_eq_getElem (by omega)]
            exact h2.symm ▸ rfl
          have := hleaves nd (List.mem_of_getElem? h1)
          simp [this] at hleaf
      · omega
      · omega
  · intro i hi hni
    simp only [List.length_append, List.length_singleton] at hi
    simp only [List.mem_append, List.mem_singleton, not_or] at hni
    have hilt : i.toNat < bd.nodes.length := by
      rcases Nat.lt_or_ge i.toNat bd.nodes.length with h | h
      · exact h
      · exact absurd (BitVec.eq_of_toNat_eq (by rw [hlt]; omega)) hni.2
    by_cases hq : i ∈ bd.pq
    · have hor : i = a ∨ i = b := by
        by_contra hcon
        push Not at hcon
        exact hni.1 (hmem i hq hcon.1 hcon.2)
      refine ⟨bd.nodes.length, (hchild i _).mpr (.inr ⟨rfl, hor⟩), fun p hp => ?_⟩
      rcases (hchild i p).mp hp with hp | hp
      · exact absurd hp (ok.queued i hq p)
      · exact hp.1
    · obtain ⟨p, hp, huniq⟩ := ok.merged i hilt hq
      refine ⟨p, (hchild i p).mpr (.inl hp), fun q hq' => ?_⟩
      rcases (hchild i q).mp hq' with hq' | ⟨-, rfl | rfl⟩
      · exact huniq q hq'
      · exact absurd ha hq
      · exact absurd hb' hq
  · unfold queueWeight
    rw [List.map_append, List.sum_append]
    have := hqw (mergedNode c bd.nodes a b)
    unfold queueWeight at this
    rw [this]
    simp only [List.map_cons, List.map_nil, List.sum_cons, List.sum_nil, nodeOf_last _ hn]
    simp only [mergedNode, hadd]
    unfold queueWeight at hsum
    omega

/-- The loop ends with one entry in the queue (R134). -/
theorem mergeLoop_ok {c : Config} {start : List Node} (hs : start.length ≤ 256)
    (hleaves : ∀ nd ∈ start, nd.leaf = true) (hw : weightSum start < 2 ^ c.NW) (turns : Nat) (bd : Builder)
    (ok : BuilderOk start bd) (ht : bd.pq.length ≤ turns + 1) :
    BuilderOk start (mergeLoop c turns bd) ∧ (mergeLoop c turns bd).pq.length = 1 := by
  induction turns generalizing bd with
  | zero => exact ⟨ok, by have := ok.nonempty; simp [mergeLoop]; omega⟩
  | succ turns ih =>
    simp only [mergeLoop]
    split
    · rename_i h
      exact ⟨ok, by have := ok.nonempty; have := mergeStep_eq_none h; omega⟩
    · rename_i bd' h
      obtain ⟨ok', hlen⟩ := mergeStep_ok hs hleaves hw ok h
      exact ih bd' ok' (by omega)

theorem nodeOf_range (nodes : List Node) (h : nodes.length ≤ 512) :
    ((List.range nodes.length).map (BitVec.ofNat 9)).map (nodeOf nodes) = nodes := by
  apply List.ext_getElem
  · simp
  · intro k h1 h2
    have : k % 512 = k := Nat.mod_eq_of_lt (by omega)
    simp [nodeOf, List.getD_eq_getElem?_getD, this, h2]

/-- The leaves, all of them in the queue, meet the invariant (R132, R133). -/
theorem builderOk_start (start : List Node) (h1 : 1 ≤ start.length) (hs : start.length ≤ 256)
    (hleaves : ∀ nd ∈ start, nd.leaf = true) :
    BuilderOk start { nodes := start, pq := (List.range start.length).map (BitVec.ofNat 9) } := by
  have hno : ∀ i p, ¬ ChildIn start i p := fun i p ⟨nd, hnd, hl, _⟩ => by
    simp [hleaves nd (List.mem_of_getElem? hnd)] at hl
  refine { starts := List.prefix_refl _, count := by simp; omega, nonempty := by simpa using h1, pq_lt := ?_
           pq_nodup := ?_, internal := ?_, queued := fun i _ p => hno _ p, merged := ?_, weight := ?_
           last := fun h => absurd h (by simp) }
  · intro i hi
    obtain ⟨k, hk, rfl⟩ := List.mem_map.mp hi
    have := List.mem_range.mp hk
    simp only [BitVec.toNat_ofNat]
    rw [Nat.mod_eq_of_lt (by omega)]
    exact this
  · refine List.Nodup.map_on ?_ List.nodup_range
    intro x hx y hy hxy
    have hx := List.mem_range.mp hx
    have hy := List.mem_range.mp hy
    have := congrArg BitVec.toNat hxy
    simp only [BitVec.toNat_ofNat] at this
    rwa [Nat.mod_eq_of_lt (by omega), Nat.mod_eq_of_lt (by omega)] at this
  · intro k nd hk hnd
    rw [List.getElem?_eq_none hk] at hnd; cases hnd
  · intro i hi hni
    refine absurd (List.mem_map.mpr ⟨i.toNat, List.mem_range.mpr hi, ?_⟩) hni
    simp
  · have := congrArg weightSum (nodeOf_range start (by omega))
    rw [← this]
    simp [queueWeight, weightSum, Function.comp_def]

/-! ### The tree (R130) -/

/-- The nodes before the merge loop: `L'` leaves. -/
def startNodes (leaves : List Node) : List Node := (startBuilder leaves).nodes

theorem startNodes_eq (leaves : List Node) :
    startNodes leaves = if leaves.length = 1 then leaves ++ [placeholder] else leaves := rfl

theorem startBuilder_eq (leaves : List Node) :
    startBuilder leaves =
      { nodes := startNodes leaves, pq := (List.range (startNodes leaves).length).map (BitVec.ofNat 9) } := rfl

/-- What `buildTree` returns for the leaves `start`, placeholder included. -/
structure TreeBuilt (start : List Node) (t : Tree) : Prop where
  starts : start <+: t.nodes
  count : t.nodes.length + 1 = 2 * start.length
  root : t.root.toNat + 1 = t.nodes.length
  internal : ∀ k nd, start.length ≤ k → t.nodes[k]? = some nd →
    nd.leaf = false ∧ nd.sym = SENTINEL ∧ nd.left.toNat < k ∧ nd.right.toNat < k ∧ nd.left ≠ nd.right ∧
      ∃ l r, t.nodes[nd.left.toNat]? = some l ∧ t.nodes[nd.right.toNat]? = some r ∧
        nd.weight.toNat = l.weight.toNat + r.weight.toNat
  parent : ∀ i : NodeIdx, i.toNat < t.nodes.length → i ≠ t.root → ∃! p, ChildIn t.nodes i.toNat p
  weight : (nodeOf t.nodes t.root).weight.toNat = weightSum start
  queue : t.pq = []

theorem scanLeaves_length_le (freq : Vector Count ALPHABET) : (scanLeaves freq).length ≤ 256 := by
  have := scanFrom_length_le freq.toList 0
  rw [scanLeaves_eq]; simpa using this

theorem scanLeaves_leaf (freq : Vector Count ALPHABET) : ∀ nd ∈ scanLeaves freq, nd.leaf = true := by
  intro nd h
  rw [scanLeaves_eq, mem_scanFrom] at h
  obtain ⟨j, hj, -, rfl⟩ := h
  rfl

theorem startNodes_length (leaves : List Node) :
    (startNodes leaves).length = leaves.length + (leaves.length == 1).toNat := by
  rw [startNodes_eq]
  split <;> simp_all

theorem startNodes_leaf {leaves : List Node} (h : ∀ nd ∈ leaves, nd.leaf = true) : ∀ nd ∈ startNodes leaves, nd.leaf = true := by
  rw [startNodes_eq]
  split
  · intro nd hnd
    rcases List.mem_append.mp hnd with hnd | hnd
    · exact h nd hnd
    · rw [List.mem_singleton.mp hnd]; rfl
  · exact h

theorem weightSum_append (l r : List Node) : weightSum (l ++ r) = weightSum l + weightSum r := by
  simp [weightSum]

theorem startNodes_weightSum (leaves : List Node) :
    weightSum (startNodes leaves) = weightSum leaves + (leaves.length == 1).toNat := by
  rw [startNodes_eq]
  split
  · rename_i h
    rw [weightSum_append]
    simp [h, weightSum, placeholder, leafNode]
  · rename_i h
    simp [h]

/-- `BUILD` of a table with no positive frequency gives no tree (R135). -/
theorem buildTree_empty {c : Config} {freq : Vector Count ALPHABET} (h : (scanLeaves freq).length = 0) :
    buildTree c freq = Tree.empty := by
  simp [buildTree, h]

/-- `BUILD` of a table with a positive frequency gives a tree over its leaves (R132–R134). -/
theorem buildTree_spec {c : Config} {freq : Vector Count ALPHABET} (h : (scanLeaves freq).length ≠ 0)
    (hw : weightSum (startNodes (scanLeaves freq)) < 2 ^ c.NW) :
    TreeBuilt (startNodes (scanLeaves freq)) (buildTree c freq) ∧
      (buildTree c freq).leaves = BitVec.ofNat 9 (scanLeaves freq).length ∧
      (buildTree c freq).degen = ((scanLeaves freq).length == 1) := by
  have hl := scanLeaves_length_le freq
  have hlen := startNodes_length (scanLeaves freq)
  have h2 : 2 ≤ (startNodes (scanLeaves freq)).length ∧ (startNodes (scanLeaves freq)).length ≤ 256 := by
    rw [hlen]
    by_cases h1 : (scanLeaves freq).length = 1
    · rw [h1]; decide
    · rw [beq_eq_false_iff_ne.mpr h1, Bool.toNat_false]; omega
  have hleaves := startNodes_leaf (scanLeaves_leaf freq)
  obtain ⟨ok, hone⟩ := mergeLoop_ok (c := c) h2.2 hleaves hw (startBuilder (scanLeaves freq)).pq.length
    (startBuilder (scanLeaves freq))
    (by rw [startBuilder_eq]; exact builderOk_start _ (by omega) h2.2 hleaves) (by omega)
  have hmerge : mergeLoop c (startBuilder (scanLeaves freq)).pq.length (startBuilder (scanLeaves freq)) =
      mergeAll c (scanLeaves freq) := rfl
  rw [hmerge] at ok hone
  obtain ⟨r, hr⟩ := List.length_eq_one_iff.mp hone
  have hx : extractMin (mergeAll c (scanLeaves freq)).nodes (mergeAll c (scanLeaves freq)).pq = some (r, []) := by
    simp [hr, extractMin, minEntry]
  have hb : buildTree c freq =
      { nodes := (mergeAll c (scanLeaves freq)).nodes, root := r
        leaves := BitVec.ofNat 9 (scanLeaves freq).length, degen := (scanLeaves freq).length == 1, pq := [] } := by
    simp [buildTree, h, hx]
  have hcount := ok.count
  rw [hone] at hcount
  have hlast := ok.last (by omega)
  rw [hr, List.mem_singleton] at hlast
  have hroot : r.toNat + 1 = (mergeAll c (scanLeaves freq)).nodes.length := by
    rw [← hlast, BitVec.toNat_ofNat, Nat.mod_eq_of_lt (by omega)]; omega
  refine ⟨?_, by rw [hb], by rw [hb]⟩
  rw [hb]
  exact { starts := ok.starts, count := hcount, root := hroot, internal := ok.internal
          parent := fun i hi hne => ok.merged i hi (by rw [hr]; simpa using hne)
          weight := by have hq := ok.weight; rw [hr] at hq; simpa [queueWeight] using hq
          queue := rfl }

end Sys2Proof.Machine
end

