-- ==== Sys2Proof/Laws/Codes.lean ====
section
/-! SUPPORT. The code derivation (`spec/41_tree_builder.md` R136) finds exactly the root-to-leaf paths, and the state that
`BUILD` leaves has the tree, code-table and walker invariants. -/

namespace Sys2Proof.Machine

/-! ### Paths in a list of nodes -/

/-- Where the branches `q` lead from node `i`, through internal nodes. -/
def followIn (nodes : List Node) (i : NodeIdx) : List Bool → Option NodeIdx
  | [] => some i
  | x :: q =>
    match nodes[i.toNat]? with
    | none => none
    | some nd => if nd.leaf then none else followIn nodes (nd.child x) q

/-- Every child lies below its parent (R31). -/
def Descends (nodes : List Node) : Prop :=
  ∀ (k : Nat) (nd : Node), nodes[k]? = some nd → nd.leaf = false → ∀ x, (nd.child x).toNat < k

/-- The traversal from node `i` records exactly the real leaves below it, each with a path that leads to it (R136). -/
theorem mem_visit {nodes : List Node} (hd : Descends nodes) (levels : Nat) (i : NodeIdx) (p r : List Bool) (b : Byte)
    (hi : i.toNat < levels) :
    (b, r) ∈ visit nodes levels i p ↔
      ∃ q j nd, r = p ++ q ∧ followIn nodes i q = some j ∧ nodes[j.toNat]? = some nd ∧ nd.leaf = true ∧
        nd.sym ≠ SENTINEL ∧ b = nd.byte := by
  induction levels generalizing i p with
  | zero => omega
  | succ levels ih =>
    cases hnd : nodes[i.toNat]? with
    | none =>
      simp only [visit, hnd, List.not_mem_nil, false_iff, not_exists]
      rintro q j nd ⟨-, hq, hj, -⟩
      cases q with
      | nil => simp only [followIn, Option.some.injEq] at hq; subst hq; simp [hnd] at hj
      | cons x q => simp [followIn, hnd] at hq
    | some nd =>
      cases hl : nd.leaf with
      | true =>
        have hnil : ∀ q j, followIn nodes i q = some j → q = [] ∧ j = i := by
          intro q j hq
          cases q with
          | nil => simp only [followIn, Option.some.injEq] at hq; exact ⟨rfl, hq.symm⟩
          | cons x q => simp [followIn, hnd, hl] at hq
        simp only [visit, hnd, hl, if_true]
        constructor
        · intro h
          by_cases hs : nd.sym = SENTINEL
          · simp [hs] at h
          · rw [if_neg hs, List.mem_singleton] at h
            cases h
            exact ⟨[], i, nd, by simp, rfl, hnd, hl, hs, rfl⟩
        · rintro ⟨q, j, nd', rfl, hq, hj, -, hs, rfl⟩
          obtain ⟨rfl, rfl⟩ := hnil q j hq
          rw [hnd] at hj
          cases hj
          simp [hs]
      | false =>
        have hc := hd _ nd hnd hl
        have ihl := fun p' => ih (nd.child false) p' (by have := hc false; omega)
        have ihr := fun p' => ih (nd.child true) p' (by have := hc true; omega)
        simp only [visit, hnd, hl, Bool.false_eq_true, if_false, List.mem_append]
        rw [show nd.left = nd.child false from rfl, show nd.right = nd.child true from rfl, ihl, ihr]
        constructor
        · rintro (⟨q, j, nd', rfl, h⟩ | ⟨q, j, nd', rfl, h⟩)
          · exact ⟨false :: q, j, nd', by simp, by simpa [followIn, hnd, hl] using h⟩
          · exact ⟨true :: q, j, nd', by simp, by simpa [followIn, hnd, hl] using h⟩
        · rintro ⟨q, j, nd', rfl, hq, hj, hleaf, h⟩
          cases q with
          | nil =>
            simp only [followIn, Option.some.injEq] at hq
            subst hq
            rw [hnd] at hj
            cases hj
            simp [hl] at hleaf
          | cons x q =>
            have hq' : followIn nodes (nd.child x) q = some j := by simpa [followIn, hnd, hl] using hq
            cases x with
            | false => exact .inl ⟨q, j, nd', by simp, hq', hj, hleaf, h⟩
            | true => exact .inr ⟨q, j, nd', by simp, hq', hj, hleaf, h⟩

theorem followIn_append {nodes : List Node} {i j : NodeIdx} {p : List Bool} (h : followIn nodes i p = some j)
    (q : List Bool) : followIn nodes i (p ++ q) = followIn nodes j q := by
  induction p generalizing i with
  | nil => simp only [followIn, Option.some.injEq] at h; subst h; rfl
  | cons x p ih =>
    simp only [followIn, List.cons_append] at h ⊢
    split at h
    · cases h
    · split at h
      · cases h
      · rename_i hnd _ hl
        simp only [hl]
        exact ih h

/-- A path goes down: it is no longer than the distance of its ends, counted from the first internal node `l`. -/
theorem followIn_length {nodes : List Node} (hd : Descends nodes) {l : Nat}
    (hint : ∀ (k : Nat) (nd : Node), nodes[k]? = some nd → nd.leaf = false → l ≤ k) {i j : NodeIdx} {p : List Bool}
    (h : followIn nodes i p = some j) : p = [] ∨ p.length + l ≤ i.toNat + 1 := by
  induction p generalizing i with
  | nil => exact .inl rfl
  | cons x p ih =>
    right
    simp only [followIn] at h
    split at h
    · cases h
    · rename_i nd hnd
      split at h
      · cases h
      · rename_i hl
        have hl := Bool.eq_false_iff.mpr hl
        have h1 := hd _ nd hnd hl x
        have h2 := hint _ nd hnd hl
        rcases ih h with rfl | h3
        · simp; omega
        · simp only [List.length_cons]; omega

/-! ### Facts of a built tree -/

section Built

variable {start : List Node} {t : Tree}

theorem TreeBuilt.start_at (ok : TreeBuilt start t) {k : Nat} (h : k < start.length) : t.nodes[k]? = some start[k] := by
  have := ok.starts
  rw [List.prefix_iff_getElem?] at this
  rw [this k h]

theorem TreeBuilt.start_mem (ok : TreeBuilt start t) {k : Nat} {nd : Node} (h : k < start.length)
    (hnd : t.nodes[k]? = some nd) : nd ∈ start := by
  rw [ok.start_at h] at hnd
  cases hnd
  exact List.getElem_mem h

/-- Internal nodes lie from `L'` on (R134). -/
theorem TreeBuilt.internal_from (ok : TreeBuilt start t) (hleaves : ∀ nd ∈ start, nd.leaf = true) (k : Nat) (nd : Node)
    (hnd : t.nodes[k]? = some nd) (hl : nd.leaf = false) : start.length ≤ k := by
  by_contra hlt
  have := hleaves nd (ok.start_mem (by omega) hnd)
  simp [this] at hl

theorem TreeBuilt.descends (ok : TreeBuilt start t) (hleaves : ∀ nd ∈ start, nd.leaf = true) : Descends t.nodes := by
  intro k nd hnd hl x
  obtain ⟨-, -, h3, h4, -⟩ := ok.internal k nd (ok.internal_from hleaves k nd hnd hl) hnd
  cases x
  · exact h3
  · exact h4

/-- Every node has a path from the root (R31). -/
theorem TreeBuilt.reachable (ok : TreeBuilt start t) (hleaves : ∀ nd ∈ start, nd.leaf = true) (hlen : start.length ≤ 256)
    (i : NodeIdx) (hi : i.toNat < t.nodes.length) : ∃ p, followIn t.nodes t.root p = some i := by
  have hn : t.nodes.length < 512 := by have := ok.count; omega
  suffices ∀ d (i : NodeIdx), i.toNat < t.nodes.length → t.nodes.length - i.toNat = d →
      ∃ p, followIn t.nodes t.root p = some i from this _ i hi rfl
  intro d
  induction d using Nat.strong_induction_on with
  | _ d ih =>
    intro i hi hd
    by_cases hr : i = t.root
    · exact ⟨[], by simp [followIn, hr]⟩
    · obtain ⟨p, ⟨nd, hnd, hl, hor⟩, -⟩ := ok.parent i hi hr
      have hp := (List.getElem?_eq_some_iff.mp hnd).1
      have hpn : (BitVec.ofNat 9 p).toNat = p := by
        rw [BitVec.toNat_ofNat]; exact Nat.mod_eq_of_lt (by omega)
      have hip : i.toNat < p := by
        obtain ⟨-, -, h3, h4, -⟩ := ok.internal p nd (ok.internal_from hleaves p nd hnd hl) hnd
        omega
      obtain ⟨q, hq⟩ := ih (t.nodes.length - p) (by omega) (BitVec.ofNat 9 p) (by omega) (by omega)
      have hchild : ∃ x, nd.child x = i := by
        rcases hor with h | h
        · exact ⟨false, BitVec.eq_of_toNat_eq h⟩
        · exact ⟨true, BitVec.eq_of_toNat_eq h⟩
      obtain ⟨x, rfl⟩ := hchild
      refine ⟨q ++ [x], ?_⟩
      rw [followIn_append hq]
      simp [followIn, hpn, hnd, hl]

/-- No path from the root is longer than `L' − 1` (R139). -/
theorem TreeBuilt.path_length (ok : TreeBuilt start t) (hleaves : ∀ nd ∈ start, nd.leaf = true)
    (h2 : 2 ≤ start.length) {p : List Bool} {j : NodeIdx}
    (h : followIn t.nodes t.root p = some j) : p.length + 1 ≤ start.length := by
  have hc := ok.count
  have hr := ok.root
  rcases followIn_length (ok.descends hleaves) (ok.internal_from hleaves) h with rfl | h
  · simp; omega
  · omega

end Built

/-! ### The state with a tree installed -/

section Installed

variable {s : State} {t : Tree}

theorem installTree_readNode (h : t.nodes.length ≤ 511) {i : NodeIdx} (hi : i.toNat < t.nodes.length) :
    (s.installTree t).readNode i = t.nodes[i.toNat]? := by
  rw [State.readNode_of_lt (show i.toNat < NODE_MAX by unfold NODE_MAX; omega)]
  simp [List.getD_eq_getElem?_getD, hi]

theorem installTree_nodeCount_toNat (h : t.nodes.length ≤ 511) : (s.installTree t).nodeCount.toNat = t.nodes.length := by
  simp; omega

/-- A path in the builder's nodes is a path in node RAM. -/
theorem installTree_follow (h : t.nodes.length ≤ 511) {i j : NodeIdx} {p : List Bool}
    (hp : followIn t.nodes i p = some j) : (s.installTree t).follow i p = some j := by
  induction p generalizing i with
  | nil => simpa [followIn, State.follow] using hp
  | cons x p ih =>
    simp only [followIn] at hp
    split at hp
    · cases hp
    · rename_i nd hnd
      split at hp
      · cases hp
      · rename_i hl
        have hi := (List.getElem?_eq_some_iff.mp hnd).1
        simp only [State.follow, installTree_readNode (s := s) h hi, hnd, hl]
        exact ih hp

theorem installTree_isChild (h : t.nodes.length ≤ 511) (i p : NodeIdx) :
    (s.installTree t).IsChild i p ↔ ChildIn t.nodes i.toNat p.toNat := by
  unfold State.IsChild ChildIn
  rw [installTree_nodeCount_toNat h]
  constructor
  · rintro ⟨hp, nd, hnd, hl, hor⟩
    rw [installTree_readNode h hp] at hnd
    exact ⟨nd, hnd, hl, by rcases hor with rfl | rfl <;> simp⟩
  · rintro ⟨nd, hnd, hl, hor⟩
    have hp := (List.getElem?_eq_some_iff.mp hnd).1
    refine ⟨hp, nd, by rw [installTree_readNode h hp, hnd], hl, ?_⟩
    simpa [BitVec.toNat_inj] using hor

theorem installTree_readCode (b : Byte) :
    (s.installTree t).readCode b = codeEntry s.draws (visit t.nodes t.nodes.length t.root []) b.toNat := by
  simp [State.readCode, deriveCodes]

end Installed

/-! ### The leaves (R132, R133) -/

theorem startNodes_real {leaves : List Node} {k : Nat} (h : k < leaves.length) : (startNodes leaves)[k]? = leaves[k]? := by
  rw [startNodes_eq]
  split
  · rw [List.getElem?_append_left h]
  · rfl

theorem startNodes_placeholder {leaves : List Node} {k : Nat} (h : leaves.length ≤ k) {nd : Node}
    (hnd : (startNodes leaves)[k]? = some nd) : nd = placeholder := by
  rw [startNodes_eq] at hnd
  split at hnd
  · rw [List.getElem?_append_right h] at hnd
    have := List.mem_of_getElem? hnd
    simpa using this
  · rw [List.getElem?_eq_none h] at hnd; cases hnd

/-- A leaf of the scan carries a byte, and that byte has a positive frequency. -/
theorem scanLeaves_mem {freq : Vector Count ALPHABET} {nd : Node} (h : nd ∈ scanLeaves freq) :
    ∃ b : Byte, nd = leafNode ((freq[b.toNat]'b.isLt).setWidth 33) (b.setWidth 9) ∧ freq[b.toNat]'b.isLt ≠ 0 := by
  rw [scanLeaves_eq, mem_scanFrom] at h
  obtain ⟨j, hj, h0, rfl⟩ := h
  have hj' : j < 256 := by simpa using hj
  have hb : (BitVec.ofNat 8 j).toNat = j := by rw [BitVec.toNat_ofNat]; omega
  refine ⟨BitVec.ofNat 8 j, ?_, by simpa [hb] using h0⟩
  congr 1
  · simp [hb]
  · apply BitVec.eq_of_toNat_eq
    simp; omega

/-- Every byte with a positive frequency has its leaf (R132). -/
theorem mem_scanLeaves {freq : Vector Count ALPHABET} (b : Byte) (h : freq[b.toNat]'b.isLt ≠ 0) :
    leafNode ((freq[b.toNat]'b.isLt).setWidth 33) (b.setWidth 9) ∈ scanLeaves freq := by
  rw [scanLeaves_eq, mem_scanFrom]
  refine ⟨b.toNat, by simpa using b.isLt, by simpa using h, ?_⟩
  congr 1
  apply BitVec.eq_of_toNat_eq
  have := b.isLt
  simp

theorem byte_setWidth_toNat (b : Byte) : (b.setWidth 9).toNat = b.toNat := by
  have := b.isLt
  rw [BitVec.toNat_setWidth]; exact Nat.mod_eq_of_lt (by omega)

theorem sentinel_toNat : SENTINEL.toNat = 256 := rfl

theorem byte_ne_sentinel (b : Byte) : b.setWidth 9 ≠ SENTINEL := fun h => by
  have := congrArg BitVec.toNat h
  rw [byte_setWidth_toNat, sentinel_toNat] at this
  have := b.isLt
  omega

theorem leafNode_byte (w : Weight) (b : Byte) : (leafNode w (b.setWidth 9)).byte = b := by
  show (b.setWidth 9).extractLsb' 0 8 = b
  clear w; revert b; decide

end Sys2Proof.Machine
end

