-- ==== Sys2Proof/Laws/Built.lean ====
section
/-! SUPPORT. The state `BUILD` leaves has the tree invariants (R31, R32, R132–R134), the code-table invariants (R34) and the
walker invariants (R35), and its queue is empty (R36). -/

namespace Sys2Proof.Machine

/-- The builder's weights fit in `NW` bits when the counts are as R29 says (R141). -/
theorem startNodes_weight_fits {s : State} (h : s.CountsOk) :
    weightSum (startNodes (scanLeaves s.freq)) < 2 ^ s.cfg.NW := by
  have h1 := startNodes_weightSum (scanLeaves s.freq)
  have h2 : weightSum (scanLeaves s.freq) = s.freqSum := by rw [scanLeaves_eq, scanFrom_weightSum]; rfl
  have h3 := Config.maxCount_lt s.cfg
  have h4 := Config.pow_NW s.cfg
  have h5 : ((scanLeaves s.freq).length == 1).toNat ≤ 1 := Bool.toNat_le _
  obtain ⟨h6, h7⟩ := h
  omega

/-- With no positive frequency the state has no tree (R135). -/
theorem installTree_empty_ok (s : State) :
    (s.installTree Tree.empty).TreeOk ∧ (s.installTree Tree.empty).CodesOk ∧ (s.installTree Tree.empty).WalkerOk ∧
      (s.installTree Tree.empty).pq = [] := by
  have hn : (s.installTree Tree.empty).nodeCount.toNat = 0 := by simp [Tree.empty]
  have hcode : ∀ b, (s.installTree Tree.empty).readCode b = noCode s.draws b.toNat := fun b => by
    rw [installTree_readCode]; simp [Tree.empty, visit, codeEntry]
  refine ⟨{ regs := ?_, nodes := ?_, layout := ?_ }, ?_, ?_, rfl⟩
  · exact { leaves_le := by simp [Tree.empty], degen_iff := by simp [Tree.empty], root_nil_iff := by simp [Tree.empty]
            no_tree := fun _ => hn, tree := fun h => absurd rfl h }
  · exact { leaf_iff := fun i nd h => by omega, internal := fun i nd h => by omega
            byte_leaf := fun i nd h => by omega, one_parent := fun i h => by omega }
  · exact { leaf_index := fun i nd h => by omega, byte_index := fun i nd h => by omega
            sentinel := fun i nd h => by omega
            ascending := fun i j a b _ h => by simp [Tree.empty] at h }
  · refine { valid_iff := fun b => ?_, path := fun b h => ?_, len_pos := fun b h => ?_, len_zero := fun b _ => ?_ }
    · rw [hcode]
      constructor
      · intro h; simp [noCode] at h
      · rintro ⟨i, hi, -⟩; omega
    · rw [hcode] at h; simp [noCode] at h
    · rw [hcode] at h; simp [noCode] at h
    · rw [hcode]; rfl
  · exact { no_tree := fun _ => ⟨rfl, rfl⟩, depth_le := by simp, on_path := fun h => absurd rfl h
            internal := fun h => absurd rfl h }

section Tree

variable {s : State} {t : Tree} {leaves : List Node}

/-- What the leaves of a scan are, as far as the tree goes. -/
structure LeavesOk (leaves : List Node) : Prop where
  pos : leaves.length ≠ 0
  le : leaves.length ≤ 256
  byte : ∀ nd ∈ leaves, ∃ (w : Weight) (b : Byte), nd = leafNode w (b.setWidth 9)
  ascending : leaves.Pairwise fun a b => a.sym.toNat < b.sym.toNat

theorem scanLeaves_ok {freq : Vector Count ALPHABET} (h : (scanLeaves freq).length ≠ 0) : LeavesOk (scanLeaves freq) where
  pos := h
  le := scanLeaves_length_le freq
  byte := fun _ hnd => by
    obtain ⟨b, rfl, -⟩ := scanLeaves_mem hnd
    exact ⟨_, b, rfl⟩
  ascending := scanFrom_ascending _ _ (by simp [ALPHABET])

theorem LeavesOk.leaf (h : LeavesOk leaves) : ∀ nd ∈ startNodes leaves, nd.leaf = true :=
  startNodes_leaf fun nd hnd => by obtain ⟨w, b, rfl⟩ := h.byte nd hnd; rfl

theorem LeavesOk.start_le (h : LeavesOk leaves) : 2 ≤ (startNodes leaves).length ∧ (startNodes leaves).length ≤ 256 := by
  have h1 := h.pos
  have h2 := h.le
  rw [startNodes_length]
  by_cases h3 : leaves.length = 1
  · rw [h3]; decide
  · rw [beq_eq_false_iff_ne.mpr h3, Bool.toNat_false]; omega

/-- What the builder hands over about the leaves. -/
structure LeavesIn (leaves : List Node) (t : Tree) : Prop where
  ok : LeavesOk leaves
  built : TreeBuilt (startNodes leaves) t
  leaves_eq : t.leaves = BitVec.ofNat 9 leaves.length
  degen_eq : t.degen = (leaves.length == 1)

theorem LeavesIn.length_le (h : LeavesIn leaves t) : t.nodes.length ≤ 511 := by
  have := h.built.count
  have := h.ok.start_le
  omega

theorem LeavesIn.leaves_toNat (h : LeavesIn leaves t) : t.leaves.toNat = leaves.length := by
  have := h.ok.le
  rw [h.leaves_eq, BitVec.toNat_ofNat]; omega

theorem LeavesIn.leafCount (h : LeavesIn leaves t) : (s.installTree t).leafCount = (startNodes leaves).length := by
  simp only [State.leafCount, State.installTree_leaves, State.installTree_degen, h.leaves_toNat, h.degen_eq,
    startNodes_length]

/-- What node `k` of the tree is: a real leaf, the placeholder, or an internal node (R132–R134). -/
theorem LeavesIn.node_cases (h : LeavesIn leaves t) {k : Nat} {nd : Node} (hnd : t.nodes[k]? = some nd) :
    (k < leaves.length ∧ leaves[k]? = some nd ∧ ∃ (w : Weight) (b : Byte), nd = leafNode w (b.setWidth 9)) ∨
    (leaves.length ≤ k ∧ k < (startNodes leaves).length ∧ nd = placeholder) ∨
    ((startNodes leaves).length ≤ k ∧ nd.leaf = false ∧ nd.sym = SENTINEL) := by
  rcases Nat.lt_or_ge k (startNodes leaves).length with hk | hk
  · have hs : (startNodes leaves)[k]? = some nd := by
      rw [h.built.start_at hk] at hnd
      rw [List.getElem?_eq_getElem hk, hnd]
    rcases Nat.lt_or_ge k leaves.length with hk' | hk'
    · rw [startNodes_real hk'] at hs
      exact .inl ⟨hk', hs, h.ok.byte nd (List.mem_of_getElem? hs)⟩
    · exact .inr (.inl ⟨hk', hk, startNodes_placeholder hk' hs⟩)
  · obtain ⟨h1, h2, -⟩ := h.built.internal k nd hk hnd
    exact .inr (.inr ⟨hk, h1, h2⟩)

theorem LeavesIn.leaves_le_start (_h : LeavesIn leaves t) : leaves.length ≤ (startNodes leaves).length := by
  rw [startNodes_length]; omega

theorem LeavesIn.read (h : LeavesIn leaves t) {i : NodeIdx} {nd : Node}
    (hi : i.toNat < (s.installTree t).nodeCount.toNat) (hnd : (s.installTree t).readNode i = some nd) :
    i.toNat < t.nodes.length ∧ t.nodes[i.toNat]? = some nd := by
  rw [installTree_nodeCount_toNat h.length_le] at hi
  rw [installTree_readNode h.length_le hi] at hnd
  exact ⟨hi, hnd⟩

theorem LeavesIn.regs (h : LeavesIn leaves t) : (s.installTree t).TreeRegsOk := by
  have hc := h.built.count
  have hr := h.built.root
  have hs := h.ok.start_le
  have hlt := h.leaves_toNat
  have hp := h.ok.pos
  have hle := h.ok.le
  refine { leaves_le := by simpa [hlt] using hle, degen_iff := by simp [hlt, h.degen_eq]
           root_nil_iff := ?_, no_tree := ?_, tree := fun _ => ?_ }
  · simp only [State.installTree_root, State.installTree_leaves, hlt]
    constructor
    · intro h1
      have : t.root.toNat = 511 := by rw [h1]; rfl
      omega
    · intro h1; omega
  · intro h1
    simp only [State.installTree_leaves, hlt] at h1
    omega
  · rw [installTree_nodeCount_toNat h.length_le, h.leafCount]
    exact ⟨by omega, by simpa using hr⟩

theorem LeavesIn.nodes (h : LeavesIn leaves t) : (s.installTree t).NodesOk := by
  have hlen := h.length_le
  refine { leaf_iff := ?_, internal := ?_, byte_leaf := ?_, one_parent := ?_ }
  · intro i nd hi hnd
    obtain ⟨hi', hnd'⟩ := h.read hi hnd
    rcases h.node_cases hnd' with ⟨-, -, w, b, rfl⟩ | ⟨-, -, rfl⟩ | ⟨hk, hl, hsym⟩
    · simp [leafNode]
    · simp [placeholder, leafNode]
    · obtain ⟨-, -, h3, -⟩ := h.built.internal _ nd hk hnd'
      simp only [hl, Bool.false_eq_true, false_iff, not_and]
      intro h1
      have : nd.left.toNat = 511 := by rw [h1]; rfl
      omega
  · intro i nd hi hnd hl
    obtain ⟨hi', hnd'⟩ := h.read hi hnd
    have hk := h.built.internal_from h.ok.leaf _ nd hnd' hl
    obtain ⟨-, -, h3, h4, h5, l, r, hlc, hrc, hw⟩ := h.built.internal _ nd hk hnd'
    refine ⟨h3, h4, h5, l, r, ?_, ?_, hw⟩
    · rw [installTree_readNode hlen (by omega), hlc]
    · rw [installTree_readNode hlen (by omega), hrc]
  · intro i nd hi hnd hsym
    obtain ⟨hi', hnd'⟩ := h.read hi hnd
    rcases h.node_cases hnd' with ⟨-, -, w, b, rfl⟩ | ⟨-, -, rfl⟩ | ⟨hk, hl, hs⟩
    · rfl
    · rfl
    · rw [hs, sentinel_toNat] at hsym; omega
  · intro i hi hne
    rw [installTree_nodeCount_toNat hlen] at hi
    obtain ⟨p, hp, huniq⟩ := h.built.parent i hi hne
    have hplt : p < t.nodes.length := by
      obtain ⟨nd, hnd, -⟩ := hp; exact (List.getElem?_eq_some_iff.mp hnd).1
    have hpn : (BitVec.ofNat 9 p).toNat = p := by rw [BitVec.toNat_ofNat]; exact Nat.mod_eq_of_lt (by omega)
    refine ⟨BitVec.ofNat 9 p, ?_, fun q hq => ?_⟩
    · simp only [installTree_isChild hlen, hpn]; exact hp
    · replace hq := (installTree_isChild hlen i q).mp hq
      exact BitVec.eq_of_toNat_eq (by rw [hpn]; exact huniq _ hq)

theorem LeavesIn.layout (h : LeavesIn leaves t) : (s.installTree t).LayoutOk := by
  have hlt := h.leaves_toNat
  have hls := h.leaves_le_start
  refine { leaf_index := ?_, byte_index := ?_, sentinel := ?_, ascending := ?_ }
  · intro i nd hi hnd
    obtain ⟨hi', hnd'⟩ := h.read hi hnd
    rw [h.leafCount]
    rcases h.node_cases hnd' with ⟨hk, -, w, b, rfl⟩ | ⟨-, hk, rfl⟩ | ⟨hk, hl, hs⟩
    · simp [leafNode]; omega
    · simpa [placeholder, leafNode] using hk
    · simpa [hl] using hk
  · intro i nd hi hnd
    obtain ⟨hi', hnd'⟩ := h.read hi hnd
    simp only [State.installTree_leaves, hlt]
    rcases h.node_cases hnd' with ⟨hk, -, w, b, rfl⟩ | ⟨hk, -, rfl⟩ | ⟨hk, hl, hs⟩
    · have := b.isLt
      simp only [leafNode, byte_setWidth_toNat]; omega
    · simp only [placeholder, leafNode, sentinel_toNat]; omega
    · rw [hs, sentinel_toNat]; omega
  · intro i nd hi hnd
    obtain ⟨hi', hnd'⟩ := h.read hi hnd
    simp only [State.installTree_leaves, hlt]
    rcases h.node_cases hnd' with ⟨hk, -, w, b, rfl⟩ | ⟨hk, -, rfl⟩ | ⟨hk, hl, hs⟩
    · simp only [leafNode, byte_ne_sentinel, false_iff]; omega
    · simp only [placeholder, leafNode, true_iff]; exact hk
    · simp only [hs, true_iff]; omega
  · intro i j a b hij hj ha hb
    simp only [State.installTree_leaves, hlt] at hj
    have hcount := h.built.count
    have hstart := h.ok.start_le
    have hi' : i.toNat < leaves.length := by omega
    rw [installTree_readNode h.length_le (by omega), h.built.start_at (by omega)] at ha
    rw [installTree_readNode h.length_le (by omega), h.built.start_at (by omega)] at hb
    have hp := List.pairwise_iff_getElem.mp h.ok.ascending i.toNat j.toNat hi' hj hij
    have e1 : (startNodes leaves)[i.toNat]? = some leaves[i.toNat] := by
      rw [startNodes_real hi', List.getElem?_eq_getElem hi']
    have e2 : (startNodes leaves)[j.toNat]? = some leaves[j.toNat] := by
      rw [startNodes_real hj, List.getElem?_eq_getElem hj]
    rw [List.getElem?_eq_getElem (by omega), ha] at e1
    rw [List.getElem?_eq_getElem (by omega), hb] at e2
    cases e1; cases e2
    exact hp

/-- The traversal's records (R136): a byte with a path, exactly when its leaf lies in the tree at the end of the path. -/
theorem LeavesIn.mem_records (h : LeavesIn leaves t) (b : Byte) (p : List Bool) :
    (b, p) ∈ visit t.nodes t.nodes.length t.root [] ↔
      ∃ j w, followIn t.nodes t.root p = some j ∧ t.nodes[j.toNat]? = some (leafNode w (b.setWidth 9)) := by
  have hr := h.built.root
  rw [mem_visit (h.built.descends h.ok.leaf) _ _ _ _ _ (by omega)]
  constructor
  · rintro ⟨q, j, nd, rfl, hq, hnd, hl, hs, rfl⟩
    rcases h.node_cases hnd with ⟨-, -, w, b, rfl⟩ | ⟨-, -, rfl⟩ | ⟨-, hl', -⟩
    · exact ⟨j, w, by simpa using hq, by rw [leafNode_byte]; exact hnd⟩
    · exact absurd rfl hs
    · simp [hl] at hl'
  · rintro ⟨j, w, hq, hnd⟩
    exact ⟨p, j, _, by simp, hq, hnd, rfl, byte_ne_sentinel b, (leafNode_byte w b).symm⟩

theorem lookup_isSome_of_mem {l : List (Byte × List Bool)} {b : Byte} {p : List Bool} (h : (b, p) ∈ l) :
    ∃ q, l.lookup b = some q := by
  induction l with
  | nil => simp at h
  | cons x l ih =>
    obtain ⟨c, r⟩ := x
    rw [List.lookup_cons]
    by_cases hc : b = c
    · subst hc; exact ⟨r, by simp⟩
    · have : (b == c) = false := by simpa using hc
      rw [this]
      rcases List.mem_cons.mp h with h | h
      · cases h; exact absurd rfl hc
      · exact ih h

theorem mem_of_lookup {l : List (Byte × List Bool)} {b : Byte} {p : List Bool} (h : l.lookup b = some p) : (b, p) ∈ l := by
  induction l with
  | nil => simp at h
  | cons x l ih =>
    obtain ⟨c, r⟩ := x
    rw [List.lookup_cons] at h
    by_cases hc : b = c
    · subst hc; simp at h; simp [h]
    · have : (b == c) = false := by simpa using hc
      rw [this] at h
      exact List.mem_cons_of_mem _ (ih h)

/-- The code-table entry of a byte (R136): its path when its leaf lies in the tree, no code otherwise. -/
theorem LeavesIn.code_cases (h : LeavesIn leaves t) (b : Byte) :
    (∃ p j w, (s.installTree t).readCode b =
        { valid := true, len := BitVec.ofNat 8 p.length, bits := codeBits s.draws b.toNat p } ∧
      p ≠ [] ∧ p.length ≤ CODE_MAX ∧ followIn t.nodes t.root p = some j ∧
      t.nodes[j.toNat]? = some (leafNode w (b.setWidth 9))) ∨
    ((s.installTree t).readCode b = noCode s.draws b.toNat ∧ ∀ (j : NodeIdx) w,
      t.nodes[j.toNat]? ≠ some (leafNode w (b.setWidth 9))) := by
  have hb : BitVec.ofNat 8 b.toNat = b := by simp
  rw [installTree_readCode]
  unfold codeEntry
  rw [hb]
  cases hl : (visit t.nodes t.nodes.length t.root []).lookup b with
  | some p =>
    left
    obtain ⟨j, w, hq, hnd⟩ := (h.mem_records b p).mp (mem_of_lookup hl)
    have hp := h.built.path_length h.ok.leaf h.ok.start_le.1 hq
    refine ⟨p, j, w, rfl, ?_, by have := h.ok.start_le; unfold CODE_MAX; omega, hq, hnd⟩
    rintro rfl
    simp only [followIn, Option.some.injEq] at hq
    subst hq
    have := h.built.root
    have := h.built.count
    have := h.ok.start_le
    obtain ⟨h1, -⟩ := h.built.internal _ _ (by omega) hnd
    simp [leafNode] at h1
  | none =>
    right
    refine ⟨rfl, fun j w hnd => ?_⟩
    have hj := (List.getElem?_eq_some_iff.mp hnd).1
    obtain ⟨p, hp⟩ := h.built.reachable h.ok.leaf h.ok.start_le.2 j hj
    obtain ⟨q, hq⟩ := lookup_isSome_of_mem ((h.mem_records b p).mpr ⟨j, w, hp, hnd⟩)
    simp [hl] at hq

theorem entry_path (draw sym : Nat) (p : List Bool) (h : p.length ≤ CODE_MAX) :
    ({ valid := true, len := BitVec.ofNat 8 p.length, bits := codeBits draw sym p } : CodeEntry).path = p := by
  have h' : p.length % 2 ^ 8 = p.length := Nat.mod_eq_of_lt (by unfold CODE_MAX at h; omega)
  simp only [CodeEntry.path, BitVec.toNat_ofNat, h']
  exact codeBits_take draw sym p h

theorem LeavesIn.isLeafOf (h : LeavesIn leaves t) (b : Byte) (j : NodeIdx) :
    (s.installTree t).IsLeafOf b j ↔ ∃ w, t.nodes[j.toNat]? = some (leafNode w (b.setWidth 9)) := by
  constructor
  · rintro ⟨hj, nd, hnd, hl, hs⟩
    obtain ⟨hj', hnd'⟩ := h.read hj hnd
    rcases h.node_cases hnd' with ⟨-, -, w, c, rfl⟩ | ⟨-, -, rfl⟩ | ⟨-, hl', -⟩
    · have : c.setWidth 9 = b.setWidth 9 := hs
      exact ⟨w, by rw [hnd', this]⟩
    · exact absurd hs.symm (byte_ne_sentinel b)
    · simp [hl] at hl'
  · rintro ⟨w, hnd⟩
    have hj := (List.getElem?_eq_some_iff.mp hnd).1
    exact ⟨by rw [installTree_nodeCount_toNat h.length_le]; exact hj, _,
      by rw [installTree_readNode h.length_le hj, hnd], rfl, rfl⟩

theorem LeavesIn.codes (h : LeavesIn leaves t) : (s.installTree t).CodesOk := by
  refine { valid_iff := fun b => ?_, path := fun b hv => ?_, len_pos := fun b hv => ?_, len_zero := fun b hv => ?_ }
  · rcases h.code_cases (s := s) b with ⟨p, j, w, hc, -, -, hq, hnd⟩ | ⟨hc, hno⟩
    · rw [hc]
      exact ⟨fun _ => ⟨j, (h.isLeafOf b j).mpr ⟨w, hnd⟩⟩, fun _ => rfl⟩
    · rw [hc]
      refine ⟨fun hv => by simp [noCode] at hv, fun ⟨j, hj⟩ => ?_⟩
      obtain ⟨w, hnd⟩ := (h.isLeafOf b j).mp hj
      exact absurd hnd (hno j w)
  · rcases h.code_cases (s := s) b with ⟨p, j, w, hc, -, hle, hq, hnd⟩ | ⟨hc, hno⟩
    · rw [hc, entry_path _ _ _ hle]
      exact ⟨j, installTree_follow h.length_le hq, (h.isLeafOf b j).mpr ⟨w, hnd⟩⟩
    · rw [hc] at hv; simp [noCode] at hv
  · rcases h.code_cases (s := s) b with ⟨p, j, w, hc, hne, hle, hq, hnd⟩ | ⟨hc, hno⟩
    · rw [hc]
      have := List.length_pos_iff.mpr hne
      unfold CODE_MAX at hle
      simp only [BitVec.toNat_ofNat]
      rw [Nat.mod_eq_of_lt (by omega)]
      exact this
    · rw [hc] at hv; simp [noCode] at hv
  · rcases h.code_cases (s := s) b with ⟨p, j, w, hc, -⟩ | ⟨hc, hno⟩
    · rw [hc] at hv; simp at hv
    · rw [hc]; rfl

theorem LeavesIn.walker (h : LeavesIn leaves t) : (s.installTree t).WalkerOk := by
  have hr := h.built.root
  have hc := h.built.count
  have hs := h.ok.start_le
  have hle := h.length_le
  refine { no_tree := fun hn => ?_, depth_le := by simp, on_path := fun _ => ⟨[], rfl, rfl⟩, internal := fun _ => ?_ }
  · have : t.root.toNat = 511 := by
      have hn : t.root = NIL := hn
      rw [hn]; rfl
    omega
  · have hlt : t.root.toNat < t.nodes.length := by omega
    refine ⟨by rw [installTree_nodeCount_toNat hle]; exact hlt, t.nodes[t.root.toNat], ?_, ?_⟩
    · rw [State.installTree_cur, installTree_readNode hle hlt, List.getElem?_eq_getElem hlt]
    · exact (h.built.internal _ _ (by omega) (List.getElem?_eq_getElem hlt)).1

end Tree

/-- The leaves and the tree of a table with a positive frequency. -/
theorem leavesIn_buildTree {s : State} (hc : s.CountsOk) (h : (scanLeaves s.freq).length ≠ 0) :
    LeavesIn (scanLeaves s.freq) (buildTree s.cfg s.freq) := by
  obtain ⟨h1, h2, h3⟩ := buildTree_spec (c := s.cfg) h (startNodes_weight_fits hc)
  exact ⟨scanLeaves_ok h, h1, h2, h3⟩

/-- `BUILD` establishes the invariants of the tree, the code table, the walker and the queue (R130–R137). -/
theorem build_ok {s : State} (hc : s.CountsOk) :
    (s.installTree (buildTree s.cfg s.freq)).TreeOk ∧ (s.installTree (buildTree s.cfg s.freq)).CodesOk ∧
      (s.installTree (buildTree s.cfg s.freq)).WalkerOk ∧ (s.installTree (buildTree s.cfg s.freq)).pq = [] := by
  by_cases h : (scanLeaves s.freq).length = 0
  · rw [buildTree_empty h]
    exact installTree_empty_ok s
  · have hl := leavesIn_buildTree hc h
    exact ⟨⟨hl.regs, hl.nodes, hl.layout⟩, hl.codes, hl.walker, hl.built.queue⟩

/-- After `BUILD` every byte that was counted has a code (R222). -/
theorem build_code_of_freq {s : State} (hc : s.CountsOk) (b : Byte) (h : s.readFreq b ≠ 0) :
    ((s.installTree (buildTree s.cfg s.freq)).readCode b).valid = true := by
  have hm := mem_scanLeaves (freq := s.freq) b h
  have hn : (scanLeaves s.freq).length ≠ 0 := by
    have := List.length_pos_of_mem hm; omega
  have hl := leavesIn_buildTree hc hn
  obtain ⟨k, hk, hkn⟩ := List.mem_iff_getElem.mp hm
  have hks : k < (startNodes (scanLeaves s.freq)).length := by have := hl.leaves_le_start; omega
  have hk9 : (BitVec.ofNat 9 k).toNat = k := by
    have := hl.ok.le
    rw [BitVec.toNat_ofNat]; exact Nat.mod_eq_of_lt (by omega)
  refine (hl.codes.valid_iff b).mpr ⟨BitVec.ofNat 9 k, (hl.isLeafOf b _).mpr ⟨(s.readFreq b).setWidth 33, ?_⟩⟩
  have e : (startNodes (scanLeaves s.freq))[k]? = some (scanLeaves s.freq)[k] := by
    rw [startNodes_real hk, List.getElem?_eq_getElem hk]
  rw [List.getElem?_eq_getElem hks] at e
  rw [hk9, hl.built.start_at hks, e, hkn]
  rfl

end Sys2Proof.Machine
end

