-- ==== Sys2Proof/Laws/Decode.lean ====
section
/-! SUPPORT. The fields of a packed word, the opcode map both ways, and the selectors both ways. -/

namespace Sys2Proof

/-- The bits of a packed word (R81). -/
theorem getLsbD_packWord (o : BitVec 8) (r : BitVec 15) (y : BitVec 9) (d : BitVec 32) (k : Nat) :
    (packWord o r y d).getLsbD k =
      if k < 32 then d.getLsbD k
      else if k < 41 then y.getLsbD (k - 32)
      else if k < 56 then r.getLsbD (k - 41)
      else o.getLsbD (k - 56) := by
  have h1 : (packWord o r y d).getLsbD k = if k < 32 then d.getLsbD k else (o ++ r ++ y).getLsbD (k - 32) :=
    BitVec.getLsbD_append
  have h2 : (o ++ r ++ y).getLsbD (k - 32) = if k - 32 < 9 then y.getLsbD (k - 32) else (o ++ r).getLsbD (k - 32 - 9) :=
    BitVec.getLsbD_append
  have h3 : (o ++ r).getLsbD (k - 32 - 9) =
      if k - 32 - 9 < 15 then r.getLsbD (k - 32 - 9) else o.getLsbD (k - 32 - 9 - 15) := BitVec.getLsbD_append
  rw [h1, h2, h3]
  have e1 : k - 32 - 9 = k - 41 := by omega
  have e2 : k - 41 - 15 = k - 56 := by omega
  rw [e1, e2]
  by_cases c1 : k < 32
  · simp [c1]
  · by_cases c2 : k < 41
    · simp [c1, c2, show k - 32 < 9 by omega]
    · by_cases c3 : k < 56
      · simp [c1, c2, c3, show ¬ k - 32 < 9 by omega, show k - 41 < 15 by omega]
      · simp [c1, c2, c3, show ¬ k - 32 < 9 by omega, show ¬ k - 41 < 15 by omega]

@[simp] theorem opcField_packWord (o : BitVec 8) (r : BitVec 15) (y : BitVec 9) (d : BitVec 32) :
    opcField (packWord o r y d) = o := by
  apply BitVec.eq_of_getLsbD_eq
  intro i hi
  rw [opcField, BitVec.getLsbD_extractLsb', getLsbD_packWord, if_neg (by omega), if_neg (by omega), if_neg (by omega)]
  simp [hi]

@[simp] theorem rsvField_packWord (o : BitVec 8) (r : BitVec 15) (y : BitVec 9) (d : BitVec 32) :
    rsvField (packWord o r y d) = r := by
  apply BitVec.eq_of_getLsbD_eq
  intro i hi
  rw [rsvField, BitVec.getLsbD_extractLsb', getLsbD_packWord, if_neg (by omega), if_neg (by omega), if_pos (by omega)]
  simp [hi]

@[simp] theorem symField_packWord (o : BitVec 8) (r : BitVec 15) (y : BitVec 9) (d : BitVec 32) :
    symField (packWord o r y d) = y := by
  apply BitVec.eq_of_getLsbD_eq
  intro i hi
  rw [symField, BitVec.getLsbD_extractLsb', getLsbD_packWord, if_neg (by omega), if_pos (by omega)]
  simp [hi]

@[simp] theorem dataField_packWord (o : BitVec 8) (r : BitVec 15) (y : BitVec 9) (d : BitVec 32) :
    dataField (packWord o r y d) = d := by
  apply BitVec.eq_of_getLsbD_eq
  intro i hi
  rw [dataField, BitVec.getLsbD_extractLsb', getLsbD_packWord, if_pos (by omega)]
  simp [hi]

/-- A word is its four fields. -/
theorem packWord_fields (w : CmdWord) : packWord (opcField w) (rsvField w) (symField w) (dataField w) = w := by
  apply BitVec.eq_of_getLsbD_eq
  intro i hi
  rw [getLsbD_packWord]
  simp only [opcField, rsvField, symField, dataField, BitVec.getLsbD_extractLsb']
  split
  · simp_all
  · split
    · rw [show decide (i - 32 < 9) = true by simp; omega, show 32 + (i - 32) = i by omega]; simp
    · split
      · rw [show decide (i - 41 < 15) = true by simp; omega, show 41 + (i - 41) = i by omega]; simp
      · rw [show decide (i - 56 < 8) = true by simp; omega, show 56 + (i - 56) = i by omega]; simp

/-- Masking a word masks its fields. -/
theorem packWord_and (o p : BitVec 8) (r q : BitVec 15) (y z : BitVec 9) (d e : BitVec 32) :
    packWord o r y d &&& packWord p q z e = packWord (o &&& p) (r &&& q) (y &&& z) (d &&& e) := by
  apply BitVec.eq_of_getLsbD_eq
  intro k _
  rw [BitVec.getLsbD_and, getLsbD_packWord, getLsbD_packWord, getLsbD_packWord]
  split
  · rw [BitVec.getLsbD_and]
  · split
    · rw [BitVec.getLsbD_and]
    · split <;> rw [BitVec.getLsbD_and]

/-- Two words are equal exactly when their fields are. -/
theorem packWord_inj {o p : BitVec 8} {r q : BitVec 15} {y z : BitVec 9} {d e : BitVec 32} :
    packWord o r y d = packWord p q z e ↔ o = p ∧ r = q ∧ y = z ∧ d = e := by
  constructor
  · intro h
    refine ⟨?_, ?_, ?_, ?_⟩
    · simpa using congrArg opcField h
    · simpa using congrArg rsvField h
    · simpa using congrArg symField h
    · simpa using congrArg dataField h
  · rintro ⟨rfl, rfl, rfl, rfl⟩; rfl

/-- A form's mask of the fields below `OPC` (R82): the bits that must be 0. -/
def Form.fieldMask : Form → BitVec 15 × BitVec 9 × BitVec 32
  | .Z => (0x7FFF#15, 0x1FF#9, 0xFFFFFFFF#32)
  | .B => (0x7FFF#15, 0x100#9, 0xFFFFFFFF#32)
  | .BD => (0x7FFF#15, 0x100#9, 0#32)
  | .N => (0x7FFF#15, 0#9, 0xFFFFFFFC#32)

theorem Mnemonic.maskWord_eq (m : Mnemonic) :
    m.maskWord = packWord 0xFF#8 m.form.fieldMask.1 m.form.fieldMask.2.1 m.form.fieldMask.2.2 := by
  cases m <;> rfl

theorem Mnemonic.matchWord_eq (m : Mnemonic) : m.matchWord = packWord m.opc 0#15 0#9 0#32 := by
  cases m <;> rfl

@[simp] theorem Mnemonic.ofOpc_opc (m : Mnemonic) : Mnemonic.ofOpc m.opc = some m := by cases m <;> decide

theorem Mnemonic.ofOpc_eq_some {opc : BitVec 8} {m : Mnemonic} (h : Mnemonic.ofOpc opc = some m) : m.opc = opc := by
  have := List.find?_some h
  simpa using this

/-- No two rows of the opcode map share an opcode (R84). -/
theorem Mnemonic.opc_injective {m k : Mnemonic} (h : m.opc = k.opc) : m = k := by
  have := Mnemonic.ofOpc_opc m
  rw [h, Mnemonic.ofOpc_opc] at this
  exact (Option.some.inj this).symm

@[simp] theorem NodeSel.ofBits_bits (sel : NodeSel) : NodeSel.ofBits sel.bits = sel := by cases sel <;> decide

@[simp] theorem NodeSel.bits_ofBits (v : BitVec 2) : (NodeSel.ofBits v).bits = v := by revert v; decide

/-- Decoding a word given by its fields. -/
theorem decode_packWord (o : BitVec 8) (r : BitVec 15) (y : BitVec 9) (d : BitVec 32) :
    decode (packWord o r y d) = decodeFields o r y d := by simp [decode]

/-- What an accepted word looks like: its opcode is a row's, `RSV` is 0, the row's form accepts `SYM` and `DATA`, and the
command is the row's with the operands assembled from them (R86). -/
theorem decodeFields_eq_ok {o : BitVec 8} {r : BitVec 15} {y : BitVec 9} {d : BitVec 32} {i : Instr}
    (h : decodeFields o r y d = .ok i) :
    ∃ m, m.opc = o ∧ r = 0#15 ∧ m.form.check y d = none ∧ i = Instr.ofMnemonic m (operandsOf y d) := by
  unfold decodeFields at h
  split at h
  · cases h
  · split at h
    · cases h
    · split at h
      · cases h
      · rename_i m hm hr _ hc
        injection h with h
        exact ⟨m, Mnemonic.ofOpc_eq_some hm, by simpa using hr, hc, h.symm⟩

@[simp] theorem Instr.mnemonic_ofMnemonic (m : Mnemonic) (o : Operands) : (Instr.ofMnemonic m o).mnemonic = m := by
  cases m <;> rfl

@[simp] theorem byteSym_low (b : Byte) : (byteSym b).extractLsb' 0 8 = b := by revert b; decide

theorem byteSym_high (b : Byte) : (byteSym b).getLsbD 8 = false := by revert b; decide

@[simp] theorem byteSym_getElem_high (b : Byte) : (byteSym b)[8] = false := by revert b; decide

@[simp] theorem selData_low (sel : NodeSel) : (selData sel).extractLsb' 0 2 = sel.bits := by cases sel <;> decide

@[simp] theorem selData_high (sel : NodeSel) : (selData sel).extractLsb' 2 30 = 0#30 := by cases sel <;> decide

/-- A word of form Z from its fields (R82). -/
theorem formZ_eq (o : BitVec 8) : o ++ 0#56 = packWord o 0#15 0#9 0#32 := by revert o; decide

/-- A word of form BD from its fields, and of form B when `d` is 0 (R82). -/
theorem formBD_eq (o b : BitVec 8) (d : BitVec 32) : o ++ 0#16 ++ b ++ d = packWord o 0#15 (byteSym b) d := by
  apply BitVec.eq_of_getLsbD_eq
  intro k _
  have h1 : (o ++ 0#16 ++ b ++ d).getLsbD k = if k < 32 then d.getLsbD k else (o ++ 0#16 ++ b).getLsbD (k - 32) :=
    BitVec.getLsbD_append
  have h2 : (byteSym b).getLsbD (k - 32) = if k - 32 < 8 then b.getLsbD (k - 32) else (0#1).getLsbD (k - 32 - 8) :=
    BitVec.getLsbD_append
  rw [getLsbD_packWord, h1, h2]
  have e : k - 32 - 8 - 16 = k - 56 := by omega
  simp only [BitVec.getLsbD_append, BitVec.getLsbD_zero, e]
  split_ifs <;> first | rfl | omega

end Sys2Proof
end

