-- ==== Sys2Proof/Laws/PerInstr.lean ====
section
/-! SUPPORT. A statement about every command as syntax, one lemma per constructor: its word spells its own row of the
opcode map, by the row's match and mask (`spec/30_encoding.md` R84). -/

namespace Sys2Proof.Laws.RowSpelling

/-- The word of the command spells the command's row (R84). -/
def Statement (i : Instr) : Prop := spells i.mnemonic (encode i) = true

/-- A row is spelled when every bit its form requires to be 0 is 0. -/
theorem of_fields (i : Instr) (h1 : i.symOf &&& i.mnemonic.form.fieldMask.2.1 = 0#9)
    (h2 : i.dataOf &&& i.mnemonic.form.fieldMask.2.2 = 0#32) : Statement i := by
  unfold Statement spells encode
  rw [beq_iff_eq, Mnemonic.maskWord_eq, Mnemonic.matchWord_eq, packWord_and, h1, h2, BitVec.zero_and]
  congr 1
  generalize i.mnemonic.opc = o
  revert o; decide

/-- A byte operand leaves `SYM[8]` 0 (R82). -/
theorem byteSym_mask (b : Byte) : byteSym b &&& 0x100#9 = 0#9 := by revert b; decide

/-- A selector operand leaves `DATA[31:2]` 0 (R82). -/
theorem selData_mask (sel : NodeSel) : selData sel &&& 0xFFFFFFFC#32 = 0#32 := by cases sel <;> decide

theorem nop : Statement .nop := of_fields _ rfl rfl
theorem clr : Statement .clr := of_fields _ rfl rfl
theorem errclr : Statement .errclr := of_fields _ rfl rfl
theorem hist (b : Byte) : Statement (.hist b) := of_fields _ (byteSym_mask b) BitVec.zero_and
theorem wfreq (b : Byte) (d : BitVec 32) : Statement (.wfreq b d) := of_fields _ (byteSym_mask b) BitVec.and_zero
theorem rfreq (b : Byte) : Statement (.rfreq b) := of_fields _ (byteSym_mask b) BitVec.zero_and
theorem qtotal : Statement .qtotal := of_fields _ rfl rfl
theorem build : Statement .build := of_fields _ rfl rfl
theorem enc (b : Byte) : Statement (.enc b) := of_fields _ (byteSym_mask b) BitVec.zero_and
theorem qlen (b : Byte) : Statement (.qlen b) := of_fields _ (byteSym_mask b) BitVec.zero_and
theorem qbit (b : Byte) (d : BitVec 32) : Statement (.qbit b d) := of_fields _ (byteSym_mask b) BitVec.and_zero
theorem dec (b : Byte) : Statement (.dec b) := of_fields _ (byteSym_mask b) BitVec.zero_and
theorem dend : Statement .dend := of_fields _ rfl rfl
theorem qroot : Statement .qroot := of_fields _ rfl rfl
theorem qnode (n : NodeIdx) (sel : NodeSel) : Statement (.qnode n sel) :=
  of_fields _ BitVec.and_zero (selData_mask sel)
theorem qerr : Statement .qerr := of_fields _ rfl rfl

end Sys2Proof.Laws.RowSpelling
end

