-- ==== Sys2Proof/Laws/Step.lean ====
section
/-! SUPPORT. What a step and each command can do, said once: if it answers a next state, that state is one of these. -/

namespace Sys2Proof.Machine

/-- What a step can do (R25, R230, R250, R251): hold in reset, finish the reset, wait, accept a held word and run it, or accept
one and abandon it. -/
theorem step_next {s t : State} (h : step s = .next t) :
    ((s.rst = true ∨ s.rstRises = true ∧ (s.busy = true ∨ s.cmdIn = [])) ∧ t = s.holdReset) ∨
    (s.rstNow = .low ∧ s.busy = true ∧ t = s.finishReset) ∨
    (s.rstNow = .low ∧ s.busy = false ∧ s.cmdIn = [] ∧ t = s.tickRst) ∨
    (∃ w rest, s.rstNow = .low ∧ s.busy = false ∧ s.cmdIn = .held w :: rest ∧
      runWord w { s.tickRst with cmdIn := rest } = .next t) ∨
    ∃ w rest u, s.rstNow = .rises ∧ s.busy = false ∧ s.cmdIn = .held w :: rest ∧
      runWord w { s.tickRst with cmdIn := rest } = .next u ∧
      t = State.abandon { s.tickRst with cmdIn := rest } u := by
  unfold step advance at h
  have hr : s.rst = (s.rstNow == .high) := rfl
  have hi : s.rstRises = (s.rstNow == .rises) := rfl
  cases hn : s.rstNow with
  | high =>
    simp only [hn] at hr hi
    rw [hr] at h ⊢
    cases h
    exact .inl ⟨.inl rfl, rfl⟩
  | low =>
    simp only [hn] at hr hi
    rw [hr, hi] at h
    cases hb : s.busy with
    | true => rw [hb] at h; cases h; exact .inr (.inl ⟨rfl, rfl, rfl⟩)
    | false =>
      rw [hb] at h
      change acceptCommand s = .next t at h
      unfold acceptCommand at h
      split at h
      · rename_i hc; cases h; exact .inr (.inr (.inl ⟨rfl, rfl, hc, rfl⟩))
      · rename_i w rest hc; exact .inr (.inr (.inr (.inl ⟨w, rest, rfl, rfl, hc, h⟩)))
      · cases h
  | rises =>
    simp only [hn] at hr hi
    rw [hr, hi] at h
    cases hb : s.busy with
    | true => rw [hb] at h; cases h; exact .inl ⟨.inr ⟨by rw [hi]; rfl, .inl rfl⟩, rfl⟩
    | false =>
      rw [hb] at h
      change acceptAndAbandon s = .next t at h
      unfold acceptAndAbandon at h
      split at h
      · rename_i hc; cases h; exact .inl ⟨.inr ⟨by rw [hi]; rfl, .inr hc⟩, rfl⟩
      · rename_i w rest hc
        unfold abandonWord at h
        split at h
        · rename_i u hu; cases h; exact .inr (.inr (.inr (.inr ⟨w, rest, u, rfl, rfl, hc, hu, rfl⟩)))
        · cases h
        · cases h
      · cases h

/-- What an accepted word does (R86): its command, or `ILLEGAL_COMMAND`. -/
theorem runWord_next {w : CmdWord} {s t : State} (h : runWord w s = .next t) :
    (∃ i, decode w = .ok i ∧ exec i s = .next t) ∨
    (∃ r, decode w = .error r ∧ t = s.raise .illegalCommand (illegalInfo w)) := by
  unfold runWord at h
  split at h
  · exact .inl ⟨_, ‹_›, h⟩
  · exact .inr ⟨_, ‹_›, raiseError_next h⟩

/-- What `HIST` can do (R110). -/
theorem execHist_next {b : Byte} {s t : State} (h : execHist b s = .next t) :
    (s.err = true ∧ t = s) ∨
    (s.err = false ∧ s.total.toNat = s.cfg.maxCount ∧ t = s.raise .countOverflow (infoOfByte b)) ∨
    (s.err = false ∧ s.total.toNat ≠ s.cfg.maxCount ∧
      t = s.setCount b ((s.readFreq b).toNat + 1) (s.total.toNat + 1)) := by
  rcases unlessBlocked_next h with h | ⟨he, h⟩
  · exact .inl h
  · right
    split at h
    · exact .inl ⟨he, ‹_›, raiseError_next h⟩
    · cases h; exact .inr ⟨he, ‹_›, rfl⟩

/-- What `WFREQ` can do (R111). -/
theorem execWfreq_next {b : Byte} {d : BitVec 32} {s t : State} (h : execWfreq b d s = .next t) :
    (s.err = true ∧ t = s) ∨
    (s.err = false ∧ (s.cfg.maxCount : Int) < (s.total.toNat : Int) - (s.readFreq b).toNat + d.toNat ∧
      t = s.raise .countOverflow (infoOfByte b)) ∨
    (s.err = false ∧ ¬ (s.cfg.maxCount : Int) < (s.total.toNat : Int) - (s.readFreq b).toNat + d.toNat ∧
      t = s.setCount b d.toNat (((s.total.toNat : Int) - (s.readFreq b).toNat + d.toNat) % 2 ^ s.cfg.W).toNat) := by
  rcases unlessBlocked_next h with h | ⟨he, h⟩
  · exact .inl h
  · right
    simp only at h
    split at h
    · exact .inl ⟨he, ‹_›, raiseError_next h⟩
    · cases h; exact .inr ⟨he, ‹_›, rfl⟩

/-- What `BUILD` can do (R130). -/
theorem execBuild_next {s t : State} (h : execBuild s = .next t) :
    (s.err = true ∧ t = s) ∨ (s.err = false ∧ t = s.installTree (buildTree s.cfg s.freq)) := by
  rcases unlessBlocked_next h with h | ⟨he, h⟩
  · exact .inl h
  · cases h; exact .inr ⟨he, rfl⟩

/-- What `ENC` can do (R160). -/
theorem execEnc_next {b : Byte} {s t : State} (h : execEnc b s = .next t) :
    (s.err = true ∧ t = s) ∨
    (s.err = false ∧ (s.readCode b).valid = true ∧ t = s.emitEnc ((s.readCode b).path.map charOfBit)) ∨
    (s.err = false ∧ (s.readCode b).valid = false ∧ t = s.raise .lookup (infoOfByte b)) := by
  rcases unlessBlocked_next h with h | ⟨he, h⟩
  · exact .inl h
  · right
    split at h
    · cases h; exact .inl ⟨he, ‹_›, rfl⟩
    · rename_i hv; exact .inr ⟨he, Bool.eq_false_iff.mpr hv, raiseError_next h⟩

/-- What `QBIT` can do (R162). -/
theorem execQbit_next {b : Byte} {d : BitVec 32} {s t : State} (h : execQbit b d s = .next t) :
    ((s.readCode b).valid = true ∧ d.toNat < (s.readCode b).len.toNat ∧ ∃ v, t = s.setResult v) ∨
    (¬ ((s.readCode b).valid = true ∧ d.toNat < (s.readCode b).len.toNat) ∧ t = s.raise .queryRange d) := by
  unfold execQbit at h
  simp only at h
  split at h
  · rename_i hc; cases h; exact .inl ⟨hc.1, hc.2, _, rfl⟩
  · rename_i hc; exact .inr ⟨hc, raiseError_next h⟩

/-- What `QNODE` can do (R204). -/
theorem execQnode_next {n : NodeIdx} {sel : NodeSel} {s t : State} (h : execQnode n sel s = .next t) :
    (s.nodeCount.toNat ≤ n.toNat ∧ t = s.raise .queryRange (infoOfNode n)) ∨
    (n.toNat < s.nodeCount.toNat ∧ ∃ nd, s.readNode n = some nd ∧ t = s.setResult (nodeResult nd sel)) := by
  unfold execQnode at h
  split at h
  · exact .inl ⟨‹_›, raiseError_next h⟩
  · obtain ⟨nd, hnd, h⟩ := withNode_next h
    cases h
    exact .inr ⟨by omega, nd, hnd, rfl⟩

/-- What the walker's arrival can do (R180). -/
theorem arriveAt_next {nxt : NodeIdx} {nd : Node} {s t : State} (h : arriveAt nxt nd s = .next t) :
    (nd.leaf = true ∧ nd.sym = SENTINEL ∧ t = s.raise .placeholderLeaf (infoOfNode nxt)) ∨
    (nd.leaf = true ∧ nd.sym ≠ SENTINEL ∧ t = (s.emitDec nd.byte).walkerToRoot) ∨
    (nd.leaf = false ∧ t = s.walkerTo nxt) := by
  unfold arriveAt at h
  split at h
  · rename_i hl
    split at h
    · exact .inl ⟨hl, ‹_›, raiseError_next h⟩
    · cases h; exact .inr (.inl ⟨hl, ‹_›, rfl⟩)
  · rename_i hl; cases h; exact .inr (.inr ⟨Bool.eq_false_iff.mpr hl, rfl⟩)

/-- What `DEC` can do (R180, R182). -/
theorem execDec_next {b : Byte} {s t : State} (h : execDec b s = .next t) :
    (s.err = true ∧ t = s) ∨
    (s.err = false ∧ s.treeValid = false ∧ t = s.raise .noTree (infoOfByte b)) ∨
    (s.err = false ∧ s.treeValid = true ∧ bitOfChar b = none ∧ t = s.raise .invalidBit (infoOfByte b)) ∨
    ∃ x nd nx, s.err = false ∧ s.treeValid = true ∧ bitOfChar b = some x ∧ s.readNode s.cur = some nd ∧
      s.readNode (nd.child x) = some nx ∧ arriveAt (nd.child x) nx s = .next t := by
  rcases unlessBlocked_next h with h | ⟨he, h⟩
  · exact .inl h
  · right
    split at h
    · rename_i hv
      right
      unfold mux at h
      split at h
      · exact .inl ⟨he, hv, ‹_›, raiseError_next h⟩
      · rename_i x hx
        obtain ⟨nd, hnd, h⟩ := withNode_next h
        obtain ⟨nx, hnx, h⟩ := withNode_next h
        exact .inr ⟨x, nd, nx, he, hv, hx, hnd, hnx, h⟩
    · rename_i hv; exact .inl ⟨he, Bool.eq_false_iff.mpr hv, raiseError_next h⟩

/-- What `DEND` can do (R181). -/
theorem execDend_next {s t : State} (h : execDend s = .next t) :
    (s.err = true ∧ t = s) ∨
    (s.err = false ∧ t = ((s.setResult (s.depth.setWidth 64)).setPartial (s.depth != 0#8)).walkerToRoot) := by
  rcases unlessBlocked_next h with h | ⟨he, h⟩
  · exact .inl h
  · cases h; exact .inr ⟨he, rfl⟩

/-- What stays of an append-only log when a command is cut off (U14): what was there, and a prefix of what was to come. -/
theorem prefix_cut {l m : List Byte} (h : l <+: m) (n : Nat) :
    l <+: l ++ (m.drop l.length).take n ∧ l ++ (m.drop l.length).take n <+: m := by
  obtain ⟨x, rfl⟩ := h
  refine ⟨List.prefix_append _ _, ?_⟩
  rw [List.drop_left, List.prefix_append_right_inj]
  exact List.take_prefix n x

/-- The logs an abandoned command leaves (R250, U14). -/
theorem State.abandon_logs {s t : State} (he : s.encOut <+: t.encOut) (hd : s.decOut <+: t.decOut) :
    (s.encOut <+: (s.abandon t).encOut ∧ (s.abandon t).encOut <+: t.encOut) ∧
      (s.decOut <+: (s.abandon t).decOut ∧ (s.abandon t).decOut <+: t.decOut) :=
  ⟨prefix_cut he _, prefix_cut hd _⟩

/-- Executing a list of commands is executing its parts (R67). -/
theorem execAll_append (is js : List Instr) (s t : State) (h : execAll is s = .next t) :
    execAll (is ++ js) s = execAll js t := by
  induction is generalizing s with
  | nil => cases h; rfl
  | cons i is ih =>
    simp only [execAll, List.cons_append] at h ⊢
    split at h
    · exact ih _ h
    · cases h
    · cases h

end Sys2Proof.Machine
end

