-- ==== Sys2Proof/Laws/Walker.lean ====
section
/-! SUPPORT. The walker (`spec/10_state.md` R35, `spec/43_decoder.md` R180): paths compose and go down, the root of a tree is
internal, and what the characters of a path do. -/

namespace Sys2Proof.Machine

theorem State.follow_append {s : State} {i j : NodeIdx} {p : List Bool} (h : s.follow i p = some j) (q : List Bool) :
    s.follow i (p ++ q) = s.follow j q := by
  induction p generalizing i with
  | nil => simp only [State.follow, Option.some.injEq] at h; subst h; rfl
  | cons x p ih =>
    simp only [State.follow, List.cons_append] at h ⊢
    split at h
    · cases h
    · split at h
      · cases h
      · rename_i hl
        simp only [hl]
        exact ih h

/-- Paths depend on node RAM alone. -/
theorem State.follow_congr {s t : State} (h : s.node = t.node) (i : NodeIdx) (p : List Bool) : s.follow i p = t.follow i p := by
  induction p generalizing i with
  | nil => rfl
  | cons x p ih => simp only [State.follow, State.readNode_congr h, ih]

/-- The number of leaves and the place of the root when there is a tree (R139). -/
theorem State.TreeOk.sizes {s : State} (ht : s.TreeOk) (hr : s.root ≠ NIL) :
    2 ≤ s.leafCount ∧ s.leafCount ≤ 256 ∧ s.nodeCount.toNat + 1 = 2 * s.leafCount ∧
      s.root.toNat + 1 = s.nodeCount.toNat := by
  have hl : s.leaves.toNat ≠ 0 := fun h => hr (ht.regs.root_nil_iff.mpr h)
  obtain ⟨h1, h2⟩ := ht.regs.tree hl
  have hle := ht.regs.leaves_le
  refine ⟨?_, ?_, h1, h2⟩ <;> unfold State.leafCount <;> cases hd : s.degen with
  | true => have := ht.regs.degen_iff.mp hd; rw [Bool.toNat_true]; omega
  | false =>
    have : s.leaves.toNat ≠ 1 := fun h => by have := ht.regs.degen_iff.mpr h; simp [hd] at this
    rw [Bool.toNat_false]; omega

/-- The root of a tree is an internal node of it (R136). -/
theorem State.TreeOk.root_internal {s : State} (ht : s.TreeOk) (hr : s.root ≠ NIL) :
    s.root.toNat < s.nodeCount.toNat ∧ ∃ nd, s.readNode s.root = some nd ∧ nd.leaf = false := by
  obtain ⟨h1, h2, h3, h4⟩ := ht.sizes hr
  have hr' : s.root.toNat < NODE_MAX := by unfold NODE_MAX; omega
  refine ⟨by omega, _, State.readNode_of_lt hr', ?_⟩
  have hleaf := ht.layout.leaf_index s.root _ (by omega) (State.readNode_of_lt hr')
  rw [Bool.eq_false_iff]
  intro h
  have := hleaf.mp h
  omega

/-- A path stays in the tree and goes down at every branch (R31). -/
theorem State.TreeOk.follow_down {s : State} (ht : s.TreeOk) (p : List Bool) (i : NodeIdx)
    (hi : i.toNat < s.nodeCount.toNat) (j : NodeIdx) (h : s.follow i p = some j) :
    j.toNat < s.nodeCount.toNat ∧ p.length + j.toNat ≤ i.toNat := by
  induction p generalizing i with
  | nil => simp only [State.follow, Option.some.injEq] at h; subst h; simp [hi]
  | cons x p ih =>
    simp only [State.follow] at h
    split at h
    · cases h
    · rename_i nd hnd
      split at h
      · cases h
      · rename_i hl
        obtain ⟨hlt, hrt, -⟩ := ht.nodes.internal i nd hi hnd (Bool.eq_false_iff.mpr hl)
        have hc : (nd.child x).toNat < i.toNat := by cases x <;> assumption
        obtain ⟨h1, h2⟩ := ih (nd.child x) (by omega) h
        exact ⟨h1, by simp only [List.length_cons]; omega⟩

/-- The walker moved to an internal child meets its invariants again (R35). -/
theorem walkerTo_ok {s : State} (ht : s.TreeOk) (hw : s.WalkerOk) (hr : s.root ≠ NIL) {nd nx : Node} {x : Bool}
    (hnd : s.readNode s.cur = some nd) (hnx : s.readNode (nd.child x) = some nx) (hl : nx.leaf = false) :
    (s.walkerTo (nd.child x)).WalkerOk := by
  obtain ⟨-, nd', hnd', hndl⟩ := hw.internal hr
  rw [hnd] at hnd'
  cases hnd'
  obtain ⟨p, hp, hf⟩ := hw.on_path hr
  have hfol : s.follow s.root (p ++ [x]) = some (nd.child x) := by
    rw [State.follow_append hf]; simp [State.follow, hnd, hndl]
  obtain ⟨h1, h2⟩ := ht.follow_down _ _ (ht.root_internal hr).1 _ hfol
  have hge : s.leafCount ≤ (nd.child x).toNat := by
    by_contra h
    rw [(ht.layout.leaf_index _ nx h1 hnx).mpr (by omega)] at hl
    cases hl
  obtain ⟨-, hlc, h3, h4⟩ := ht.sizes hr
  simp only [List.length_append, List.length_cons, List.length_nil] at h2
  have hd : (s.depth + 1).toNat = s.depth.toNat + 1 := by
    rw [BitVec.toNat_add, show (1 : BitVec 8).toNat = 1 from rfl]; omega
  refine ⟨fun h => absurd h hr, ?_, fun _ => ⟨p ++ [x], ?_, ?_⟩, fun _ => ⟨h1, nx, ?_, hl⟩⟩
  · rw [State.walkerTo_depth, hd]; omega
  · rw [State.walkerTo_depth, hd, List.length_append, hp]; rfl
  · rw [State.follow_congr (t := s) (by simp)]; simpa using hfol
  · rw [State.readNode_congr (t := s) (by simp)]; simpa using hnx

/-- One bit character, with the two nodes it reads (R180, R182). -/
theorem exec_dec_char {s : State} {x : Bool} (he : s.err = false) (hr : s.root ≠ NIL) {nd nx : Node}
    (hnd : s.readNode s.cur = some nd) (hnx : s.readNode (nd.child x) = some nx) :
    exec (.dec (charOfBit x)) s = arriveAt (nd.child x) nx s := by
  have hb : bitOfChar (charOfBit x) = some x := by cases x <;> decide
  simp [exec, execDec, unlessBlocked_of_noErr he, State.treeValid, hr, mux, hb, withNode_some hnd, withNode_some hnx]

/-- The byte of a real leaf's symbol (R180). -/
theorem byte_of_sym {nd : Node} {b : Byte} (h : nd.sym = b.setWidth 9) : nd.byte = b := by
  have : ∀ b : Byte, (b.setWidth 9).extractLsb' 0 8 = b := by decide
  rw [Node.byte, h, this]

/-- The characters of a path that leads to the leaf of `b` append `b` and return the walker to the root, wherever the path
begins (R180). -/
theorem execAll_dec_path (s : State) (he : s.err = false) (hr : s.root ≠ NIL) (b : Byte) (rest : List Instr)
    (p : List Bool) (c : NodeIdx) (d : BitVec 8) (i : NodeIdx) (hne : p ≠ []) (hf : s.follow c p = some i)
    (hleaf : s.IsLeafOf b i) :
    execAll (p.map (fun x => Instr.dec (charOfBit x)) ++ rest) { s with cur := c, depth := d } =
      execAll rest { s with decOut := s.decOut ++ [b], cur := s.root, depth := 0#8 } := by
  induction p generalizing c d with
  | nil => exact absurd rfl hne
  | cons x p ih =>
    have hf' := hf
    simp only [State.follow] at hf
    split at hf
    · cases hf
    · rename_i nd hnd
      split at hf
      · cases hf
      · simp only [List.map_cons, List.cons_append, execAll]
        cases p with
        | nil =>
          simp only [State.follow, Option.some.injEq] at hf
          obtain ⟨-, nx, hnx, hnl, hsym⟩ := hleaf
          rw [← hf] at hnx
          rw [exec_dec_char (s := { s with cur := c, depth := d }) he hr hnd hnx]
          have hns : nx.sym ≠ SENTINEL := by rw [hsym]; exact byte_ne_sentinel b
          simp [arriveAt, hnl, hns, State.emitDec, State.walkerToRoot, byte_of_sym hsym]
        | cons y q =>
          have hf2 := hf
          simp only [State.follow] at hf2
          split at hf2
          · cases hf2
          · rename_i nx hnx
            split at hf2
            · cases hf2
            · rename_i hl2
              rw [exec_dec_char (s := { s with cur := c, depth := d }) he hr hnd hnx]
              simp only [arriveAt, hl2]
              exact ih (nd.child x) (d + 1) (by simp) hf

end Sys2Proof.Machine
end

