-- ==== Sys2Proof/Tests/Slice0.lean ====
section
/-! SUPPORT. Tests: the words and values are those the spec writes out (`spec/95_test_vectors.md` and the examples of the
commands' rules), and for every obligation with hypotheses a witness that meets them, clause by clause. -/

namespace Sys2Proof.Tests

open Sys2Proof.Machine

set_option Elab.async false

/-! ### Assembly lines that are refused (R88) -/

theorem test_asm_operandCount : operandsWf .Z [0] = false := by decide
theorem test_asm_byteRange : operandsWf .B [256] = false := by decide
theorem test_asm_dataRange : operandsWf .BD [0, 4294967296] = false := by decide
theorem test_asm_nodeRange : operandsWf .N [512, 0] = false := by decide
theorem test_asm_selRange : operandsWf .N [0, 4] = false := by decide
theorem test_asm_accepted : operandsWf .BD [255, 4294967295] = true := by decide
theorem test_asm_qnode : (AsmLine.mk .QNODE [2, 2]).assemble = .ok (.qnode 2#9 .left) := by decide

/-! ### Decoding: words written out from R81, R82 and R84 -/

theorem test_decode_nop : decode 0x0000000000000000#64 = .ok .nop := by decide
theorem test_decode_clr : decode 0x0100000000000000#64 = .ok .clr := by decide
theorem test_decode_errclr : decode 0x0200000000000000#64 = .ok .errclr := by decide
theorem test_decode_hist :
    decode 0b0001000000000000000000000110000100000000000000000000000000000000#64 = .ok (.hist 0x61#8) := by decide
theorem test_decode_wfreq : decode 0x11000000FFFFFFFF#64 = .ok (.wfreq 0#8 0xFFFFFFFF#32) := by decide
theorem test_decode_rfreq : decode 0x1200007A00000000#64 = .ok (.rfreq 0x7A#8) := by decide
theorem test_decode_qtotal : decode 0x1300000000000000#64 = .ok .qtotal := by decide
theorem test_decode_build : decode 0x2000000000000000#64 = .ok .build := by decide
theorem test_decode_enc : decode 0x3000006200000000#64 = .ok (.enc 0x62#8) := by decide
theorem test_decode_qlen : decode 0x3100006300000000#64 = .ok (.qlen 0x63#8) := by decide
theorem test_decode_qbit : decode 0x3200006300000003#64 = .ok (.qbit 0x63#8 3#32) := by decide
theorem test_decode_dec : decode 0x4000003100000000#64 = .ok (.dec 0x31#8) := by decide
theorem test_decode_dend : decode 0x4100000000000000#64 = .ok .dend := by decide
theorem test_decode_qroot : decode 0x5000000000000000#64 = .ok .qroot := by decide
theorem test_decode_qnode :
    decode 0b0101000100000000000000010000100000000000000000000000000000000011#64 = .ok (.qnode 0x108#9 .right) := by decide
theorem test_decode_qerr : decode 0x5200000000000000#64 = .ok .qerr := by decide

theorem test_illegal_reservedOpcode : decode 0x0300000000000000#64 = .error .reservedOpcode := by decide
theorem test_illegal_nopData : decode 0x0000000000000001#64 = .error .unusedData := by decide
theorem test_illegal_histRsv : decode 0x1002000000000000#64 = .error .reservedField := by decide
theorem test_illegal_histSym8 : decode 0x1000010000000000#64 = .error .unusedSym := by decide
theorem test_illegal_qnodeData : decode 0x5100000000000004#64 = .error .unusedData := by decide
theorem test_decodeTableWord : decodeTableWord 64 0x4000003100000000 = some (.dec 0x31#8) := by decide

/-! ### Small states -/

/-- The state a command leaves. -/
def after (r : Outcome State Fault Refusal) : State :=
  match r with
  | .next t => t
  | _ => State.reset

/-- The answer is a next state. -/
def goesOn (r : Outcome State Fault Refusal) : Bool :=
  match r with
  | .next _ => true
  | _ => false

/-- FREQ['a'] = 1, FREQ['b'] = 1, as after `HISTS "ab"`. -/
def counted : State := (State.reset.setCount 0x61#8 1 1).setCount 0x62#8 1 2

/-- FREQ['a'] = 4, as after `HISTS "aaaa"`. -/
def lone : State := State.reset.setCount 0x61#8 4 4

/-- FREQ['a'] = 1, as after `HIST 'a'`. -/
def single : State := State.reset.setCount 0x61#8 1 1

/-- FREQ[0] = TOTAL = 2^32 − 1, as after `WFREQ 0, 0xFFFFFFFF`. -/
def full : State := State.reset.setCount 0#8 4294967295 4294967295

/-- The counts of "abracadabra". -/
def abra : State :=
  ((((State.reset.setCount 0x61#8 5 5).setCount 0x62#8 2 7).setCount 0x63#8 1 8).setCount 0x64#8 1 9).setCount 0x72#8 2 11

/-- The state `BUILD` leaves. -/
def builtFrom (s : State) : State := s.installTree (buildTree s.cfg s.freq)

/-- A state that offers a word to a step within which `rst` rises. -/
def cutOff (s : State) (w : CmdWord) : State := { s with cmdIn := [.held w], rstIn := [.rises] }

/-! ### Commands (values from `spec/95_test_vectors.md`) -/

theorem test_hist_counts : (after (exec (.hist 0x61#8) single)).readFreq 0x61#8 = 2#32 := by decide +kernel
/-- V-H3. -/
theorem test_hist_overflow : (after (exec (.hist 1#8) full)).statusWord = 0x00000154#32 := by decide +kernel
/-- V-H6, at `W = 4`. -/
theorem test_wfreq_replaces :
    (after (exec (.wfreq 0#8 3#32) { lone.setCount 0#8 11 15 with cfg := ⟨3⟩ })).total = 7#32 := by decide +kernel
/-- V-H5. -/
theorem test_wfreq_overflow :
    (after (exec (.wfreq 0#8 16#32) { State.reset with cfg := ⟨3⟩ })).errcode = 5#4 := by decide +kernel
theorem test_rfreq : (after (exec (.rfreq 0x61#8) abra)).result = 5#64 := by decide +kernel
theorem test_qtotal : (after (exec .qtotal abra)).result = 0x0B#64 := by decide +kernel
/-- V-B5: node 7. -/
theorem test_build_node : (after (exec .build abra)).readNode 7#9 = some ⟨6#33, 0x100#9, false, 5#9, 6#9⟩ := by
  decide +kernel
/-- V-B1. -/
theorem test_build_empty : (after (exec .build State.reset)).statusWord = 0x00000100#32 := by decide +kernel
/-- V-E2. -/
theorem test_enc : (after (exec (.enc 0x62#8) (builtFrom abra))).encOut = [0x31#8, 0x31#8, 0x30#8] := by decide +kernel
/-- V-E10. -/
theorem test_enc_lookup : (after (exec (.enc 0x61#8) State.reset)).statusWord = 0x00000114#32 := by decide +kernel
theorem test_qlen : (after (exec (.qlen 0x63#8) (builtFrom abra))).result = 3#64 := by decide +kernel
/-- V-E6. -/
theorem test_qbit : (after (exec (.qbit 0x63#8 0#32) (builtFrom abra))).result = 1#64 := by decide +kernel
/-- V-E7. -/
theorem test_qbit_range : (after (exec (.qbit 0x63#8 3#32) (builtFrom abra))).statusWord = 0x00050176#32 := by
  decide +kernel
/-- V-D2. -/
theorem test_dec_moves : (after (exec (.dec 0x31#8) (builtFrom abra))).statusWord = 0x00050002#32 := by decide +kernel
/-- V-D6. -/
theorem test_dec_placeholder : (after (exec (.dec 0x30#8) (builtFrom lone))).statusWord = 0x0001014E#32 := by
  decide +kernel
/-- V-D3. -/
theorem test_dend :
    (after (exec .dend { builtFrom abra with cur := 6#9, depth := 2#8 })).statusWord = 0x00050302#32 := by decide +kernel
/-- V-C1, on the fields of `STATUS`. -/
theorem test_nop : (after (exec .nop (builtFrom counted))).statusWord = 0x00020102#32 := by decide +kernel
/-- V-C2. -/
theorem test_clr : (after (exec .clr (builtFrom counted))).statusWord = 0x00000100#32 := by decide +kernel
/-- V-C3. -/
theorem test_errclr :
    (after (exec .errclr ((builtFrom counted).raise .invalidBit 0x32#32))).statusWord = 0x00020102#32 := by decide +kernel
/-- V-C4. -/
theorem test_qroot : (after (exec .qroot (builtFrom abra))).result = 0x0000000100090008#64 := by decide +kernel
/-- V-C6. -/
theorem test_qnode_symbol : (after (exec (.qnode 0#9 .symbol) (builtFrom abra))).result = 0x10061#64 := by decide +kernel
/-- V-C5. -/
theorem test_qnode_right : (after (exec (.qnode 8#9 .right) (builtFrom abra))).result = 7#64 := by decide +kernel
/-- V-E4. -/
theorem test_qerr :
    (after (exec .qerr ((builtFrom abra).raise .lookup 0x7A#32))).result = 0x000001010000007A#64 := by decide +kernel
/-- V-C11. -/
theorem test_step_illegal :
    (after (step (State.reset.withFetchWord 64 0x2000000000000001))).errinfo = 0x20000000#32 := by decide +kernel
theorem test_step_build : goesOn (step (State.reset.withFetchWord 64 0x2000000000000000)) = true := by decide +kernel
/-- A command that `rst` cuts off leaves the counts alone, and the block busy. -/
theorem test_step_cutOff :
    (after (step (cutOff counted 0x1000006100000000#64))).total = 2#32 ∧
      (after (step (cutOff counted 0x1000006100000000#64))).busy = true := by decide +kernel
theorem test_step_reset : (after (step { abra with rstIn := [.high] })).busy = true := by decide +kernel

/-! ### States that meet the invariants -/

theorem reset_counts : State.reset.CountsOk := ⟨by decide +kernel, by decide +kernel⟩
theorem counted_counts : counted.CountsOk := ⟨by decide +kernel, by decide +kernel⟩
theorem lone_counts : lone.CountsOk := ⟨by decide +kernel, by decide +kernel⟩
theorem single_counts : single.CountsOk := ⟨by decide +kernel, by decide +kernel⟩
theorem raised_counts : (counted.raise .lookup 0x7A#32).CountsOk := ⟨by decide +kernel, by decide +kernel⟩
theorem full_counts : full.CountsOk := ⟨by decide +kernel, by decide +kernel⟩

theorem reset_readFreq (b : Byte) : State.reset.readFreq b = 0#32 := by
  unfold State.readFreq State.reset
  exact Vector.getElem_replicate b.isLt

theorem lone_readFreq (c : Byte) (h : c ≠ 0x61#8) : lone.readFreq c = 0#32 := by
  simp [lone, State.readFreq_setCount, Ne.symm h, reset_readFreq]

theorem single_readFreq (c : Byte) (h : c ≠ 0x61#8) : single.readFreq c = 0#32 := by
  simp [single, State.readFreq_setCount, Ne.symm h, reset_readFreq]

theorem built_inv {s : State} (hc : s.CountsOk) (he : s.ErrorsOk) : (builtFrom s).Inv :=
  have h := build_ok hc
  { counts := by simpa [builtFrom, State.CountsOk, State.freqSum] using hc
    errors := by simpa [builtFrom, State.ErrorsOk] using he
    tree := h.1
    codes := h.2.1
    walker := h.2.2.1
    queue := h.2.2.2 }

theorem noError_ok {s : State} (h1 : s.err = false) (h2 : s.errcode = 0#4) (h3 : s.errinfo = 0#32) : s.ErrorsOk := by
  simp [State.ErrorsOk, h1, h2, h3]

/-- The tree of "ab" with the walker at its root. -/
def treed : State := builtFrom counted

/-- The degenerate tree of "aaaa". -/
def loneTreed : State := builtFrom lone

theorem treed_inv : treed.Inv := built_inv counted_counts (noError_ok rfl rfl rfl)
theorem loneTreed_inv : loneTreed.Inv := built_inv lone_counts (noError_ok rfl rfl rfl)

theorem treed_root : treed.root = 2#9 := by decide +kernel
theorem treed_root_ne : treed.root ≠ NIL := by rw [treed_root]; decide
theorem treed_code_a : (treed.readCode 0x61#8).valid = true := by decide +kernel
theorem treed_code_b : (treed.readCode 0x62#8).valid = true := by decide +kernel
theorem treed_code_z : (treed.readCode 0x7A#8).valid = false := by decide +kernel
theorem treed_len_a : (treed.readCode 0x61#8).len = 1#8 := by decide +kernel

/-- The same tree with an error recorded. -/
def treedErr : State := treed.raise .lookup 0x7A#32

theorem treedErr_err : treedErr.err = true := rfl

/-- An idle step of a tree state goes on. -/
theorem treed_step : step treed = .next treed.tickRst := rfl

/-- A step that a state with the invariants takes. -/
theorem witness_invariant_step : treed.Inv ∧ step treed = .next treed.tickRst := ⟨treed_inv, treed_step⟩

/-! ### Witnesses for the hypotheses of the obligations -/

theorem witness_DecodedWordIsTheEncoding : ∃ w i, decode w = .ok i := ⟨_, _, test_decode_hist⟩

theorem witness_DecodeAgreesWithMatchAndMask :
    ∃ (w : CmdWord) (m k : Mnemonic), w &&& m.maskWord = m.matchWord ∧ w &&& k.maskWord = k.matchWord :=
  ⟨0x51000001FF000000#64 &&& 0xFFFFFFFF00000003#64, .QNODE, .QNODE, by decide, by decide⟩

theorem witness_IllegalWordsRaiseIllegalCommand :
    (∃ (w : CmdWord) (s : State) (r : Reject), decode w = .error r ∧ s.err = false) ∧
    (∃ (w : CmdWord) (s : State) (r : Reject), decode w = .error r ∧ s.err = true) :=
  ⟨⟨_, treed, _, test_illegal_histSym8, rfl⟩, ⟨_, treedErr, _, test_illegal_histRsv, treedErr_err⟩⟩

/-- Words with a form's opcode that are not of the form, one for each form (`SpelledZ`, `SpelledB`, `SpelledBD`, `SpelledN`). -/
theorem witness_Spelled :
    (opcField 0x5200000000000001#64 = 0x52#8 ∧ (0x5200000000000001#64 : CmdWord) ≠ 0x52#8 ++ 0#56) ∧
    (opcField 0x1000010000000000#64 = 0x10#8 ∧
      ∀ b : Byte, (0x1000010000000000#64 : CmdWord) ≠ 0x10#8 ++ 0#16 ++ b ++ 0#32) ∧
    (opcField 0x1100010000000000#64 = 0x11#8 ∧
      ∀ (b : Byte) (d : BitVec 32), (0x1100010000000000#64 : CmdWord) ≠ 0x11#8 ++ 0#16 ++ b ++ d) ∧
    (opcField 0x5100000000000004#64 = 0x51#8 ∧
      ∀ (n : NodeIdx) (d : BitVec 32), d.toNat < 4 → (0x5100000000000004#64 : CmdWord) ≠ 0x51#8 ++ 0#15 ++ n ++ d) := by
  refine ⟨⟨by decide, by decide⟩, ⟨by decide, by decide⟩, ⟨by decide, fun b d h => ?_⟩, ⟨by decide, fun n d hd h => ?_⟩⟩
  · have h := congrArg (fun w => (symField w).getLsbD 8) (h.trans (formBD_eq 0x11#8 b d))
    simp only [symField_packWord, byteSym_high] at h
    revert h; decide
  · have h := congrArg dataField h
    have : dataField (0x51#8 ++ 0#15 ++ n ++ d) = d := dataField_packWord 0x51#8 0#15 n d
    rw [this] at h
    rw [← h] at hd
    revert hd; decide

theorem witness_AssemblyNeverTruncates :
    (Mnemonic.NOP.form = .Z) ∧ (Mnemonic.HIST.form = .B ∧ 255 < 256) ∧ (Mnemonic.HIST.form = .B ∧ 256 ≤ 256) ∧
    (Mnemonic.WFREQ.form = .BD ∧ 255 < 256 ∧ 4294967295 < 2 ^ 32) ∧ (Mnemonic.WFREQ.form = .BD ∧ 256 ≤ 256) ∧
    (Mnemonic.WFREQ.form = .BD ∧ 255 < 256 ∧ 2 ^ 32 ≤ 4294967296) ∧ (Mnemonic.QNODE.form = .N ∧ 511 < 512 ∧ 3 < 4) ∧
    (Mnemonic.QNODE.form = .N ∧ 512 ≤ 512) ∧ (Mnemonic.QNODE.form = .N ∧ 511 < 512 ∧ 4 ≤ 4) ∧
    ([0].length ≠ (match Mnemonic.NOP.form with | .Z => 0 | .B => 1 | .BD => 2 | .N => 2)) := by decide

/-- A state that offers a word to the next step. -/
def offering (s : State) (p : Presentation) : State := { s with cmdIn := [p] }

theorem witness_StepRunsDecodedCommand :
    ∃ (s : State) (w : CmdWord) (rest : List Presentation) (i : Instr),
      s.rstNow = .low ∧ s.busy = false ∧ s.cmdIn = .held w :: rest ∧ decode w = .ok i :=
  ⟨offering treed (.held 0x3000006200000000#64), _, [], _, rfl, rfl, rfl, test_decode_enc⟩

theorem witness_StepRaisesOnIllegalWord :
    (∃ (s : State) (w : CmdWord) (rest : List Presentation) (r : Reject),
      s.rstNow = .low ∧ s.busy = false ∧ s.cmdIn = .held w :: rest ∧ decode w = .error r ∧ s.err = false) ∧
    (∃ (s : State) (w : CmdWord) (rest : List Presentation) (r : Reject),
      s.rstNow = .low ∧ s.busy = false ∧ s.cmdIn = .held w :: rest ∧ decode w = .error r ∧ s.err = true) :=
  ⟨⟨offering treed (.held 0x1002000000000000#64), _, [], _, rfl, rfl, rfl, test_illegal_histRsv, rfl⟩,
   ⟨offering treedErr (.held 0x1002000000000000#64), _, [], _, rfl, rfl, rfl, test_illegal_histRsv, rfl⟩⟩

theorem witness_StepWaitsOrRefusesUnstableWord :
    (∃ s : State, s.rstNow = .low ∧ s.busy = false ∧ s.cmdIn = []) ∧
    (∃ (s : State) (v w : CmdWord) (rest : List Presentation),
      s.rst = false ∧ s.busy = false ∧ s.cmdIn = .changed v w :: rest) :=
  ⟨⟨treed, rfl, rfl, rfl⟩, ⟨offering treed (.changed 0#64 1#64), _, _, [], rfl, rfl, rfl⟩⟩

theorem witness_ResetHoldsThenClears :
    (∃ s : State, s.rst = true) ∧ (∃ s : State, s.rstNow = .rises ∧ s.busy = true) ∧
      (∃ s : State, s.rstNow = .low ∧ s.busy = true) :=
  ⟨⟨{ treed with rstIn := [.high] }, rfl⟩, ⟨{ treed with rstIn := [.rises], busy := true }, rfl, rfl⟩,
    ⟨{ treed with busy := true }, rfl, rfl⟩⟩

/-- An `ENC` that `rst` cuts off, and the state it would have left; `rst` is low again at the next step. -/
theorem witness_ResetAbandonsTheCommand :
    ∃ (s u : State) (w : CmdWord) (rest : List Presentation),
      s.rstNow = .rises ∧ s.busy = false ∧ s.cmdIn = .held w :: rest ∧
        runWord w { s with cmdIn := rest, rstIn := s.rstIn.tail } = .next u ∧ s.rstIn.tail = [] := by
  have hd : decode 0x3000006100000000#64 = .ok (.enc 0x61#8) := by decide
  have h : ∀ r : State, r.err = false → (r.readCode 0x61#8).valid = true →
      ∃ u, runWord 0x3000006100000000#64 r = .next u := fun r he hv => by
    simp [runWord, hd, exec, execEnc, unlessBlocked_of_noErr he, hv]
  obtain ⟨u, hu⟩ := h { cutOff treed 0x3000006100000000#64 with cmdIn := [], rstIn := [] } rfl treed_code_a
  exact ⟨cutOff treed 0x3000006100000000#64, u, _, [], rfl, rfl, rfl, hu, rfl⟩

theorem witness_QueuedCommandsRunInOrder :
    ∃ (is : List Instr) (s : State), is ≠ [] ∧ s.rstIn = [] ∧ s.busy = false ∧ s.cmdIn = is.map (fun i => .held (encode i)) :=
  ⟨[.enc 0x61#8, .dec 0x30#8], { treed with cmdIn := [.held (encode (.enc 0x61#8)), .held (encode (.dec 0x30#8))] },
    by decide, rfl, rfl, rfl⟩

theorem witness_ErrorsArePrecise :
    (∃ s : State, s.err = false) ∧ (∃ s : State, s.err = true) ∧
    (∃ (i : Instr) (s t : State), exec i s = .next t ∧ s.err = false ∧ t.err = true) :=
  ⟨⟨treed, rfl⟩, ⟨treedErr, rfl⟩, ⟨.dec 0x32#8, treed, treed.raise .invalidBit 0x32#32, by
    simp [exec, execDec, unlessBlocked_of_noErr (show treed.err = false from rfl), State.treeValid, treed_root_ne, mux,
      bitOfChar, CHAR0, CHAR1, raiseError, infoOfByte], rfl, rfl⟩⟩

theorem witness_ErrorCodesAndInformation :
    (treed.err = false ∧ (treed.readCode 0x7A#8).valid = false) ∧
    (treed.root ≠ NIL ∧ (0x32#8 : Byte) ≠ 0x30#8 ∧ (0x32#8 : Byte) ≠ 0x31#8) ∧
    (State.reset.err = false ∧ State.reset.root = NIL) ∧
    (∃ (b : Byte) (nd nx : Node) (x : NodeIdx), loneTreed.err = false ∧ loneTreed.root ≠ NIL ∧
      loneTreed.readNode loneTreed.cur = some nd ∧ ((b = 0x30#8 ∧ x = nd.left) ∨ (b = 0x31#8 ∧ x = nd.right)) ∧
      loneTreed.readNode x = some nx ∧ nx.leaf = true ∧ nx.sym = SENTINEL) ∧
    (full.err = false ∧ full.total.toNat = 2 ^ full.cfg.W - 1) ∧
    (full.err = false ∧
      (2 : Int) ^ full.cfg.W - 1 < (full.total.toNat : Int) - (full.readFreq 1#8).toNat + (1#32 : BitVec 32).toNat) ∧
    ((treed.readCode 0x61#8).len.toNat ≤ (1#32 : BitVec 32).toNat) ∧
    (State.reset.nodeCount.toNat ≤ (0#9 : NodeIdx).toNat) := by
  refine ⟨⟨rfl, treed_code_z⟩, ⟨treed_root_ne, by decide, by decide⟩, ⟨rfl, rfl⟩, ?_, ⟨rfl, by decide +kernel⟩,
    ⟨rfl, by decide +kernel⟩, by rw [treed_len_a]; decide, by decide⟩
  exact ⟨0x30#8, ⟨5#33, 0x100#9, false, 1#9, 0#9⟩, placeholder, 1#9, rfl, by decide +kernel, by decide +kernel,
    .inl ⟨rfl, rfl⟩, by decide +kernel, rfl, rfl⟩

theorem witness_BlockedCommandsHaveNoEffect :
    treedErr.err = true ∧
    ((treedErr.readCode 0x61#8).valid = true ∧ (0#32 : BitVec 32).toNat < (treedErr.readCode 0x61#8).len.toNat) ∧
    (∃ nd, (2#9 : NodeIdx).toNat < treedErr.nodeCount.toNat ∧ treedErr.readNode 2#9 = some nd) :=
  ⟨rfl, ⟨by decide +kernel, by decide +kernel⟩, ⟨_, by decide +kernel, rfl⟩⟩

theorem witness_FirstErrorIsKeptUntilCleared :
    (∃ (i : Instr) (s t : State), s.err = true ∧ exec i s = .next t ∧ i ≠ .clr ∧ i ≠ .errclr) ∧
    (∃ (s t : State), s.err = true ∧ exec .clr s = .next t) ∧ (∃ (s t : State), s.err = true ∧ exec .errclr s = .next t) :=
  ⟨⟨.qtotal, treedErr, _, rfl, rfl, by decide, by decide⟩, ⟨treedErr, _, rfl, rfl⟩, ⟨treedErr, _, rfl, rfl⟩⟩

theorem witness_ErrorLogRecordsEachNewError :
    (∃ s t : State, s.rst = false ∧ s.busy = false ∧ step s = .next t ∧ s.err = false ∧ t.err = true) ∧
    (∃ s t : State, s.rst = false ∧ s.busy = false ∧ step s = .next t ∧ ¬ (s.err = false ∧ t.err = true)) :=
  ⟨⟨offering treed (.held 0x1002000000000000#64), _, rfl, rfl, rfl, rfl, rfl⟩,
   ⟨treedErr, _, rfl, rfl, rfl, by simp [treedErr_err]⟩⟩

theorem witness_ErrorInvariantKeptByEveryStep : ∃ s t : State, s.ErrorsOk ∧ step s = .next t :=
  ⟨treed, _, treed_inv.errors, treed_step⟩

theorem witness_CountInvariantKeptByEveryStep : ∃ s t : State, s.CountsOk ∧ step s = .next t :=
  ⟨treed, _, treed_inv.counts, treed_step⟩

theorem witness_TreeInvariantKeptByEveryStep : ∃ s t : State, s.CountsOk ∧ s.TreeOk ∧ step s = .next t :=
  ⟨treed, _, treed_inv.counts, treed_inv.tree, treed_step⟩

theorem witness_CodeInvariantKeptByEveryStep : ∃ s t : State, s.CountsOk ∧ s.CodesOk ∧ step s = .next t :=
  ⟨treed, _, treed_inv.counts, treed_inv.codes, treed_step⟩

theorem witness_WalkerInvariantKeptByEveryStep :
    ∃ s t : State, s.CountsOk ∧ s.TreeOk ∧ s.WalkerOk ∧ step s = .next t :=
  ⟨treed, _, treed_inv.counts, treed_inv.tree, treed_inv.walker, treed_step⟩

theorem witness_QueueEmptyBetweenSteps : ∃ s t : State, s.CountsOk ∧ s.pq = [] ∧ step s = .next t :=
  ⟨treed, _, treed_inv.counts, treed_inv.queue, treed_step⟩

theorem witness_EveryCommandCompletes : ∃ s : State, s.Inv := ⟨treed, treed_inv⟩

theorem witness_HistCountsOneByte :
    (treed.CountsOk ∧ treed.err = false ∧ treed.total.toNat ≠ 2 ^ treed.cfg.W - 1) ∧
    (full.CountsOk ∧ full.err = false ∧ full.total.toNat = 2 ^ full.cfg.W - 1) ∧
    (treedErr.CountsOk ∧ treedErr.err = true) :=
  ⟨⟨treed_inv.counts, rfl, by decide +kernel⟩, ⟨full_counts, rfl, by decide +kernel⟩, ⟨treed_inv.counts, rfl⟩⟩

theorem witness_WfreqSetsOneCount :
    (full.CountsOk ∧ full.err = false ∧
      full.total.toNat - (full.readFreq 0#8).toNat + (0xFFFFFFFF#32).toNat ≤ 2 ^ full.cfg.W - 1) ∧
    (full.CountsOk ∧ full.err = false ∧
      2 ^ full.cfg.W - 1 < full.total.toNat - (full.readFreq 1#8).toNat + (1#32).toNat) ∧
    (treedErr.CountsOk ∧ treedErr.err = true) :=
  ⟨⟨full_counts, rfl, by decide +kernel⟩, ⟨full_counts, rfl, by decide +kernel⟩, ⟨treed_inv.counts, rfl⟩⟩

theorem witness_HistOrderDoesNotMatter : treed.CountsOk ∧ treed.total.toNat + 2 ≤ 2 ^ treed.cfg.W - 1 :=
  ⟨treed_inv.counts, by decide +kernel⟩

theorem witness_BuildWritesOnlyTheTree : ∃ s : State, s.CountsOk ∧ s.err = false := ⟨counted, counted_counts, rfl⟩

theorem witness_BuildOfEmptyTableGivesNoTree : ∃ s : State, s.err = false ∧ ∀ b, s.readFreq b = 0#32 :=
  ⟨State.reset, rfl, reset_readFreq⟩

theorem witness_BuildCreatesLeavesInSymbolOrder : ∃ (s : State) (b : Byte), s.CountsOk ∧ s.err = false ∧ s.readFreq b ≠ 0#32 :=
  ⟨counted, 0x62#8, counted_counts, rfl, by decide +kernel⟩

theorem witness_BuildOfOneSymbolAddsPlaceholder :
    (single.CountsOk ∧ single.err = false ∧ single.readFreq 0x61#8 = 1#32 ∧
      ∀ c, c ≠ 0x61#8 → single.readFreq c = 0#32) ∧
    (lone.CountsOk ∧ lone.err = false ∧ lone.readFreq 0x61#8 = 4#32 ∧ ∀ c, c ≠ 0x61#8 → lone.readFreq c = 0#32) ∧
    (counted.CountsOk ∧ counted.err = false ∧ counted.readFreq 0x61#8 ≠ 0#32 ∧ counted.readFreq 0x62#8 ≠ 0#32) :=
  ⟨⟨single_counts, rfl, by decide +kernel, single_readFreq⟩, ⟨lone_counts, rfl, by decide +kernel, lone_readFreq⟩,
   ⟨counted_counts, rfl, by decide +kernel, by decide +kernel⟩⟩

theorem witness_BuildSizesAreThoseOfAFullTree :
    (State.reset.CountsOk ∧ (builtFrom State.reset).leaves = 0#9) ∧ (lone.CountsOk ∧ loneTreed.leaves = 1#9) ∧
    (counted.CountsOk ∧ treed.leaves = 2#9) :=
  ⟨⟨reset_counts, by decide +kernel⟩, ⟨lone_counts, by decide +kernel⟩, ⟨counted_counts, by decide +kernel⟩⟩

theorem witness_BuildDependsOnFrequenciesAlone :
    ∃ s s' t t' : State, s ≠ s' ∧ s.cfg = s'.cfg ∧ s.freq = s'.freq ∧ s.err = false ∧ s'.err = false ∧
      exec .build s = .next t ∧ exec .build s' = .next t' :=
  ⟨counted, { counted with draws := 7 }, _, _, fun h => absurd (congrArg State.draws h) (by decide), rfl, rfl, rfl, rfl,
    rfl, rfl⟩

theorem witness_ExtractMinFollowsThePriorityOrder :
    ∃ nodes pq i rest, extractMin nodes pq = some (i, rest) ∧ rest ≠ [] :=
  ⟨[leafNode 2#33 0x61#9, leafNode 1#33 0x62#9], [0#9, 1#9], 1#9, [0#9], by decide, by decide⟩

theorem witness_MergeCombinesTheTwoSmallest :
    ∃ (c : Config) (bd bd1 : Builder), 2 ≤ bd.pq.length ∧ bd1.pq.length ≤ 1 ∧
      (nodeOf bd.nodes 0#9).weight.toNat + (nodeOf bd.nodes 1#9).weight.toNat < 2 ^ (c.W + 1) :=
  ⟨⟨3⟩, ⟨[leafNode 15#33 0x61#9, placeholder], [0#9, 1#9]⟩, ⟨[placeholder], [0#9]⟩, by decide, by decide, by decide⟩

/-- The tree of "ab" has an internal node, and a node yet unmerged beside its children is shown in the tree of "abracadabra". -/
theorem witness_BuildMergesTheTwoSmallest :
    (counted.CountsOk ∧ counted.err = false ∧ treed.root ≠ NIL) ∧
    (∃ nd, (2#9 : NodeIdx).toNat < treed.nodeCount.toNat ∧ treed.readNode 2#9 = some nd ∧ nd.leaf = false) ∧
    (builtFrom abra).Unmerged 5#9 0#9 := by
  refine ⟨⟨counted_counts, rfl, treed_root_ne⟩, ⟨⟨2#33, 0x100#9, false, 0#9, 1#9⟩, by decide +kernel, by decide +kernel, rfl⟩,
    by decide, fun p nd hp hnd hl => ?_⟩
  have h : ∀ q : Fin 5, ((builtFrom abra).readNode (BitVec.ofNat 9 q.val)).map Node.leaf = some true := by decide +kernel
  have hq := h ⟨p.toNat, hp⟩
  simp only [BitVec.ofNat_toNat, BitVec.setWidth_eq, hnd, Option.map_some, Option.some.injEq] at hq
  rw [hq] at hl
  cases hl

theorem witness_QrootReportsTheTreeRegisters : ∃ s : State, s.TreeRegsOk ∧ s.root = NIL :=
  ⟨builtFrom State.reset, (build_ok reset_counts).1.regs, by decide +kernel⟩

theorem witness_BuildOfOneSymbolAddsPlaceholder_leaf :
    ∃ (i : NodeIdx) (nd : Node), i.toNat < treed.nodeCount.toNat ∧ treed.readNode i = some nd ∧ nd.leaf = true :=
  ⟨0#9, leafNode 1#33 0x61#9, by decide +kernel, by decide +kernel, rfl⟩

theorem witness_CodesArePrefixFree :
    treed.CodesOk ∧ (0x61#8 : Byte) ≠ 0x62#8 ∧ (treed.readCode 0x61#8).valid = true ∧
      (treed.readCode 0x62#8).valid = true :=
  ⟨treed_inv.codes, by decide, treed_code_a, treed_code_b⟩

theorem witness_EncEmitsTheCode :
    (treed.err = false ∧ (treed.readCode 0x61#8).valid = true) ∧
    (treed.err = false ∧ (treed.readCode 0x7A#8).valid = false) ∧ treedErr.err = true :=
  ⟨⟨rfl, treed_code_a⟩, ⟨rfl, treed_code_z⟩, rfl⟩

theorem witness_QlenReadsTheLength :
    (treed.readCode 0x61#8).valid = true ∧ (treed.readCode 0x7A#8).valid = false ∧ treed.CodesOk :=
  ⟨treed_code_a, treed_code_z, treed_inv.codes⟩

theorem witness_QbitReadsOneBit :
    ((treed.readCode 0x61#8).valid = true ∧ (0#32 : BitVec 32).toNat < (treed.readCode 0x61#8).len.toNat) ∧
    ((treed.readCode 0x61#8).len.toNat ≤ (1#32 : BitVec 32).toNat ∧ treed.err = false) ∧
    ((treedErr.readCode 0x61#8).len.toNat ≤ (1#32 : BitVec 32).toNat ∧ treedErr.err = true) ∧
    (treed.readCode 0x7A#8).valid = false := by
  refine ⟨⟨treed_code_a, ?_⟩, ⟨?_, rfl⟩, ⟨?_, rfl⟩, treed_code_z⟩ <;> decide +kernel

theorem witness_EncoderStreamLaw :
    treed.err = false ∧ (∀ b ∈ [0x61#8, 0x62#8], (treed.readCode b).valid = true) ∧
      (treed.readCode 0x7A#8).valid = false :=
  ⟨rfl, by simp [treed_code_a, treed_code_b], treed_code_z⟩

theorem witness_DecTakesOneCharacter :
    (∃ s : State, s.TreeOk ∧ s.WalkerOk ∧ s.err = true) ∧
    (∃ s : State, s.TreeOk ∧ s.WalkerOk ∧ s.err = false ∧ s.root = NIL) ∧
    (treed.TreeOk ∧ treed.WalkerOk ∧ treed.err = false ∧ treed.root ≠ NIL) ∧
    (∃ nd nx, treed.readNode treed.cur = some nd ∧ treed.readNode nd.left = some nx ∧ nx.leaf = true ∧ nx.sym ≠ 0x100#9) ∧
    (loneTreed.TreeOk ∧ loneTreed.WalkerOk ∧ loneTreed.err = false ∧ loneTreed.root ≠ NIL ∧
      ∃ nd nx, loneTreed.readNode loneTreed.cur = some nd ∧ loneTreed.readNode nd.left = some nx ∧ nx.leaf = true ∧
        nx.sym = 0x100#9) :=
  ⟨⟨builtFrom (counted.raise .lookup 0x7A#32), (build_ok raised_counts).1, (build_ok raised_counts).2.2.1, rfl⟩,
   ⟨builtFrom State.reset, (build_ok reset_counts).1, (build_ok reset_counts).2.2.1, rfl, by decide +kernel⟩,
   ⟨treed_inv.tree, treed_inv.walker, rfl, treed_root_ne⟩,
   ⟨⟨2#33, 0x100#9, false, 0#9, 1#9⟩, leafNode 1#33 0x61#9, by decide +kernel, by decide +kernel, rfl, by decide⟩,
   loneTreed_inv.tree, loneTreed_inv.walker, rfl, by decide +kernel,
   ⟨5#33, 0x100#9, false, 1#9, 0#9⟩, placeholder, by decide +kernel, by decide +kernel, rfl, rfl⟩

/-- In the tree of "abracadabra" the character '1' leads to an internal node, the other clause of `DEC`. -/
theorem witness_DecTakesOneCharacter_internal :
    ∃ nd nx, (builtFrom abra).readNode (builtFrom abra).cur = some nd ∧ (builtFrom abra).readNode nd.right = some nx ∧
      nx.leaf = false :=
  ⟨⟨11#33, 0x100#9, false, 0#9, 7#9⟩, ⟨6#33, 0x100#9, false, 5#9, 6#9⟩, by decide +kernel, by decide +kernel, rfl⟩

theorem witness_DendReportsTheDepth : treed.err = false ∧ treedErr.err = true := ⟨rfl, rfl⟩

theorem witness_DecodeStreamLaw :
    treed.TreeOk ∧ treed.CodesOk ∧ treed.WalkerOk ∧ treed.root ≠ NIL ∧ treed.depth = 0#8 ∧ treed.err = false ∧
      ∀ b ∈ [0x61#8, 0x62#8], (treed.readCode b).valid = true :=
  ⟨treed_inv.tree, treed_inv.codes, treed_inv.walker, treed_root_ne, rfl, rfl, by simp [treed_code_a, treed_code_b]⟩

theorem witness_CompressNeverRaises :
    ([0x61#8, 0x62#8] : List Byte).length ≤ 2 ^ State.reset.cfg.W - 1 ∧
      (List.replicate 15 (0x61#8 : Byte)).length ≤ 2 ^ ({ State.reset with cfg := ⟨3⟩ } : State).cfg.W - 1 := by
  decide +kernel

theorem witness_CompressThenDecompressGivesInput :
    ([0x61#8, 0x61#8] : List Byte).length ≤ 2 ^ treedErr.cfg.W - 1 := by decide +kernel

theorem witness_QnodeReportsOneField :
    treed.nodeCount.toNat ≤ 511 ∧ (2#9 : NodeIdx).toNat < treed.nodeCount.toNat ∧
      (treed.nodeCount.toNat ≤ (3#9 : NodeIdx).toNat ∧ treed.err = false) ∧
      (treedErr.nodeCount.toNat ≤ (3#9 : NodeIdx).toNat ∧ treedErr.err = true) := by
  refine ⟨?_, ?_, ⟨?_, rfl⟩, ⟨?_, rfl⟩⟩ <;> decide +kernel

theorem witness_StatusShowsTheState :
    treed.busyNow = false ∧ ({ treed with busy := true } : State).busyNow = true ∧
      ({ treed with rstIn := [.high] } : State).busyNow = true := ⟨rfl, rfl, rfl⟩

theorem witness_ResultWrittenOnlyByReturningCommands :
    (∃ s t : State, exec .clr s = .next t) ∧ (∃ s t : State, exec .build s = .next t) ∧
    (∃ (i : Instr) (s t : State), exec i s = .next t ∧ s.err = false ∧ t.err = true) :=
  ⟨⟨treed, _, rfl⟩, ⟨treed, _, rfl⟩, witness_ErrorsArePrecise.2.2⟩

theorem witness_AccessMatrixOfWrites : ∃ (i : Instr) (s t : State), exec i s = .next t := ⟨.qroot, treed, _, rfl⟩

theorem witness_OutputLogsAreAppendOnly : ∃ (b : Byte) (s t : State), exec (.dec b) s = .next t :=
  ⟨0x30#8, treedErr, _, rfl⟩

theorem witness_OtherCommandsMayBeRepeated :
    ∃ s t : State, s.CountsOk ∧ exec (.wfreq 0x61#8 3#32) s = .next t := ⟨treed, _, treed_inv.counts, rfl⟩

theorem witness_EncodeAndDecodeInterleave :
    ∃ (b : Byte) (t : State), treed.err = false ∧ (treed.readCode 0x61#8).valid = true ∧
      exec (.dec b) treed = .next t ∧ t.err = false := by
  obtain ⟨nd, nx, h1, h2, h3, h4⟩ := witness_DecTakesOneCharacter.2.2.2.1
  refine ⟨0x30#8, (treed.emitDec nx.byte).walkerToRoot, rfl, treed_code_a, ?_, rfl⟩
  have hx : bitOfChar 0x30#8 = some false := by decide
  simp [exec, execDec, unlessBlocked_of_noErr (show treed.err = false from rfl), State.treeValid, treed_root_ne, mux, hx,
    withNode_some h1, Node.child, withNode_some h2, arriveAt, h3, SENTINEL, h4]

end Sys2Proof.Tests
end

section
/-! PROOF. The reset values of R39's table: which states hold them, and that they imply every invariant. -/

namespace Sys2Proof.Machine

theorem State.reset_resetValues : State.reset.ResetValues :=
  have hcode : ∀ b, State.reset.readCode b = CodeEntry.reset := fun b => Vector.getElem_replicate b.isLt
  { freq := fun b => Vector.getElem_replicate b.isLt
    codeValid := fun b => by rw [hcode]; rfl
    codeLen := fun b => by rw [hcode]; rfl
    total := rfl, nodeCount := rfl, root := rfl, treeValid := rfl, degen := rfl, leaves := rfl, cur := rfl, depth := rfl
    atRoot := rfl, partialBit := rfl, err := rfl, errcode := rfl, errinfo := rfl, result := rfl, pq := rfl, busy := rfl }

theorem State.clearAll_resetValues (s : State) : s.clearAll.ResetValues :=
  have hcode : ∀ b, s.clearAll.readCode b = noCode s.draws b.toNat := fun b => by simp [State.readCode]
  { freq := fun b => Vector.getElem_replicate b.isLt
    codeValid := fun b => by rw [hcode]; rfl
    codeLen := fun b => by rw [hcode]; rfl
    total := rfl, nodeCount := rfl, root := rfl, treeValid := rfl, degen := rfl, leaves := rfl, cur := rfl, depth := rfl
    atRoot := rfl, partialBit := rfl, err := rfl, errcode := rfl, errinfo := rfl, result := rfl, pq := rfl, busy := rfl }

/-- The table of R39 says nothing of the output logs. -/
theorem State.ResetValues.clearLogs {s : State} (h : s.ResetValues) : s.clearLogs.ResetValues := { h with }

section ResetValues

variable {s : State} (h : s.ResetValues)

include h

theorem State.ResetValues.freqSum : s.freqSum = 0 := by
  refine List.sum_eq_zero fun n hn => ?_
  obtain ⟨f, hf, rfl⟩ := List.mem_map.mp hn
  obtain ⟨k, hk, rfl⟩ := List.mem_iff_getElem.mp hf
  have hk : k < 256 := by simpa using hk
  have := h.freq (BitVec.ofNat 8 k)
  simp only [State.readFreq, BitVec.toNat_ofNat, Nat.mod_eq_of_lt hk] at this
  simp [this]

theorem State.ResetValues.countsOk : s.CountsOk := by
  simp [State.CountsOk, h.total, h.freqSum]

theorem State.ResetValues.errorsOk : s.ErrorsOk := by
  simp [State.ErrorsOk, h.err, h.errcode, h.errinfo]

/-- With no tree the tree invariants say nothing of a node. -/
theorem State.ResetValues.treeOk : s.TreeOk := by
  have hcount : s.nodeCount.toNat = 0 := by rw [h.nodeCount]; rfl
  have hleaves : s.leaves.toNat = 0 := by rw [h.leaves]; rfl
  have noNode : ∀ {p : Prop} (i : NodeIdx), i.toNat < s.nodeCount.toNat → p := fun i hi => by omega
  refine { regs := ?_, nodes := ?_, layout := ?_ }
  · exact { leaves_le := by omega, degen_iff := by simp [h.degen, hleaves], root_nil_iff := by simp [h.root, hleaves]
            no_tree := fun _ => hcount, tree := fun hne => absurd hleaves hne }
  · exact { leaf_iff := fun i _ hi => noNode i hi, internal := fun i _ hi => noNode i hi
            byte_leaf := fun i _ hi => noNode i hi, one_parent := fun i hi => noNode i hi }
  · exact { leaf_index := fun i _ hi => noNode i hi, byte_index := fun i _ hi => noNode i hi
            sentinel := fun i _ hi => noNode i hi, ascending := fun i j _ _ _ hj => by omega }

/-- With no tree there is no leaf, and no symbol has a code. -/
theorem State.ResetValues.codesOk : s.CodesOk := by
  have hno : ∀ b, (s.readCode b).valid ≠ true := fun b hv => by simp [h.codeValid b] at hv
  refine { valid_iff := fun b => ⟨fun hv => absurd hv (hno b), ?_⟩, path := fun b hv => absurd hv (hno b)
           len_pos := fun b hv => absurd hv (hno b), len_zero := fun b _ => h.codeLen b }
  rintro ⟨i, hi, -⟩
  simp [h.nodeCount] at hi

theorem State.ResetValues.walkerOk : s.WalkerOk where
  no_tree := fun _ => ⟨h.cur, h.depth⟩
  depth_le := by simp [h.depth]
  on_path := fun hr => absurd h.root hr
  internal := fun hr => absurd h.root hr

/-- The reset values meet every invariant. -/
theorem State.ResetValues.inv : s.Inv where
  counts := h.countsOk
  errors := h.errorsOk
  tree := h.treeOk
  codes := h.codesOk
  walker := h.walkerOk
  queue := h.pq

end ResetValues

/-- Settles O19: the reset state holds the reset values, and those meet every invariant. -/
theorem resetMeetsEveryInvariant : Obligations.ResetMeetsEveryInvariant := State.reset_resetValues.inv

/-- Settles O12, from the reset values of the reset state and of a cleared state. -/
theorem resetAndClrGiveResetValues : Obligations.ResetAndClrGiveResetValues := by
  refine ⟨⟨State.reset_resetValues, rfl, rfl, rfl⟩, fun s hs => ?_, fun s => ?_⟩
  · rcases hs with hs | hs <;> simp [State.busyNow, hs]
  · exact ⟨s.clearAll, rfl, s.clearAll_resetValues, rfl, rfl, rfl, rfl, rfl, rfl⟩

end Sys2Proof.Machine
end

section
/-! PROOF SUPPORT. What a command can do to the state, as one relation between a command, the state before it and the state
after it, and what a step can do, in terms of it. Every invariant is a case split over these. -/

namespace Sys2Proof

/-! ### The commands by what they may do -/

/-- The six commands that are blocked while `ERR = 1` (R229). -/
def Instr.isBlocked : Instr → Bool
  | .hist _ | .wfreq _ _ | .build | .enc _ | .dec _ | .dend => true
  | _ => false

/-- The six commands that can raise an error (R221). -/
def Instr.mayRaise : Instr → Bool
  | .hist _ | .wfreq _ _ | .enc _ | .qbit _ _ | .dec _ | .qnode _ _ => true
  | _ => false

/-- The seven commands that return a value and do nothing else (R26); `DEND` returns one too, and moves the walker. -/
def Instr.isRead : Instr → Bool
  | .rfreq _ | .qtotal | .qlen _ | .qbit _ _ | .qroot | .qnode _ _ | .qerr => true
  | _ => false

end Sys2Proof

namespace Sys2Proof.Machine

/-! ### What a command can do -/

/-- Command `i` takes state `s` to the given state: one constructor for each thing that can happen. -/
inductive Effect (s : State) : Instr → State → Prop where
  /-- R200 -/
  | nop : Effect s .nop s
  /-- A blocked command does nothing while an error is recorded (R229). -/
  | blocked {i : Instr} (hi : i.isBlocked = true) (herr : s.err = true) : Effect s i s
  /-- R220 -/
  | raised {i : Instr} (hi : i.mayRaise = true) (e : ErrKind) (info : BitVec 32) : Effect s i (s.raise e info)
  /-- R26 -/
  | read {i : Instr} (hi : i.isRead = true) (v : BitVec 64) : Effect s i (s.setResult v)
  /-- R201 -/
  | clr : Effect s .clr s.clearAll
  /-- R202 -/
  | errclr : Effect s .errclr s.clearError.walkerToRoot
  /-- R110 -/
  | hist (b : Byte) (herr : s.err = false) (hroom : s.total.toNat ≠ s.cfg.maxCount) :
      Effect s (.hist b) (s.setCount b ((s.readFreq b).toNat + 1) (s.total.toNat + 1))
  /-- R111 -/
  | wfreq (b : Byte) (d : BitVec 32) (herr : s.err = false)
      (hroom : ¬ (s.cfg.maxCount : Int) < (s.total.toNat : Int) - (s.readFreq b).toNat + d.toNat) :
      Effect s (.wfreq b d)
        (s.setCount b d.toNat (((s.total.toNat : Int) - (s.readFreq b).toNat + d.toNat) % 2 ^ s.cfg.W).toNat)
  /-- R137 -/
  | build (herr : s.err = false) : Effect s .build (s.installTree (buildTree s.cfg s.freq))
  /-- R160 -/
  | enc (b : Byte) (herr : s.err = false) (hvalid : (s.readCode b).valid = true) :
      Effect s (.enc b) (s.emitEnc ((s.readCode b).path.map charOfBit))
  /-- `DEC` arrives at a real leaf (R180). -/
  | decLeaf (b : Byte) (x : Bool) (nd nx : Node) (herr : s.err = false) (htree : s.treeValid = true)
      (hx : bitOfChar b = some x) (hnd : s.readNode s.cur = some nd) (hnx : s.readNode (nd.child x) = some nx)
      (hleaf : nx.leaf = true) (hsym : nx.sym ≠ SENTINEL) : Effect s (.dec b) (s.emitDec nx.byte).walkerToRoot
  /-- `DEC` arrives at an internal node (R180). -/
  | decNode (b : Byte) (x : Bool) (nd nx : Node) (herr : s.err = false) (htree : s.treeValid = true)
      (hx : bitOfChar b = some x) (hnd : s.readNode s.cur = some nd) (hnx : s.readNode (nd.child x) = some nx)
      (hleaf : nx.leaf = false) : Effect s (.dec b) (s.walkerTo (nd.child x))
  /-- R181 -/
  | dend (herr : s.err = false) :
      Effect s .dend ((s.setResult (s.depth.setWidth 64)).setPartial (s.depth != 0#8)).walkerToRoot

/-- What `DEC` can do, as an effect (R180, R182). -/
theorem execDec_effect {b : Byte} {s t : State} (h : execDec b s = .next t) : Effect s (.dec b) t := by
  rcases execDec_next h with ⟨he, rfl⟩ | ⟨-, -, rfl⟩ | ⟨-, -, -, rfl⟩ | ⟨x, nd, nx, he, htree, hx, hnd, hnx, h⟩
  · exact .blocked rfl he
  · exact .raised rfl _ _
  · exact .raised rfl _ _
  · rcases arriveAt_next h with ⟨-, -, rfl⟩ | ⟨hleaf, hsym, rfl⟩ | ⟨hleaf, rfl⟩
    · exact .raised rfl _ _
    · exact .decLeaf b x nd nx he htree hx hnd hnx hleaf hsym
    · exact .decNode b x nd nx he htree hx hnd hnx hleaf

/-- A command that answers a next state has one of the effects. -/
theorem exec_effect {i : Instr} {s t : State} (h : exec i s = .next t) : Effect s i t := by
  cases i with
  | nop => cases h; exact .nop
  | clr => cases h; exact .clr
  | errclr => cases h; exact .errclr
  | hist b =>
    rcases execHist_next h with ⟨he, rfl⟩ | ⟨-, -, rfl⟩ | ⟨he, hroom, rfl⟩
    · exact .blocked rfl he
    · exact .raised rfl _ _
    · exact .hist b he hroom
  | wfreq b d =>
    rcases execWfreq_next h with ⟨he, rfl⟩ | ⟨-, -, rfl⟩ | ⟨he, hroom, rfl⟩
    · exact .blocked rfl he
    · exact .raised rfl _ _
    · exact .wfreq b d he hroom
  | build =>
    rcases execBuild_next h with ⟨he, rfl⟩ | ⟨he, rfl⟩
    · exact .blocked rfl he
    · exact .build he
  | enc b =>
    rcases execEnc_next h with ⟨he, rfl⟩ | ⟨he, hvalid, rfl⟩ | ⟨-, -, rfl⟩
    · exact .blocked rfl he
    · exact .enc b he hvalid
    · exact .raised rfl _ _
  | qbit b d =>
    rcases execQbit_next h with ⟨-, -, v, rfl⟩ | ⟨-, rfl⟩
    · exact .read rfl v
    · exact .raised rfl _ _
  | dec b => exact execDec_effect h
  | dend =>
    rcases execDend_next h with ⟨he, rfl⟩ | ⟨he, rfl⟩
    · exact .blocked rfl he
    · exact .dend he
  | qnode n sel =>
    rcases execQnode_next h with ⟨-, rfl⟩ | ⟨-, nd, -, rfl⟩
    · exact .raised rfl _ _
    · exact .read rfl _
  | rfreq b | qtotal | qlen b | qroot | qerr => cases h; exact .read rfl _

/-! ### What a step can do -/

/-- The two states agree on every register and memory: only the ports, `BUSY`, the output streams and the model's draw
counter may differ. -/
def State.SameRegs (s t : State) : Prop :=
  t = { s with cmdIn := t.cmdIn, rstIn := t.rstIn, busy := t.busy, encOut := t.encOut, decOut := t.decOut, draws := t.draws }

/-- What a step can do, in terms of commands (R25, R230, R250): leave every register, complete a reset clearing, or execute a
command or take `ILLEGAL_COMMAND` once the word is off the port. -/
theorem step_cases {s t : State} (h : step s = .next t) :
    s.SameRegs t ∨ (∃ u : State, t = u.clearAll.clearLogs) ∨
      ∃ u, s.SameRegs u ∧ ((∃ i, Effect u i t) ∨ ∃ info, t = u.raise .illegalCommand info) := by
  rcases step_next h with ⟨-, rfl⟩ | ⟨-, -, rfl⟩ | ⟨-, -, -, rfl⟩ | ⟨w, rest, -, -, -, hrun⟩ | ⟨w, rest, u, -, -, -, -, rfl⟩
  · exact .inl rfl
  · exact .inr (.inl ⟨_, rfl⟩)
  · exact .inl rfl
  · refine .inr (.inr ⟨{ s.tickRst with cmdIn := rest }, rfl, ?_⟩)
    rcases runWord_next hrun with ⟨i, -, hi⟩ | ⟨r, -, rfl⟩
    · exact .inl ⟨i, exec_effect hi⟩
    · exact .inr ⟨_, rfl⟩
  · exact .inl rfl

/-- The induction over a step: a property of the registers that the reset values have and every error and every command
keep is kept by every step. -/
theorem step_keeps {P : State → Prop} (hregs : ∀ {s t : State}, s.SameRegs t → P s → P t)
    (hreset : ∀ {s : State}, s.ResetValues → P s) (hraise : ∀ {s : State} (e info), P s → P (s.raise e info))
    (heffect : ∀ {i : Instr} {s t : State}, Effect s i t → P s → P t) {s t : State} (hs : P s) (h : step s = .next t) :
    P t := by
  rcases step_cases h with hst | ⟨u, rfl⟩ | ⟨u, hsu, ⟨i, hi⟩ | ⟨info, rfl⟩⟩
  · exact hregs hst hs
  · exact hreset u.clearAll_resetValues.clearLogs
  · exact heffect hi (hregs hsu hs)
  · exact hraise _ _ (hregs hsu hs)

end Sys2Proof.Machine
end

section
/-! PROOF. Each invariant depends on a few fields only, so it is enough to look at the commands that write one of them. -/

namespace Sys2Proof.Machine

/-! ### The counts (R29) -/

/-- The invariant of the counts reads `FREQ`, `TOTAL` and the parameter. -/
theorem State.CountsOk.congr {s t : State} (h : s.CountsOk) (hcfg : t.cfg = s.cfg) (hfreq : t.freq = s.freq)
    (htotal : t.total = s.total) : t.CountsOk := by
  simpa [State.CountsOk, State.freqSum, hcfg, hfreq, htotal] using h

/-- Writing one count together with the total that belongs to it keeps R29. -/
theorem State.CountsOk.setCount {s : State} (h : s.CountsOk) (b : Byte) (v n : Nat)
    (hn : n + (s.readFreq b).toNat = s.total.toNat + v) (hle : n ≤ s.cfg.maxCount) : (s.setCount b v n).CountsOk := by
  obtain ⟨hsum, -⟩ := h
  have hfreq := s.readFreq_le_sum b
  have hv : (truncCount s.cfg v).toNat = v := truncCount_toNat (by omega)
  have hset := s.freqSum_setCount b v n
  have htotal : (s.setCount b v n).total.toNat = n := truncCount_toNat hle
  exact ⟨by omega, by rw [htotal]; exact hle⟩

theorem Effect.countsOk {i : Instr} {s t : State} (h : Effect s i t) (hs : s.CountsOk) : t.CountsOk := by
  obtain ⟨hsum, hmax⟩ := id hs
  cases h with
  | clr => exact s.clearAll_resetValues.countsOk
  | hist b _ hroom => exact hs.setCount b _ _ (by omega) (by omega)
  | wfreq b d _ hroom =>
    have hfreq := s.readFreq_le_sum b
    have hlt := Config.maxCount_lt s.cfg
    have hpow : ((2 ^ s.cfg.W : Nat) : Int) = 2 ^ s.cfg.W := Nat.cast_pow 2 s.cfg.W
    rw [Int.emod_eq_of_lt (by omega) (by omega)]
    exact hs.setCount b _ _ (by omega) (by omega)
  | _ => exact hs.congr (by simp) (by simp) (by simp)

theorem State.CountsOk.raise {s : State} (h : s.CountsOk) (e : ErrKind) (info : BitVec 32) : (s.raise e info).CountsOk :=
  h.congr (by simp) (by simp) (by simp)

theorem State.SameRegs.countsOk {s t : State} (h : s.SameRegs t) (hs : s.CountsOk) : t.CountsOk := by
  rw [h]; exact hs

/-- Settles O21: a command that writes a count writes the total that belongs to it. -/
theorem countInvariantKeptByEveryStep : Obligations.CountInvariantKeptByEveryStep := fun _ _ hs h =>
  step_keeps State.SameRegs.countsOk State.ResetValues.countsOk (fun e info hs => hs.raise e info) Effect.countsOk hs h

/-- The same induction for a property that `BUILD` keeps only when the counts are as R29 says. -/
theorem step_keeps_of_counts {P : State → Prop} (hregs : ∀ {s t : State}, s.SameRegs t → P s → P t)
    (hreset : ∀ {s : State}, s.ResetValues → P s) (hraise : ∀ {s : State} (e info), P s → P (s.raise e info))
    (heffect : ∀ {i : Instr} {s t : State}, Effect s i t → s.CountsOk → P s → P t) {s t : State} (hc : s.CountsOk)
    (hs : P s) (h : step s = .next t) : P t :=
  (step_keeps (P := fun s => s.CountsOk ∧ P s) (fun hst ⟨hc, hs⟩ => ⟨hst.countsOk hc, hregs hst hs⟩)
    (fun hr => ⟨hr.countsOk, hreset hr⟩) (fun e info ⟨hc, hs⟩ => ⟨hc.raise e info, hraise e info hs⟩)
    (fun hi ⟨hc, hs⟩ => ⟨hi.countsOk hc, heffect hi hc hs⟩) ⟨hc, hs⟩ h).2

/-! ### The tree (R31, R32) -/

/-- The two states have the same node RAM, tree registers and code table. -/
structure State.SameTree (s t : State) : Prop where
  node : t.node = s.node
  nodeCount : t.nodeCount = s.nodeCount
  root : t.root = s.root
  leaves : t.leaves = s.leaves
  degen : t.degen = s.degen
  code : t.code = s.code

section SameTree

variable {s t : State} (h : s.SameTree t)

include h

theorem State.SameTree.readNode : t.readNode = s.readNode := funext (State.readNode_congr h.node)

theorem State.SameTree.readCode : t.readCode = s.readCode := funext fun b => by simp [State.readCode, h.code]

theorem State.SameTree.follow : t.follow = s.follow := funext fun i => funext (State.follow_congr h.node i)

theorem State.SameTree.leafCount : t.leafCount = s.leafCount := by simp [State.leafCount, h.leaves, h.degen]

theorem State.SameTree.isChild : t.IsChild = s.IsChild := by
  funext i p; simp [State.IsChild, h.nodeCount, h.readNode]

theorem State.SameTree.isLeafOf : t.IsLeafOf = s.IsLeafOf := by
  funext b i; simp [State.IsLeafOf, h.nodeCount, h.readNode]

theorem State.SameTree.treeRegsOk (hs : s.TreeRegsOk) : t.TreeRegsOk where
  leaves_le := by rw [h.leaves]; exact hs.leaves_le
  degen_iff := by rw [h.degen, h.leaves]; exact hs.degen_iff
  root_nil_iff := by rw [h.root, h.leaves]; exact hs.root_nil_iff
  no_tree := by rw [h.leaves, h.nodeCount]; exact hs.no_tree
  tree := by rw [h.leaves, h.nodeCount, h.leafCount, h.root]; exact hs.tree

theorem State.SameTree.nodesOk (hs : s.NodesOk) : t.NodesOk where
  leaf_iff := by rw [h.nodeCount, h.readNode]; exact hs.leaf_iff
  internal := by rw [h.nodeCount, h.readNode]; exact hs.internal
  byte_leaf := by rw [h.nodeCount, h.readNode]; exact hs.byte_leaf
  one_parent := by rw [h.nodeCount, h.root, h.isChild]; exact hs.one_parent

theorem State.SameTree.layoutOk (hs : s.LayoutOk) : t.LayoutOk where
  leaf_index := by rw [h.nodeCount, h.readNode, h.leafCount]; exact hs.leaf_index
  byte_index := by rw [h.nodeCount, h.readNode, h.leaves]; exact hs.byte_index
  sentinel := by rw [h.nodeCount, h.readNode, h.leaves]; exact hs.sentinel
  ascending := by rw [h.readNode, h.leaves]; exact hs.ascending

theorem State.SameTree.treeOk (hs : s.TreeOk) : t.TreeOk where
  regs := h.treeRegsOk hs.regs
  nodes := h.nodesOk hs.nodes
  layout := h.layoutOk hs.layout

theorem State.SameTree.codesOk (hs : s.CodesOk) : t.CodesOk where
  valid_iff := by rw [h.readCode, h.isLeafOf]; exact hs.valid_iff
  path := by rw [h.readCode, h.follow, h.root, h.isLeafOf]; exact hs.path
  len_pos := by rw [h.readCode]; exact hs.len_pos
  len_zero := by rw [h.readCode]; exact hs.len_zero

/-- The walker's invariants read its registers and the tree. -/
theorem State.SameTree.walkerOk (hcur : t.cur = s.cur) (hdepth : t.depth = s.depth) (hs : s.WalkerOk) : t.WalkerOk where
  no_tree := by rw [h.root, hcur, hdepth]; exact hs.no_tree
  depth_le := by rw [hdepth]; exact hs.depth_le
  on_path := by rw [h.root, hdepth, h.follow, hcur]; exact hs.on_path
  internal := by rw [h.root, hcur, h.nodeCount, h.readNode]; exact hs.internal

end SameTree

/-- Taking an error leaves the tree alone. -/
theorem State.sameTree_raise (s : State) (e : ErrKind) (info : BitVec 32) : s.SameTree (s.raise e info) := by
  constructor <;> simp

theorem State.SameRegs.sameTree {s t : State} (h : s.SameRegs t) : s.SameTree t := by
  rw [h]; exact ⟨rfl, rfl, rfl, rfl, rfl, rfl⟩

theorem State.SameRegs.walkerOk {s t : State} (h : s.SameRegs t) (hs : s.WalkerOk) : t.WalkerOk :=
  h.sameTree.walkerOk (by rw [h]) (by rw [h]) hs

/-- Only `CLR` and `BUILD` write the tree and the code table (R61). -/
theorem Effect.tree_cases {i : Instr} {s t : State} (h : Effect s i t) :
    t = s.clearAll ∨ t = s.installTree (buildTree s.cfg s.freq) ∨ s.SameTree t := by
  cases h with
  | clr => exact .inl rfl
  | build => exact .inr (.inl rfl)
  | _ => exact .inr (.inr (by constructor <;> simp))

theorem Effect.treeOk {i : Instr} {s t : State} (h : Effect s i t) (hc : s.CountsOk) (hs : s.TreeOk) : t.TreeOk := by
  rcases h.tree_cases with rfl | rfl | hst
  · exact s.clearAll_resetValues.treeOk
  · exact (build_ok hc).1
  · exact hst.treeOk hs

/-- Settles O22: only `BUILD` makes a tree, and it makes one as R31 says when the counts are as R29 says. -/
theorem treeInvariantKeptByEveryStep : Obligations.TreeInvariantKeptByEveryStep := fun _ _ hc hs h =>
  step_keeps_of_counts (fun hst => hst.sameTree.treeOk) State.ResetValues.treeOk
    (fun e info => (State.sameTree_raise _ e info).treeOk) Effect.treeOk hc hs h

/-! ### The code table (R34) -/

theorem Effect.codesOk {i : Instr} {s t : State} (h : Effect s i t) (hc : s.CountsOk) (hs : s.CodesOk) : t.CodesOk := by
  rcases h.tree_cases with rfl | rfl | hst
  · exact s.clearAll_resetValues.codesOk
  · exact (build_ok hc).2.1
  · exact hst.codesOk hs

theorem step_codesOk {s t : State} (hc : s.CountsOk) (hs : s.CodesOk) (h : step s = .next t) : t.CodesOk :=
  step_keeps_of_counts (fun hst => hst.sameTree.codesOk) State.ResetValues.codesOk
    (fun e info => (State.sameTree_raise _ e info).codesOk) Effect.codesOk hc hs h

/-- No path goes on below a leaf. -/
theorem State.follow_leaf {s : State} {i j : NodeIdx} {nd : Node} (hnd : s.readNode i = some nd) (hleaf : nd.leaf = true)
    {q : List Bool} (h : s.follow i q = some j) : j = i := by
  cases q with
  | nil => simpa [State.follow, eq_comm] using h
  | cons x q => simp [State.follow, hnd, hleaf] at h

/-- A node is the leaf of one byte. -/
theorem State.IsLeafOf.byte_eq {s : State} {a b : Byte} {i : NodeIdx} (ha : s.IsLeafOf a i) (hb : s.IsLeafOf b i) :
    a = b := by
  obtain ⟨-, nd, hnd, -, hsa⟩ := ha
  obtain ⟨-, nd', hnd', -, hsb⟩ := hb
  rw [hnd] at hnd'
  cases hnd'
  apply BitVec.eq_of_toNat_eq
  rw [← byte_setWidth_toNat a, ← byte_setWidth_toNat b, ← hsa, hsb]

/-- Settles O40: a path that goes on from the leaf of `a` ends there, and that leaf is not the leaf of `b`. -/
theorem codesArePrefixFree : Obligations.CodesArePrefixFree := by
  rintro s hs a b hab hva hvb ⟨q, hq⟩
  obtain ⟨i, hfi, hi⟩ := hs.path a hva
  obtain ⟨j, hfj, hj⟩ := hs.path b hvb
  rw [← hq, State.follow_append hfi] at hfj
  obtain ⟨-, nd, hnd, hleaf, -⟩ := id hi
  obtain rfl := State.follow_leaf hnd hleaf hfj
  exact hab (hi.byte_eq hj)

/-- Settles O23: every step keeps the code-table invariants, and from those no code begins another. -/
theorem codeInvariantKeptByEveryStep : Obligations.CodeInvariantKeptByEveryStep := fun _ t hc hs h =>
  have ht := step_codesOk hc hs h
  ⟨ht, codesArePrefixFree t ht⟩

/-! ### The walker (R35) -/

/-- A walker at the root meets its invariants. -/
theorem State.TreeOk.walkerOk_at_root {s : State} (ht : s.TreeOk) (hcur : s.cur = s.root) (hdepth : s.depth = 0#8) :
    s.WalkerOk where
  no_tree := fun hr => ⟨hcur.trans hr, hdepth⟩
  depth_le := by simp [hdepth]
  on_path := fun _ => ⟨[], by simp [hdepth], by simp [State.follow, hcur]⟩
  internal := fun hr => by rw [hcur]; exact ht.root_internal hr

theorem Effect.walkerOk {i : Instr} {s t : State} (h : Effect s i t) (hc : s.CountsOk) (ht : s.TreeOk) (hs : s.WalkerOk) :
    t.WalkerOk := by
  have ht' := h.treeOk hc ht
  cases h with
  | clr => exact s.clearAll_resetValues.walkerOk
  | build => exact (build_ok hc).2.2.1
  | errclr | decLeaf | dend => exact ht'.walkerOk_at_root (by simp) (by simp)
  | decNode b x nd nx _ htree _ hnd hnx hleaf =>
    exact walkerTo_ok ht hs (by simpa [State.treeValid] using htree) hnd hnx hleaf
  | _ => exact State.SameTree.walkerOk (by constructor <;> simp) (by simp) (by simp) hs

/-- Settles O24: `DEC` moves the walker to an internal child, and every other command that moves it puts it on the root. -/
theorem walkerInvariantKeptByEveryStep : Obligations.WalkerInvariantKeptByEveryStep := fun _ _ hc ht hs h =>
  (step_keeps_of_counts (P := fun s => s.TreeOk ∧ s.WalkerOk)
    (fun hst ⟨ht, hs⟩ => ⟨hst.sameTree.treeOk ht, hst.walkerOk hs⟩) (fun hr => ⟨hr.treeOk, hr.walkerOk⟩)
    (fun e info ⟨ht, hs⟩ =>
      have hst := State.sameTree_raise _ e info
      ⟨hst.treeOk ht, hst.walkerOk (by simp) (by simp) hs⟩)
    (fun hi hc ⟨ht, hs⟩ => ⟨hi.treeOk hc ht, hi.walkerOk hc ht hs⟩) hc ⟨ht, hs⟩ h).2

/-! ### The queue (R36) -/

theorem Effect.pq_eq_nil {i : Instr} {s t : State} (h : Effect s i t) (hc : s.CountsOk) (hs : s.pq = []) : t.pq = [] := by
  cases h with
  | clr => rfl
  | build => exact (build_ok hc).2.2.2
  | _ => simpa using hs

/-- Settles O25: `BUILD` empties the queue that it fills, and no other command uses it. -/
theorem queueEmptyBetweenSteps : Obligations.QueueEmptyBetweenSteps := fun _ _ hc hs h =>
  step_keeps_of_counts (P := fun s => s.pq = []) (fun hst hs => by rw [hst]; exact hs) State.ResetValues.pq
    (fun e info hs => by simpa using hs) Effect.pq_eq_nil hc hs h

end Sys2Proof.Machine
end

section
/-! PROOF. Every command completes (R25, R66), which commands write `RESULT` (R26) and the logs (R37), and the ports. -/

namespace Sys2Proof.Machine

/-! ### Completion -/

theorem unlessBlocked_completes {s : State} {go : State → Outcome State Fault Refusal} (h : ∃ t, go s = .next t) :
    ∃ t, unlessBlocked s go = .next t := by
  cases he : s.err with
  | true => exact ⟨s, unlessBlocked_of_err he go⟩
  | false => rwa [unlessBlocked_of_noErr he]

theorem raiseError_completes (e : ErrKind) (info : BitVec 32) (s : State) : ∃ t, raiseError e info s = .next t := ⟨_, rfl⟩

theorem withNode_completes {s : State} {i : NodeIdx} {go : Node → Outcome State Fault Refusal} (hi : i.toNat < NODE_MAX)
    (h : ∀ nd, s.readNode i = some nd → ∃ t, go nd = .next t) : ∃ t, withNode s i go = .next t := by
  rw [withNode_some (State.readNode_of_lt hi)]
  exact h _ (State.readNode_of_lt hi)

/-- The tree fits in node RAM (R139). -/
theorem State.TreeOk.nodeCount_le {s : State} (ht : s.TreeOk) : s.nodeCount.toNat ≤ NODE_MAX := by
  by_cases hr : s.root = NIL
  · rw [ht.regs.no_tree (ht.regs.root_nil_iff.mp hr)]; exact Nat.zero_le _
  · obtain ⟨-, hle, hcount, -⟩ := ht.sizes hr
    unfold NODE_MAX; omega

theorem arriveAt_completes (nxt : NodeIdx) (nd : Node) (s : State) : ∃ t, arriveAt nxt nd s = .next t := by
  unfold arriveAt
  split
  · split
    · exact raiseError_completes _ _ _
    · exact ⟨_, rfl⟩
  · exact ⟨_, rfl⟩

theorem execHist_completes (b : Byte) (s : State) : ∃ t, execHist b s = .next t := by
  refine unlessBlocked_completes ?_
  split
  · exact raiseError_completes _ _ _
  · exact ⟨_, rfl⟩

theorem execWfreq_completes (b : Byte) (d : BitVec 32) (s : State) : ∃ t, execWfreq b d s = .next t := by
  refine unlessBlocked_completes ?_
  dsimp only
  split
  · exact raiseError_completes _ _ _
  · exact ⟨_, rfl⟩

theorem execBuild_completes (s : State) : ∃ t, execBuild s = .next t := by
  refine unlessBlocked_completes ?_
  exact ⟨_, rfl⟩

theorem execDend_completes (s : State) : ∃ t, execDend s = .next t := by
  refine unlessBlocked_completes ?_
  exact ⟨_, rfl⟩

theorem execEnc_completes (b : Byte) (s : State) : ∃ t, execEnc b s = .next t := by
  refine unlessBlocked_completes ?_
  split
  · exact ⟨_, rfl⟩
  · exact raiseError_completes _ _ _

theorem execQbit_completes (b : Byte) (d : BitVec 32) (s : State) : ∃ t, execQbit b d s = .next t := by
  unfold execQbit
  dsimp only
  split
  · exact ⟨_, rfl⟩
  · exact raiseError_completes _ _ _

/-- `QNODE` reads a node of the tree only. -/
theorem execQnode_completes {s : State} (ht : s.TreeOk) (n : NodeIdx) (sel : NodeSel) :
    ∃ t, execQnode n sel s = .next t := by
  have hle := ht.nodeCount_le
  unfold execQnode
  split
  · exact raiseError_completes _ _ _
  · exact withNode_completes (by omega) fun _ _ => ⟨_, rfl⟩

/-- `DEC` reads the walker's node, an internal one, and one of its children, which lies below it. -/
theorem execDec_completes {s : State} (ht : s.TreeOk) (hw : s.WalkerOk) (b : Byte) : ∃ t, execDec b s = .next t := by
  have hle := ht.nodeCount_le
  refine unlessBlocked_completes ?_
  split
  · rename_i hv
    obtain ⟨hcur, nd, hnd, hleaf⟩ := hw.internal (by simpa [State.treeValid] using hv)
    obtain ⟨hleft, hright, -⟩ := ht.nodes.internal s.cur nd hcur hnd hleaf
    unfold mux
    split
    · exact raiseError_completes _ _ _
    · rename_i x _
      have hchild : (nd.child x).toNat < s.cur.toNat := by cases x <;> assumption
      rw [withNode_some hnd]
      exact withNode_completes (by omega) fun nx _ => arriveAt_completes _ nx s
  · exact raiseError_completes _ _ _

/-- Settles O26: only `DEC` and `QNODE` can fault, and in a state with the invariants the nodes they read exist. -/
theorem everyCommandCompletes : Obligations.EveryCommandCompletes := by
  intro i s hs
  cases i with
  | hist b => exact execHist_completes b s
  | wfreq b d => exact execWfreq_completes b d s
  | enc b => exact execEnc_completes b s
  | qbit b d => exact execQbit_completes b d s
  | dec b => exact execDec_completes hs.tree hs.walker b
  | qnode n sel => exact execQnode_completes hs.tree n sel
  | build => exact execBuild_completes s
  | dend => exact execDend_completes s
  | nop | clr | errclr | rfreq | qtotal | qlen | qroot | qerr => exact ⟨_, rfl⟩

/-! ### `RESULT` (R26) -/

/-- A command that takes an error leaves `RESULT`. -/
theorem Effect.result_of_new_error {i : Instr} {s t : State} (h : Effect s i t) (hs : s.err = false) (ht : t.err = true) :
    t.result = s.result := by
  cases h with
  | read | clr | dend => simp [hs] at ht
  | _ => simp

/-- A command that returns no value leaves `RESULT`. -/
theorem Effect.result_eq {i : Instr} {s t : State} (h : Effect s i t) (hread : i.isRead = false) (hclr : i ≠ .clr)
    (hdend : i ≠ .dend) : t.result = s.result := by
  cases h with
  | read hi => simp [hread] at hi
  | clr => exact absurd rfl hclr
  | dend => exact absurd rfl hdend
  | _ => simp

/-- Settles O56, from the effects of the commands. -/
theorem resultWrittenOnlyByReturningCommands : Obligations.ResultWrittenOnlyByReturningCommands := by
  refine ⟨rfl, fun i s t h => ⟨?_, (exec_effect h).result_of_new_error, ?_⟩⟩
  · rintro rfl
    cases h
    rfl
  · cases i with
    | rfreq | qtotal | qlen | qbit | dend | qroot | qnode | qerr | clr => trivial
    | _ => exact (exec_effect h).result_eq rfl (by simp) (by simp)

/-! ### The output streams and the log of errors (R37, R237) -/

/-- Taking an error at most appends to the log of errors. -/
theorem State.errLog_prefix_raise (s : State) (e : ErrKind) (info : BitVec 32) : s.errLog <+: (s.raise e info).errLog := by
  unfold State.raise
  split
  · exact List.prefix_refl _
  · exact List.prefix_append _ _

theorem Effect.errLog_prefix {i : Instr} {s t : State} (h : Effect s i t) : s.errLog <+: t.errLog := by
  cases h with
  | raised _ e info => exact s.errLog_prefix_raise e info
  | _ => simp

theorem Effect.encOut_prefix {i : Instr} {s t : State} (h : Effect s i t) : s.encOut <+: t.encOut := by
  cases h <;> simp

theorem Effect.decOut_prefix {i : Instr} {s t : State} (h : Effect s i t) : s.decOut <+: t.decOut := by
  cases h <;> simp

theorem Effect.encOut_eq {i : Instr} {s t : State} (h : Effect s i t) (hi : ∀ b, i ≠ .enc b) : t.encOut = s.encOut := by
  cases h with
  | enc b => exact absurd rfl (hi b)
  | _ => simp

theorem Effect.decOut_eq {i : Instr} {s t : State} (h : Effect s i t) (hi : ∀ b, i ≠ .dec b) : t.decOut = s.decOut := by
  cases h with
  | decLeaf b => exact absurd rfl (hi b)
  | _ => simp

theorem Effect.decOut_length_le {i : Instr} {s t : State} (h : Effect s i t) : t.decOut.length ≤ s.decOut.length + 1 := by
  cases h <;> simp

/-- Settles O58, from the effects of the commands. -/
theorem outputLogsAreAppendOnly : Obligations.OutputLogsAreAppendOnly := by
  intro i s t h
  have he := exec_effect h
  refine ⟨he.encOut_prefix, he.decOut_prefix, he.errLog_prefix, ?_, ?_⟩
  · cases i with
    | enc => trivial
    | _ => exact he.encOut_eq (by simp)
  · cases i with
    | dec => exact he.decOut_length_le
    | _ => exact he.decOut_eq (by simp)

/-! ### The step and the ports -/

/-- Settles O7: with `rst` low throughout and no clearing due, the port accepts the word and runs what it decodes to. -/
theorem stepRunsDecodedCommand : Obligations.StepRunsDecodedCommand := by
  intro s w rest i hrst hbusy hcmd hdec
  have hhigh : s.rst = false := by simp [State.rst, hrst]
  have hrises : s.rstRises = false := by simp [State.rstRises, hrst]
  simp [step, advance, hhigh, hrises, hbusy, acceptCommand, hcmd, runWord, hdec, State.tickRst]

/-- Bits put side by side, as numbers. -/
theorem toNat_append_eq_add {m n : Nat} (x : BitVec m) (y : BitVec n) : (x ++ y).toNat = x.toNat * 2 ^ n + y.toNat := by
  rw [BitVec.toNat_append, ← Nat.shiftLeft_add_eq_or_of_lt y.isLt, Nat.shiftLeft_eq]

/-- The layout of `STATUS` (R24) as a number. -/
theorem State.statusWord_toNat (s : State) : s.statusWord.toNat =
    s.treeValid.toNat * 2 + s.err.toNat * 4 + s.degen.toNat * 8 + s.errcode.toNat * 16 + s.atRoot.toNat * 256 +
      s.partialBit.toNat * 512 + s.leaves.toNat * 2 ^ 16 := by
  simp only [State.statusWord, State.statusFields, toNat_append_eq_add, BitVec.toNat_ofBool, BitVec.toNat_ofNat]
  omega

theorem State.treeValid_toNat (s : State) : s.treeValid.toNat = if s.root = NIL then 0 else 1 := by
  unfold State.treeValid
  split <;> simp_all

theorem State.atRoot_toNat (s : State) : s.atRoot.toNat = if s.depth = 0#8 then 1 else 0 := by
  unfold State.atRoot
  split <;> simp_all

/-- Settles O55, from the layout of `STATUS`. -/
theorem statusShowsTheState : Obligations.StatusShowsTheState := by
  refine ⟨fun _ => rfl, fun s read => ⟨fun h => ?_, fun h => ?_, fun h => ?_⟩⟩
  · rw [State.statusPort, h, if_neg Bool.false_ne_true, s.statusWord_toNat, s.treeValid_toNat, s.atRoot_toNat]
    split_ifs <;> omega
  · rw [State.statusPort, h, if_pos rfl, BitVec.getLsbD_append]
    rfl
  · rw [State.resultPort, h, if_neg Bool.false_ne_true]

end Sys2Proof.Machine
end

section
/-! PROOF. Words on the command port run as the commands they encode, in order (R67): a command does not look at the words
behind it, so taking it off the port and running it commute. -/

namespace Sys2Proof

/-- The word of a command passes the checks of its form (R82). -/
theorem Instr.form_check (i : Instr) : i.mnemonic.form.check i.symOf i.dataOf = none := by
  cases i with
  | nop | clr | errclr | qtotal | build | dend | qroot | qerr => rfl
  | qnode n sel => simp [Instr.mnemonic, Mnemonic.form, Form.check, Instr.dataOf]
  | _ => simp [Instr.mnemonic, Mnemonic.form, Form.check, Instr.symOf, Instr.dataOf]

/-- The operands assembled from the fields of a command's word are the command's (R83). -/
theorem Instr.ofMnemonic_operandsOf (i : Instr) : Instr.ofMnemonic i.mnemonic (operandsOf i.symOf i.dataOf) = i := by
  cases i <;> simp [Instr.mnemonic, Instr.ofMnemonic, operandsOf, Instr.symOf, Instr.dataOf]

theorem decode_encode (i : Instr) : decode (encode i) = .ok i := by
  simp [encode, decode_packWord, decodeFields, Instr.form_check, Instr.ofMnemonic_operandsOf]

end Sys2Proof

namespace Sys2Proof.Machine

/-! ### Going on after an outcome -/

/-- Going on with `go` from the next state, if there is one. -/
def andThen (o : Outcome State Fault Refusal) (go : State → Outcome State Fault Refusal) : Outcome State Fault Refusal :=
  match o with
  | .next t => go t
  | .fault r => .fault r
  | .refused r => .refused r

@[simp] theorem andThen_next (t : State) (go : State → Outcome State Fault Refusal) : andThen (.next t) go = go t := rfl

theorem andThen_assoc (o : Outcome State Fault Refusal) (f g : State → Outcome State Fault Refusal) :
    andThen (andThen o f) g = andThen o fun t => andThen (f t) g := by
  cases o <;> rfl

theorem andThen_congr {o : Outcome State Fault Refusal} {f g : State → Outcome State Fault Refusal}
    (h : ∀ t, o = .next t → f t = g t) : andThen o f = andThen o g := by
  cases o with
  | next t => exact h t rfl
  | fault | refused => rfl

theorem andThen_ite (p : Prop) [Decidable p] (x y : Outcome State Fault Refusal)
    (go : State → Outcome State Fault Refusal) :
    andThen (if p then x else y) go = if p then andThen x go else andThen y go :=
  apply_ite (andThen · go) p x y

/-- `k` steps of the machine, at its own types. -/
def runSteps (k : Nat) (s : State) : Outcome State Fault Refusal := Host.Core.run core k s

theorem runSteps_succ (k : Nat) (s : State) : runSteps (k + 1) s = andThen (step s) (runSteps k) := by
  unfold runSteps andThen
  simp only [Host.Core.run]
  generalize h : core.step s = o
  rw [show step s = o from h]
  cases o <;> rfl

theorem execAll_cons (i : Instr) (is : List Instr) (s : State) : execAll (i :: is) s = andThen (exec i s) (execAll is) := rfl

/-! ### The words behind a command -/

/-- The state with the given presentations still to come. -/
def State.withCmdIn (s : State) (c : List Presentation) : State := { s with cmdIn := c }

section WithCmdIn

variable (s : State) (c : List Presentation)

/-- The outcome `o`, with the presentations `c` left on the port. -/
abbrev leaving (o : Outcome State Fault Refusal) : Outcome State Fault Refusal := andThen o fun t => .next (t.withCmdIn c)

theorem raiseError_withCmdIn (e : ErrKind) (info : BitVec 32) :
    raiseError e info (s.withCmdIn c) = leaving c (raiseError e info s) := by
  cases he : s.err <;> simp [raiseError, State.raise, State.withCmdIn, he]

theorem unlessBlocked_withCmdIn {go : State → Outcome State Fault Refusal}
    (h : go (s.withCmdIn c) = leaving c (go s)) :
    unlessBlocked (s.withCmdIn c) go = leaving c (unlessBlocked s go) := by
  cases he : s.err with
  | true => rw [unlessBlocked_of_err he, unlessBlocked_of_err (show (s.withCmdIn c).err = true from he)]; rfl
  | false => rw [unlessBlocked_of_noErr he, unlessBlocked_of_noErr (show (s.withCmdIn c).err = false from he), h]

theorem withNode_withCmdIn (n : NodeIdx) {f g : Node → Outcome State Fault Refusal} (h : ∀ nd, f nd = leaving c (g nd)) :
    withNode (s.withCmdIn c) n f = leaving c (withNode s n g) := by
  have hread : (s.withCmdIn c).readNode n = s.readNode n := rfl
  unfold withNode
  rw [hread]
  cases s.readNode n with
  | none => rfl
  | some nd => exact h nd

theorem arriveAt_withCmdIn (n : NodeIdx) (nd : Node) :
    arriveAt n nd (s.withCmdIn c) = leaving c (arriveAt n nd s) := by
  unfold arriveAt
  rw [leaving, andThen_ite, andThen_ite, raiseError_withCmdIn]
  rfl

theorem execDec_withCmdIn (b : Byte) : execDec b (s.withCmdIn c) = leaving c (execDec b s) := by
  refine unlessBlocked_withCmdIn s c ?_
  rw [leaving, andThen_ite, raiseError_withCmdIn]
  refine if_congr Iff.rfl ?_ rfl
  unfold mux
  cases bitOfChar b with
  | none => exact raiseError_withCmdIn s c _ _
  | some x => exact withNode_withCmdIn s c _ fun nd => withNode_withCmdIn s c _ fun nx => arriveAt_withCmdIn s c _ nx

theorem execQnode_withCmdIn (n : NodeIdx) (sel : NodeSel) :
    execQnode n sel (s.withCmdIn c) = leaving c (execQnode n sel s) := by
  unfold execQnode
  rw [leaving, andThen_ite, raiseError_withCmdIn]
  exact if_congr Iff.rfl rfl (withNode_withCmdIn s c n fun _ => rfl)

/-- States with the same code table agree on what `QBIT` does: the bit it returns, or the error it raises (R162). -/
theorem execQbit_cases (b : Byte) (d : BitVec 32) :
    (∃ v, ∀ u : State, u.code = s.code → execQbit b d u = .next (u.setResult v)) ∨
      ∀ u : State, u.code = s.code → execQbit b d u = raiseError .queryRange d u := by
  have hread : ∀ u : State, u.code = s.code → u.readCode b = s.readCode b := fun u hu => by simp [State.readCode, hu]
  by_cases hc : (s.readCode b).valid = true ∧ d.toNat < (s.readCode b).len.toNat
  · have hlt : d.toNat < CODE_MAX := by have := (s.readCode b).len.isLt; unfold CODE_MAX; omega
    exact .inl ⟨(BitVec.ofBool (s.readCode b).bits[d.toNat]).setWidth 64, fun u hu => by
      simp only [execQbit, hread u hu]; exact dif_pos hc⟩
  · exact .inr fun u hu => dif_neg (by rw [hread u hu]; exact hc)

theorem execQbit_withCmdIn (b : Byte) (d : BitVec 32) : execQbit b d (s.withCmdIn c) = leaving c (execQbit b d s) := by
  rcases execQbit_cases s b d with ⟨v, hv⟩ | hraise
  · rw [hv s rfl, hv (s.withCmdIn c) rfl]
    rfl
  · rw [hraise s rfl, hraise (s.withCmdIn c) rfl, raiseError_withCmdIn]

theorem execHist_withCmdIn (b : Byte) : execHist b (s.withCmdIn c) = leaving c (execHist b s) := by
  refine unlessBlocked_withCmdIn s c ?_
  rw [leaving, andThen_ite, raiseError_withCmdIn]
  rfl

theorem execWfreq_withCmdIn (b : Byte) (d : BitVec 32) : execWfreq b d (s.withCmdIn c) = leaving c (execWfreq b d s) := by
  refine unlessBlocked_withCmdIn s c ?_
  dsimp only
  rw [leaving, andThen_ite, raiseError_withCmdIn]
  rfl

theorem execEnc_withCmdIn (b : Byte) : execEnc b (s.withCmdIn c) = leaving c (execEnc b s) := by
  refine unlessBlocked_withCmdIn s c ?_
  rw [leaving, andThen_ite, raiseError_withCmdIn]
  rfl

theorem execBuild_withCmdIn : execBuild (s.withCmdIn c) = leaving c (execBuild s) := by
  refine unlessBlocked_withCmdIn s c ?_
  simp only [State.installTree, State.withCmdIn, andThen_next]

theorem execDend_withCmdIn : execDend (s.withCmdIn c) = leaving c (execDend s) :=
  unlessBlocked_withCmdIn s c rfl

/-- A command does not look at the words behind it, and leaves them. -/
theorem exec_withCmdIn (i : Instr) : exec i (s.withCmdIn c) = leaving c (exec i s) := by
  cases i with
  | hist b => exact execHist_withCmdIn s c b
  | wfreq b d => exact execWfreq_withCmdIn s c b d
  | build => exact execBuild_withCmdIn s c
  | enc b => exact execEnc_withCmdIn s c b
  | qbit b d => exact execQbit_withCmdIn s c b d
  | dec b => exact execDec_withCmdIn s c b
  | dend => exact execDend_withCmdIn s c
  | qnode n sel => exact execQnode_withCmdIn s c n sel
  | nop | clr | errclr | rfreq | qtotal | qlen | qroot | qerr => rfl

end WithCmdIn

/-! ### The queue of commands -/

/-- `rst` is the host's: no command changes what it will do. -/
theorem Effect.rstIn_eq {i : Instr} {s t : State} (h : Effect s i t) : t.rstIn = s.rstIn := by
  cases h <;> simp

/-- Only `rst` sets `BUSY`. -/
theorem Effect.busy_eq_false {i : Instr} {s t : State} (h : Effect s i t) (hs : s.busy = false) : t.busy = false := by
  cases h <;> simp [hs]

/-- The presentations of the words of the commands, each held until it is accepted. -/
def presented (is : List Instr) : List Presentation := is.map fun i => .held (encode i)

/-- A step takes the first command off the port and runs it. -/
theorem step_presented (i : Instr) (is : List Instr) {s : State} (hrst : s.rstIn = []) (hbusy : s.busy = false) :
    step (s.withCmdIn (presented (i :: is))) = exec i (s.withCmdIn (presented is)) := by
  have hlow : (s.withCmdIn (presented (i :: is))).rstNow = .low := by simp [State.rstNow, State.withCmdIn, hrst]
  rw [stepRunsDecodedCommand _ _ (presented is) i hlow hbusy rfl (decode_encode i)]
  simp [State.withCmdIn, hrst]

theorem runSteps_presented (is : List Instr) (s : State) (hrst : s.rstIn = []) (hbusy : s.busy = false) :
    runSteps is.length (s.withCmdIn (presented is)) = execAll is (s.withCmdIn []) := by
  induction is generalizing s with
  | nil => rfl
  | cons i is ih =>
    calc runSteps (is.length + 1) (s.withCmdIn (presented (i :: is)))
      _ = andThen (exec i (s.withCmdIn (presented is))) (runSteps is.length) := by
        rw [runSteps_succ, step_presented i is hrst hbusy]
      _ = andThen (exec i s) fun t => runSteps is.length (t.withCmdIn (presented is)) := by
        rw [exec_withCmdIn, andThen_assoc]; rfl
      _ = andThen (exec i s) fun t => execAll is (t.withCmdIn []) := andThen_congr fun t ht =>
        ih t ((exec_effect ht).rstIn_eq.trans hrst) ((exec_effect ht).busy_eq_false hbusy)
      _ = execAll (i :: is) (s.withCmdIn []) := by
        rw [execAll_cons, exec_withCmdIn, andThen_assoc]; rfl

/-- Settles O13: a step takes one command off the port and runs it, by induction on the commands presented. -/
theorem queuedCommandsRunInOrder : Obligations.QueuedCommandsRunInOrder := by
  intro is s hrst hbusy hcmd
  have hs : s = s.withCmdIn (presented is) := by rw [presented, ← hcmd]; rfl
  conv_lhs => rw [hs]
  exact runSteps_presented is s hrst hbusy

end Sys2Proof.Machine
end

section
/-! PROOF. The write columns of the access matrix (R61), and the commands that may be repeated (R65). -/

namespace Sys2Proof

/-! ### The write columns of R61 -/

/-- The commands that write `FREQ` and `TOTAL`. -/
def Instr.writesCounts : Instr → Bool
  | .hist _ | .wfreq _ _ | .clr => true
  | _ => false

/-- The commands that write node RAM, the tree registers and the code table. -/
def Instr.writesTree : Instr → Bool
  | .build | .clr => true
  | _ => false

/-- The commands that write the walker. -/
def Instr.writesWalker : Instr → Bool
  | .build | .dec _ | .dend | .clr | .errclr => true
  | _ => false

end Sys2Proof

namespace Sys2Proof.Machine

section Effect

variable {i : Instr} {s t : State} (h : Effect s i t)

include h

theorem Effect.cfg_eq : t.cfg = s.cfg := by
  cases h <;> simp

theorem Effect.counts_eq (hi : i.writesCounts = false) : t.freq = s.freq ∧ t.total = s.total := by
  cases h with
  | clr | hist | wfreq => cases hi
  | _ => simp

theorem Effect.sameTree (hi : i.writesTree = false) : s.SameTree t := by
  cases h with
  | clr | build => cases hi
  | _ => constructor <;> simp

theorem Effect.walker_eq (hi : i.writesWalker = false) : t.cur = s.cur ∧ t.depth = s.depth := by
  cases h with
  | clr | errclr | build | decLeaf | decNode | dend => cases hi
  | _ => simp

theorem Effect.partialBit_eq (hdend : i ≠ .dend) (hclr : i ≠ .clr) : t.partialBit = s.partialBit := by
  cases h with
  | clr => exact absurd rfl hclr
  | dend => exact absurd rfl hdend
  | _ => simp

end Effect

theorem State.SameTree.fields {s t : State} (h : s.SameTree t) : t.node = s.node ∧ t.nodeCount = s.nodeCount ∧
    t.root = s.root ∧ t.leaves = s.leaves ∧ t.degen = s.degen ∧ t.code = s.code :=
  ⟨h.node, h.nodeCount, h.root, h.leaves, h.degen, h.code⟩

/-- Settles O57, from the effects of the commands. -/
theorem accessMatrixOfWrites : Obligations.AccessMatrixOfWrites := by
  intro i s t h
  have he := exec_effect h
  refine ⟨he.cfg_eq, ?_, ?_, ?_, ?_⟩
  · cases i with
    | hist | wfreq | clr => trivial
    | _ => exact he.counts_eq rfl
  · cases i with
    | build | clr => trivial
    | _ => exact (he.sameTree rfl).fields
  · cases i with
    | build | dec | dend | clr | errclr => trivial
    | _ => exact he.walker_eq rfl
  · cases i with
    | dend | clr => trivial
    | _ => exact he.partialBit_eq (by simp) (by simp)

/-! ### Repeated commands (R65) -/

/-- An error already recorded makes a second raise do nothing (R220). -/
theorem raiseError_raise (e : ErrKind) (info : BitVec 32) (s : State) :
    raiseError e info (s.raise e info) = .next (s.raise e info) :=
  congrArg Host.Outcome.next (State.raise_of_err (s.raise_err e info) e info)

/-- Writing the same count and total twice is writing them once. -/
theorem State.setCount_setCount (s : State) (b : Byte) (v n : Nat) :
    (s.setCount b v n).setCount b v n = s.setCount b v n := by
  simp [State.setCount]

/-- A `WFREQ` whose new total is `n`, a `W`-bit number, writes it (R111). -/
theorem execWfreq_of_total {b : Byte} {d : BitVec 32} {s : State} {n : Nat} (he : s.err = false)
    (hn : (s.total.toNat : Int) - (s.readFreq b).toNat + d.toNat = n) (hle : n ≤ s.cfg.maxCount) :
    execWfreq b d s = .next (s.setCount b d.toNat n) := by
  have hlt := Config.maxCount_lt s.cfg
  have hmod : ((n : Int) % 2 ^ s.cfg.W).toNat = n := by
    have hpow : ((2 ^ s.cfg.W : Nat) : Int) = 2 ^ s.cfg.W := Nat.cast_pow 2 s.cfg.W
    rw [Int.emod_eq_of_lt (by omega) (by omega), Int.toNat_natCast]
  rw [execWfreq, unlessBlocked_of_noErr he]
  simp only [hn, hmod]
  exact if_neg (by omega)

/-- A second `WFREQ` finds the count it wrote, so the new total is the old one. -/
theorem execWfreq_repeat {b : Byte} {d : BitVec 32} {s t : State} (hs : s.CountsOk) (h : execWfreq b d s = .next t) :
    execWfreq b d t = .next t := by
  rcases execWfreq_next h with ⟨-, rfl⟩ | ⟨-, -, rfl⟩ | ⟨he, hroom, -⟩
  · exact h
  · exact unlessBlocked_of_err (by simp) _
  · obtain ⟨hsum, -⟩ := hs
    have hfreq := s.readFreq_le_sum b
    obtain ⟨n, hn⟩ : ∃ n : Nat, (s.total.toNat : Int) - (s.readFreq b).toNat + d.toNat = n :=
      ⟨s.total.toNat - (s.readFreq b).toNat + d.toNat, by omega⟩
    have hle : n ≤ s.cfg.maxCount := by omega
    rw [execWfreq_of_total he hn hle] at h
    cases h
    have hagain : ((s.setCount b d.toNat n).total.toNat : Int) - ((s.setCount b d.toNat n).readFreq b).toNat + d.toNat = n := by
      rw [State.readFreq_setCount, if_pos rfl, State.setCount_total, truncCount_toNat hle, truncCount_toNat (by omega)]
      omega
    rw [execWfreq_of_total (s := s.setCount b d.toNat n) he hagain hle, State.setCount_setCount]

/-- A second `QBIT` finds the code that the first one found (R162). -/
theorem execQbit_repeat {b : Byte} {d : BitVec 32} {s t : State} (h : execQbit b d s = .next t) :
    execQbit b d t = .next t := by
  rcases execQbit_cases s b d with ⟨v, hv⟩ | hraise
  · rw [hv s rfl] at h
    cases h
    exact hv _ rfl
  · rw [hraise s rfl] at h
    cases h
    rw [hraise _ (by simp)]
    exact raiseError_raise _ _ s

/-- A second `QNODE` finds the node that the first one found (R204). -/
theorem execQnode_repeat {n : NodeIdx} {sel : NodeSel} {s t : State} (h : execQnode n sel s = .next t) :
    execQnode n sel t = .next t := by
  rcases execQnode_next h with ⟨hn, rfl⟩ | ⟨hn, nd, hnd, rfl⟩
  · rw [execQnode, if_pos (by simpa using hn)]
    exact raiseError_raise _ _ s
  · rw [execQnode, if_neg (by simpa using hn), withNode_some (show (s.setResult (nodeResult nd sel)).readNode n = some nd from hnd)]
    rfl

/-- Settles O59: what a read reports is not what it writes, and a command that raised finds the error recorded. -/
theorem otherCommandsMayBeRepeated : Obligations.OtherCommandsMayBeRepeated := by
  intro i s t hs hi h
  cases i with
  | hist | enc | dec | dend | clr | build => exact hi.elim
  | wfreq b d => exact execWfreq_repeat hs h
  | qbit b d => exact execQbit_repeat h
  | qnode n sel => exact execQnode_repeat h
  | nop | errclr | rfreq | qtotal | qlen | qroot | qerr => cases h; rfl

end Sys2Proof.Machine
end

section
/-! PROOF. Command words (`spec/30_encoding.md`): the decoder and the encoder are inverse (R82, R86), the decoder agrees with
the match and mask table (R84), which words are illegal (R85), and the assembler never truncates an operand (R88). -/

namespace Sys2Proof

/-! ### The fields a command's form gives its word (R82) -/

/-- The `SYM` field of a word of the form, with the operands `o`. -/
def Form.symOf (f : Form) (o : Operands) : BitVec 9 :=
  match f with
  | .Z => 0#9
  | .B | .BD => byteSym o.b
  | .N => o.n

/-- The `DATA` field of a word of the form, with the operands `o`. -/
def Form.dataOf (f : Form) (o : Operands) : BitVec 32 :=
  match f with
  | .Z | .B => 0#32
  | .BD => o.d
  | .N => selData o.sel

theorem Instr.symOf_ofMnemonic (m : Mnemonic) (o : Operands) : (Instr.ofMnemonic m o).symOf = m.form.symOf o := by
  cases m <;> rfl

theorem Instr.dataOf_ofMnemonic (m : Mnemonic) (o : Operands) : (Instr.ofMnemonic m o).dataOf = m.form.dataOf o := by
  cases m <;> rfl

theorem byteSym_of_high_zero {y : BitVec 9} (h : y.getLsbD 8 = false) : byteSym (y.extractLsb' 0 8) = y := by
  revert y; decide

theorem selData_of_high_zero {d : BitVec 32} (h : d.extractLsb' 2 30 = 0#30) :
    selData (NodeSel.ofBits (d.extractLsb' 0 2)) = d := by
  rw [selData, NodeSel.bits_ofBits, ← h]
  exact BitVec.extractLsb'_append_extractLsb'

/-! ### What a form checks (R82, R86) -/

theorem Form.check_Z {y : BitVec 9} {d : BitVec 32} : Form.Z.check y d = none ↔ y = 0#9 ∧ d = 0#32 := by
  by_cases hy : y = 0#9 <;> simp [Form.check, hy]

theorem Form.check_B {y : BitVec 9} {d : BitVec 32} : Form.B.check y d = none ↔ y.getLsbD 8 = false ∧ d = 0#32 := by
  by_cases hy : y[8] = true <;> simp [Form.check, hy]

theorem Form.check_BD {y : BitVec 9} {d : BitVec 32} : Form.BD.check y d = none ↔ y.getLsbD 8 = false := by
  simp [Form.check]

theorem Form.check_N {y : BitVec 9} {d : BitVec 32} : Form.N.check y d = none ↔ d.extractLsb' 2 30 = 0#30 := by
  simp [Form.check]

/-- A form that accepts `SYM` ignores no bit of it. -/
theorem Form.symOf_operandsOf {f : Form} {y : BitVec 9} {d : BitVec 32} (h : f.check y d = none) :
    f.symOf (operandsOf y d) = y := by
  cases f with
  | Z => exact (Form.check_Z.mp h).1.symm
  | B => exact byteSym_of_high_zero (Form.check_B.mp h).1
  | BD => exact byteSym_of_high_zero (Form.check_BD.mp h)
  | N => rfl

/-- A form that accepts `DATA` ignores no bit of it. -/
theorem Form.dataOf_operandsOf {f : Form} {y : BitVec 9} {d : BitVec 32} (h : f.check y d = none) :
    f.dataOf (operandsOf y d) = d := by
  cases f with
  | Z => exact (Form.check_Z.mp h).2.symm
  | B => exact (Form.check_B.mp h).2.symm
  | BD => rfl
  | N => exact selData_of_high_zero (Form.check_N.mp h)

/-- The word of the command with the operands of two accepted fields has those fields. -/
theorem encode_ofMnemonic_operandsOf {m : Mnemonic} {y : BitVec 9} {d : BitVec 32} (h : m.form.check y d = none) :
    encode (Instr.ofMnemonic m (operandsOf y d)) = packWord m.opc 0#15 y d := by
  rw [encode, Instr.mnemonic_ofMnemonic, Instr.symOf_ofMnemonic, Instr.dataOf_ofMnemonic, Form.symOf_operandsOf h,
    Form.dataOf_operandsOf h]

/-- What an accepted word is (R86): its fields, and the command with the operands assembled from them. -/
theorem decode_eq_ok_iff {w : CmdWord} {i : Instr} :
    decode w = .ok i ↔
      i.mnemonic.opc = opcField w ∧ rsvField w = 0#15 ∧ i.mnemonic.form.check (symField w) (dataField w) = none ∧
        i = Instr.ofMnemonic i.mnemonic (operandsOf (symField w) (dataField w)) := by
  constructor
  · intro h
    obtain ⟨m, hopc, hrsv, hcheck, rfl⟩ := decodeFields_eq_ok h
    rw [Instr.mnemonic_ofMnemonic]
    exact ⟨hopc, hrsv, hcheck, rfl⟩
  · rintro ⟨hopc, hrsv, hcheck, hi⟩
    simp only [decode, decodeFields, ← hopc, Mnemonic.ofOpc_opc, hrsv, hcheck, ← hi]
    rfl

theorem encode_of_decode {w : CmdWord} {i : Instr} (h : decode w = .ok i) : encode i = w := by
  obtain ⟨hopc, hrsv, hcheck, hi⟩ := decode_eq_ok_iff.mp h
  calc encode i
    _ = packWord i.mnemonic.opc 0#15 (symField w) (dataField w) := by
      conv_lhs => rw [hi]
      exact encode_ofMnemonic_operandsOf hcheck
    _ = packWord (opcField w) (rsvField w) (symField w) (dataField w) := by rw [hopc, hrsv]
    _ = w := packWord_fields w

/-- Settles O2: the fields of a packed word are what was packed, and they pass the checks of the command's own form. -/
theorem decodeEncodeRoundTrip : Obligations.DecodeEncodeRoundTrip := decode_encode

/-- Settles O3: every field of an accepted word is 0 or is an operand of the command, whole. -/
theorem decodedWordIsTheEncoding : Obligations.DecodedWordIsTheEncoding := fun _ _ => encode_of_decode

/-- Settles O1: each of the words is the encoding of the command it is said to decode to. -/
theorem sampleWordsDecode : Obligations.SampleWordsDecode :=
  ⟨decode_encode .nop, decode_encode .clr, decode_encode .errclr, decode_encode (.hist 0x61#8),
    decode_encode (.wfreq 0x61#8 5#32), decode_encode (.rfreq 0x7A#8), decode_encode .qtotal, decode_encode .build,
    decode_encode (.enc 0x62#8), decode_encode (.qlen 0x63#8), decode_encode (.qbit 0x61#8 0xFFFFFFFF#32),
    decode_encode (.dec 0x31#8), decode_encode .dend, decode_encode .qroot, decode_encode (.qnode 2#9 .left),
    decode_encode .qerr⟩

/-! ### The match and mask table (R84) -/

/-- `DATA` under the mask of form N: only `DATA[31:2]` counts. -/
theorem and_maskN_eq_zero_iff (d : BitVec 32) : d &&& 0xFFFFFFFC#32 = 0#32 ↔ d.extractLsb' 2 30 = 0#30 := by
  have hd : d &&& 0xFFFFFFFC#32 = d.extractLsb' 2 30 ++ 0#2 :=
    calc d &&& 0xFFFFFFFC#32
      _ = (d.extractLsb' 2 30 ++ d.extractLsb' 0 2) &&& (BitVec.allOnes 30 ++ 0#2) := by
        rw [BitVec.extractLsb'_append_extractLsb']; rfl
      _ = d.extractLsb' 2 30 ++ 0#2 := by rw [BitVec.and_append, BitVec.and_allOnes, BitVec.and_zero]
  rw [hd]
  constructor
  · intro h
    have hz := congrArg BitVec.toNat h
    rw [Machine.toNat_append_eq_add] at hz
    exact BitVec.eq_of_toNat_eq (by simpa using hz)
  · intro h
    rw [h]; rfl

/-- A form accepts `SYM` and `DATA` exactly when they are 0 under its mask. -/
theorem Form.check_eq_none_iff_mask (f : Form) (y : BitVec 9) (d : BitVec 32) :
    f.check y d = none ↔ y &&& f.fieldMask.2.1 = 0#9 ∧ d &&& f.fieldMask.2.2 = 0#32 := by
  have hall : y &&& 0x1FF#9 = y := BitVec.and_allOnes
  have hdata : d &&& 0xFFFFFFFF#32 = d := BitVec.and_allOnes
  have hhigh : y &&& 0x100#9 = 0#9 ↔ y.getLsbD 8 = false := by revert y; decide
  cases f with
  | Z => simp only [Form.check_Z, Form.fieldMask, hall, hdata]
  | B => simp only [Form.check_B, Form.fieldMask, hhigh, hdata]
  | BD => simp only [Form.check_BD, Form.fieldMask, hhigh, BitVec.and_zero, and_true]
  | N => simp only [Form.check_N, Form.fieldMask, BitVec.and_zero, true_and, and_maskN_eq_zero_iff]

/-- A word spells a row exactly when its fields pass the checks the decode procedure makes for the row. -/
theorem and_maskWord_eq_matchWord_iff (w : CmdWord) (m : Mnemonic) :
    w &&& m.maskWord = m.matchWord ↔
      opcField w = m.opc ∧ rsvField w = 0#15 ∧ m.form.check (symField w) (dataField w) = none := by
  have hopc : opcField w &&& 0xFF#8 = opcField w := BitVec.and_allOnes
  have hrsv : rsvField w &&& m.form.fieldMask.1 = rsvField w := by
    rw [show m.form.fieldMask.1 = BitVec.allOnes 15 by cases m.form <;> rfl, BitVec.and_allOnes]
  conv_lhs => rw [← packWord_fields w]
  rw [Mnemonic.maskWord_eq, Mnemonic.matchWord_eq, packWord_and, packWord_inj, hopc, hrsv, Form.check_eq_none_iff_mask]

/-- The decode procedure accepts a word as a row's exactly when its fields pass the checks for the row. -/
theorem decode_mnemonic_iff (w : CmdWord) (m : Mnemonic) :
    (∃ i, decode w = .ok i ∧ i.mnemonic = m) ↔
      opcField w = m.opc ∧ rsvField w = 0#15 ∧ m.form.check (symField w) (dataField w) = none := by
  constructor
  · rintro ⟨i, hi, rfl⟩
    obtain ⟨hopc, hrsv, hcheck, -⟩ := decode_eq_ok_iff.mp hi
    exact ⟨hopc.symm, hrsv, hcheck⟩
  · rintro ⟨hopc, hrsv, hcheck⟩
    refine ⟨Instr.ofMnemonic m (operandsOf (symField w) (dataField w)), ?_, Instr.mnemonic_ofMnemonic _ _⟩
    rw [decode_eq_ok_iff, Instr.mnemonic_ofMnemonic]
    exact ⟨hopc.symm, hrsv, hcheck, rfl⟩

/-- Settles O4: the table and the decode procedure make the same checks of the four fields, and the opcodes differ. -/
theorem decodeAgreesWithMatchAndMask : Obligations.DecodeAgreesWithMatchAndMask := by
  refine ⟨fun w m => (decode_mnemonic_iff w m).trans (and_maskWord_eq_matchWord_iff w m).symm, fun w m k hm hk => ?_⟩
  have hopcM := ((and_maskWord_eq_matchWord_iff w m).mp hm).1
  have hopcK := ((and_maskWord_eq_matchWord_iff w k).mp hk).1
  exact Mnemonic.opc_injective (hopcM.symm.trans hopcK)

/-! ### Illegal words (R85) -/

/-- The ranges of reserved opcodes, which R85 lists. -/
theorem Mnemonic.ofOpc_eq_none_iff (o : BitVec 8) :
    Mnemonic.ofOpc o = none ↔
      (0x03 ≤ o.toNat ∧ o.toNat ≤ 0x0F) ∨ (0x14 ≤ o.toNat ∧ o.toNat ≤ 0x1F) ∨ (0x21 ≤ o.toNat ∧ o.toNat ≤ 0x2F) ∨
        (0x33 ≤ o.toNat ∧ o.toNat ≤ 0x3F) ∨ (0x42 ≤ o.toNat ∧ o.toNat ≤ 0x4F) ∨
        (0x53 ≤ o.toNat ∧ o.toNat ≤ 0xFF) := by
  revert o; decide

theorem extractLsb'_high_ne_zero_iff (d : BitVec 32) : d.extractLsb' 2 30 ≠ 0#30 ↔ 4 ≤ d.toNat := by
  rw [Ne, ← BitVec.toNat_inj, BitVec.extractLsb'_toNat, Nat.shiftRight_eq_div_pow, BitVec.toNat_ofNat]
  have := d.isLt
  omega

/-- The fields each form requires to be 0. -/
theorem Form.check_ne_none_iff (f : Form) (y : BitVec 9) (d : BitVec 32) :
    f.check y d ≠ none ↔
      (f = .Z ∧ (y ≠ 0#9 ∨ d ≠ 0#32)) ∨ (f = .B ∧ (y.getLsbD 8 = true ∨ d ≠ 0#32)) ∨
        (f = .BD ∧ y.getLsbD 8 = true) ∨ (f = .N ∧ 4 ≤ d.toNat) := by
  cases f with
  | Z => simp [Form.check_Z, imp_iff_not_or]
  | B => simp [Form.check_B, imp_iff_not_or]
  | BD => simp [Form.check_BD]
  | N => simp [Form.check_N, ← extractLsb'_high_ne_zero_iff]

/-- A word is illegal when no row has its opcode, or the row that has it rejects another field. -/
theorem decode_eq_error_iff (w : CmdWord) :
    (∃ r, decode w = .error r) ↔
      Mnemonic.ofOpc (opcField w) = none ∨
        ∃ m : Mnemonic, m.opc = opcField w ∧
          (rsvField w ≠ 0#15 ∨ m.form.check (symField w) (dataField w) ≠ none) := by
  unfold decode decodeFields
  cases hm : Mnemonic.ofOpc (opcField w) with
  | none => simp
  | some m =>
    have hopc := Mnemonic.ofOpc_eq_some hm
    have honly : ∀ k : Mnemonic, k.opc = opcField w ↔ k = m :=
      fun k => ⟨fun hk => Mnemonic.opc_injective (hk.trans hopc.symm), fun hk => hk ▸ hopc⟩
    by_cases hrsv : rsvField w = 0#15
    · cases hcheck : m.form.check (symField w) (dataField w) <;> simp [honly, hrsv, hcheck]
    · simp [honly, hrsv]

theorem decode_eq_nop_iff (w : CmdWord) : decode w = .ok .nop ↔ w = 0#64 :=
  ⟨fun h => (encode_of_decode h).symm, fun h => h ▸ decode_encode .nop⟩

end Sys2Proof

namespace Sys2Proof.Machine

theorem runWord_of_illegal {w : CmdWord} {r : Reject} (h : decode w = .error r) (s : State) :
    runWord w s = raiseError .illegalCommand (illegalInfo w) s := by
  rw [runWord, h]

/-- An illegal word takes `ILLEGAL_COMMAND` if no error is recorded, and does nothing otherwise (R85, R220, R227). -/
theorem runWord_illegal_cases {w : CmdWord} {r : Reject} (h : decode w = .error r) (s : State) :
    (s.err = false → runWord w s = .next (s.withError 6#4 (w.extractLsb' 32 32))) ∧
      (s.err = true → runWord w s = .next s) := by
  rw [runWord_of_illegal h, raiseError]
  refine ⟨fun herr => ?_, fun herr => ?_⟩
  · rw [State.raise_of_noErr herr]; rfl
  · rw [State.raise_of_err herr]

/-- Settles O5, from the reserved opcodes, the checks of each form, and the uniqueness of a command's word. -/
theorem illegalWordsRaiseIllegalCommand : Obligations.IllegalWordsRaiseIllegalCommand := by
  refine ⟨fun w => ?_, decode_eq_nop_iff, fun w s r h => runWord_illegal_cases h s⟩
  rw [decode_eq_error_iff, Mnemonic.ofOpc_eq_none_iff]
  simp only [Form.check_ne_none_iff]

/-- The port accepts a held word when `rst` is low throughout and no clearing is due (R21, R25). -/
theorem step_of_held {s : State} {w : CmdWord} {rest : List Presentation} (hrst : s.rstNow = .low)
    (hbusy : s.busy = false) (hcmd : s.cmdIn = .held w :: rest) :
    step s = runWord w { s with cmdIn := rest, rstIn := s.rstIn.tail } := by
  have hhigh : s.rst = false := by simp [State.rst, hrst]
  have hrises : s.rstRises = false := by simp [State.rstRises, hrst]
  simp [step, advance, hhigh, hrises, hbusy, acceptCommand, hcmd, State.tickRst]

/-- Settles O8: the step runs the word, and the word is illegal. -/
theorem stepRaisesOnIllegalWord : Obligations.StepRaisesOnIllegalWord := by
  intro s w rest r hrst hbusy hcmd hdec
  rw [step_of_held hrst hbusy hcmd]
  exact runWord_illegal_cases hdec { s with cmdIn := rest, rstIn := s.rstIn.tail }

end Sys2Proof.Machine

namespace Sys2Proof

/-! ### The assembler (R88) -/

theorem AsmLine.assemble_of_error {m : Mnemonic} {args : List Nat} {e : AsmError}
    (h : checkOperands m.form args = .error e) : (AsmLine.mk m args).assemble = .error e := by
  simp only [AsmLine.assemble, h]

theorem AsmLine.assemble_Z {m : Mnemonic} (hm : m.form = .Z) :
    (AsmLine.mk m []).assemble = .ok (Instr.ofMnemonic m (operandsOf 0#9 0#32)) := by
  simp [AsmLine.assemble, hm, checkOperands]

theorem AsmLine.assemble_B {m : Mnemonic} {b : Nat} (hm : m.form = .B) (hb : b < 256) :
    (AsmLine.mk m [b]).assemble = .ok (Instr.ofMnemonic m (operandsOf (byteSym (BitVec.ofNat 8 b)) 0#32)) := by
  simp [AsmLine.assemble, hm, checkOperands, hb]

theorem AsmLine.assemble_BD {m : Mnemonic} {b d : Nat} (hm : m.form = .BD) (hb : b < 256) (hd : d < 2 ^ 32) :
    (AsmLine.mk m [b, d]).assemble =
      .ok (Instr.ofMnemonic m (operandsOf (byteSym (BitVec.ofNat 8 b)) (BitVec.ofNat 32 d))) := by
  simp only [AsmLine.assemble, hm, checkOperands, hb, hd, if_true]

theorem AsmLine.assemble_N {m : Mnemonic} {n sel : Nat} (hm : m.form = .N) (hn : n < 512) (hsel : sel < 4) :
    (AsmLine.mk m [n, sel]).assemble =
      .ok (Instr.ofMnemonic m (operandsOf (BitVec.ofNat 9 n) (selData (NodeSel.ofBits (BitVec.ofNat 2 sel))))) := by
  simp [AsmLine.assemble, hm, checkOperands, hn, hsel]

/-- The number of operands a form takes (R82). -/
def Form.arity : Form → Nat
  | .Z => 0
  | .B => 1
  | .BD => 2
  | .N => 2

theorem checkOperands_of_length_ne {f : Form} {args : List Nat} (h : args.length ≠ f.arity) :
    checkOperands f args = .error .operandCount := by
  match f, args, h with
  | .Z, [], h | .B, [_], h | .BD, [_, _], h | .N, [_, _], h => exact absurd rfl h
  | .Z, _ :: _, _ | .B, [], _ | .B, _ :: _ :: _, _ => rfl
  | .BD, [], _ | .BD, [_], _ | .BD, _ :: _ :: _ :: _, _ => rfl
  | .N, [], _ | .N, [_], _ | .N, _ :: _ :: _ :: _, _ => rfl

/-- A packed word as a number. -/
theorem packWord_toNat (o : BitVec 8) (y : BitVec 9) (d : BitVec 32) :
    (packWord o 0#15 y d).toNat = o.toNat * 2 ^ 56 + y.toNat * 2 ^ 32 + d.toNat := by
  simp only [packWord, Machine.toNat_append_eq_add, BitVec.toNat_ofNat]
  omega

theorem byteSym_toNat {b : Nat} (hb : b < 256) : (byteSym (BitVec.ofNat 8 b)).toNat = b := by
  simp only [byteSym, Machine.toNat_append_eq_add, BitVec.toNat_ofNat]
  omega

theorem selData_toNat {sel : Nat} (hsel : sel < 4) :
    (selData (NodeSel.ofBits (BitVec.ofNat 2 sel))).toNat = sel := by
  simp only [selData, NodeSel.bits_ofBits, Machine.toNat_append_eq_add, BitVec.toNat_ofNat]
  omega

/-- The word of the command with the operands of two accepted fields, as a number. -/
theorem encode_operandsOf_toNat {m : Mnemonic} {y : BitVec 9} {d : BitVec 32} (h : m.form.check y d = none) :
    (encode (Instr.ofMnemonic m (operandsOf y d))).toNat = m.opc.toNat * 2 ^ 56 + y.toNat * 2 ^ 32 + d.toNat := by
  rw [encode_ofMnemonic_operandsOf h, packWord_toNat]

theorem assemble_Z_word {m : Mnemonic} (hm : m.form = .Z) :
    ∃ i, (AsmLine.mk m []).assemble = .ok i ∧ (encode i).toNat = m.opc.toNat * 2 ^ 56 := by
  refine ⟨_, AsmLine.assemble_Z hm, ?_⟩
  rw [encode_operandsOf_toNat (by rw [hm, Form.check_Z]; exact ⟨rfl, rfl⟩)]
  simp

theorem assemble_B_word {m : Mnemonic} {b : Nat} (hm : m.form = .B) (hb : b < 256) :
    ∃ i, (AsmLine.mk m [b]).assemble = .ok i ∧ (encode i).toNat = m.opc.toNat * 2 ^ 56 + b * 2 ^ 32 := by
  refine ⟨_, AsmLine.assemble_B hm hb, ?_⟩
  rw [encode_operandsOf_toNat (by rw [hm, Form.check_B]; exact ⟨byteSym_high _, rfl⟩), byteSym_toNat hb]
  simp

theorem assemble_BD_word {m : Mnemonic} {b d : Nat} (hm : m.form = .BD) (hb : b < 256) (hd : d < 2 ^ 32) :
    ∃ i, (AsmLine.mk m [b, d]).assemble = .ok i ∧ (encode i).toNat = m.opc.toNat * 2 ^ 56 + b * 2 ^ 32 + d := by
  refine ⟨_, AsmLine.assemble_BD hm hb hd, ?_⟩
  rw [encode_operandsOf_toNat (by rw [hm, Form.check_BD]; exact byteSym_high _), byteSym_toNat hb,
    BitVec.toNat_ofNat, Nat.mod_eq_of_lt hd]

theorem assemble_N_word {m : Mnemonic} {n sel : Nat} (hm : m.form = .N) (hn : n < 512) (hsel : sel < 4) :
    ∃ i, (AsmLine.mk m [n, sel]).assemble = .ok i ∧ (encode i).toNat = m.opc.toNat * 2 ^ 56 + n * 2 ^ 32 + sel := by
  refine ⟨_, AsmLine.assemble_N hm hn hsel, ?_⟩
  rw [encode_operandsOf_toNat (by rw [hm, Form.check_N]; exact selData_high _), selData_toNat hsel,
    BitVec.toNat_ofNat, Nat.mod_eq_of_lt hn]

/-- Settles O6: operands in range are the fields of the word, and each check that fails names its error. -/
theorem assemblyNeverTruncates : Obligations.AssemblyNeverTruncates := by
  refine ⟨fun m => assemble_Z_word, fun m b hm => ⟨assemble_B_word hm, fun hb => ?_⟩,
    fun m b d hm => ⟨assemble_BD_word hm, fun hb => ?_, fun hb hd => ?_⟩,
    fun m n sel hm => ⟨assemble_N_word hm, fun hn => ?_, fun hn hsel => ?_⟩,
    fun m args h => AsmLine.assemble_of_error (checkOperands_of_length_ne h)⟩ <;>
    apply AsmLine.assemble_of_error <;> rw [hm]
  · exact if_neg (by omega)
  · exact if_neg (by omega)
  · exact (if_pos hb).trans (if_neg (by omega))
  · exact if_neg (by omega)
  · exact (if_pos hn).trans (if_neg (by omega))

end Sys2Proof
end

section
/-! PROOF. The words that spell a command and the illegal words beside them (R82, R85), and the frequency table commands
(`spec/40_histogram.md` R110–R113). -/

namespace Sys2Proof

theorem encode_ofMnemonic (m : Mnemonic) (o : Operands) :
    encode (Instr.ofMnemonic m o) = packWord m.opc 0#15 (m.form.symOf o) (m.form.dataOf o) := by
  rw [encode, Instr.mnemonic_ofMnemonic, Instr.symOf_ofMnemonic, Instr.dataOf_ofMnemonic]

/-- `RSV` and `SYM[8]` are the 16 zero bits between the opcode and a byte operand (R81, R82). -/
theorem packWord_byteSym (o : BitVec 8) (b : Byte) (d : BitVec 32) :
    packWord o 0#15 (byteSym b) d = o ++ 0#16 ++ b ++ d := by
  refine BitVec.eq_of_toNat_eq ?_
  rw [packWord_toNat]
  simp only [byteSym, Machine.toNat_append_eq_add, BitVec.toNat_ofNat]
  omega

theorem packWord_zero (o : BitVec 8) : packWord o 0#15 0#9 0#32 = o ++ 0#56 := by
  refine BitVec.eq_of_toNat_eq ?_
  rw [packWord_toNat, Machine.toNat_append_eq_add]
  simp

theorem encode_ofMnemonic_Z {m : Mnemonic} (hm : m.form = .Z) (o : Operands) :
    encode (Instr.ofMnemonic m o) = m.opc ++ 0#56 := by
  rw [encode_ofMnemonic, hm]; exact packWord_zero m.opc

theorem encode_ofMnemonic_B {m : Mnemonic} (hm : m.form = .B) (o : Operands) :
    encode (Instr.ofMnemonic m o) = m.opc ++ 0#16 ++ o.b ++ 0#32 := by
  rw [encode_ofMnemonic, hm]; exact packWord_byteSym m.opc o.b 0#32

theorem encode_ofMnemonic_BD {m : Mnemonic} (hm : m.form = .BD) (o : Operands) :
    encode (Instr.ofMnemonic m o) = m.opc ++ 0#16 ++ o.b ++ o.d := by
  rw [encode_ofMnemonic, hm]; exact packWord_byteSym m.opc o.b o.d

end Sys2Proof

namespace Sys2Proof.Machine

/-! ### The words of a row (R82, R85) -/

/-- A word with the opcode of a row that encodes no command of the row is illegal. -/
theorem illegalWord_of_ne_encode {m : Mnemonic} {w : CmdWord} (hopc : opcField w = m.opc)
    (hne : ∀ o : Operands, w ≠ encode (Instr.ofMnemonic m o)) : IllegalWord w := by
  cases h : decode w with
  | error r => exact ⟨⟨r, h⟩, fun s => (runWord_illegal_cases h s).1⟩
  | ok i =>
    obtain ⟨hrow, -, -, hi⟩ := decode_eq_ok_iff.mp h
    have hm : i.mnemonic = m := Mnemonic.opc_injective (hrow.trans hopc)
    have hw : w = encode (Instr.ofMnemonic m (operandsOf (symField w) (dataField w))) := by
      rw [← hm, ← hi, encode_of_decode h]
    exact absurd hw (hne _)

/-- The words of a row of form Z; the form reads no operand. -/
theorem spelledZ {m : Mnemonic} (hm : m.form = .Z) (o : Operands) : SpelledZ m.opc (Instr.ofMnemonic m o) := by
  refine ⟨?_, fun w hopc hne => illegalWord_of_ne_encode hopc fun o => ?_⟩
  · rw [← encode_ofMnemonic_Z hm o]; exact decode_encode _
  · rw [encode_ofMnemonic_Z hm]; exact hne

/-- The words of a row of form B; the form reads no operand but the byte. -/
theorem spelledB {m : Mnemonic} (hm : m.form = .B) (o : Operands) :
    SpelledB m.opc fun b => Instr.ofMnemonic m { o with b := b } := by
  refine ⟨fun b => ?_, fun w hopc hne => illegalWord_of_ne_encode hopc fun o => ?_⟩
  · rw [← encode_ofMnemonic_B hm { o with b := b }]; exact decode_encode _
  · rw [encode_ofMnemonic_B hm]; exact hne o.b

/-- The words of a row of form BD; the form reads no operand but the byte and `DATA`. -/
theorem spelledBD {m : Mnemonic} (hm : m.form = .BD) (o : Operands) :
    SpelledBD m.opc fun b d => Instr.ofMnemonic m { o with b := b, d := d } := by
  refine ⟨fun b d => ?_, fun w hopc hne => illegalWord_of_ne_encode hopc fun o => ?_⟩
  · rw [← encode_ofMnemonic_BD hm { o with b := b, d := d }]; exact decode_encode _
  · rw [encode_ofMnemonic_BD hm]; exact hne o.b o.d

/-! ### The frequency table (R110, R111) -/

/-- An error taken while none is recorded (R220). -/
theorem raiseError_of_noErr {s : State} (he : s.err = false) (e : ErrKind) (info : BitVec 32) :
    raiseError e info s = .next (s.withError e.code info) := by
  rw [raiseError, State.raise_of_noErr he]; rfl

/-- Writing a count and a total that fit in `W` bits writes these two numbers and nothing else. -/
theorem State.setCount_frame (s : State) (b : Byte) {v n : Nat} (hv : v ≤ s.cfg.maxCount) (hn : n ≤ s.cfg.maxCount) :
    ∃ f t, s.setCount b v n = { s with freq := f, total := t } ∧ t.toNat = n ∧ (f[b.toNat]'b.isLt).toNat = v ∧
      ∀ c : Byte, c ≠ b → f[c.toNat]'c.isLt = s.readFreq c := by
  refine ⟨(s.setCount b v n).freq, (s.setCount b v n).total, rfl, truncCount_toNat hn, ?_, fun c hc => ?_⟩
  · calc ((s.setCount b v n).readFreq b).toNat
      _ = (truncCount s.cfg v).toNat := by rw [State.readFreq_setCount, if_pos rfl]
      _ = v := truncCount_toNat hv
  · exact (State.readFreq_setCount s b c v n).trans (if_neg hc.symm)

theorem execHist_of_err {b : Byte} {s : State} (he : s.err = true) : execHist b s = .next s :=
  unlessBlocked_of_err he _

theorem execHist_of_full {b : Byte} {s : State} (he : s.err = false) (hfull : s.total.toNat = s.cfg.maxCount) :
    execHist b s = .next (s.withError 5#4 (b.setWidth 32)) := by
  rw [execHist, unlessBlocked_of_noErr he, if_pos hfull]
  exact raiseError_of_noErr he .countOverflow (infoOfByte b)

theorem execHist_of_room {b : Byte} {s : State} (he : s.err = false) (hroom : s.total.toNat ≠ s.cfg.maxCount) :
    execHist b s = .next (s.setCount b ((s.readFreq b).toNat + 1) (s.total.toNat + 1)) := by
  rw [execHist, unlessBlocked_of_noErr he, if_neg hroom]

theorem execWfreq_of_err {b : Byte} {d : BitVec 32} {s : State} (he : s.err = true) : execWfreq b d s = .next s :=
  unlessBlocked_of_err he _

/-- The counterpart of `execWfreq_of_total` when the new total exceeds `W` bits. -/
theorem execWfreq_of_overflow {b : Byte} {d : BitVec 32} {s : State} (he : s.err = false)
    (hover : (s.cfg.maxCount : Int) < (s.total.toNat : Int) - (s.readFreq b).toNat + d.toNat) :
    execWfreq b d s = .next (s.withError 5#4 (b.setWidth 32)) := by
  rw [execWfreq, unlessBlocked_of_noErr he]
  exact (if_pos hover).trans (raiseError_of_noErr he .countOverflow (infoOfByte b))

/-- Under R29 a frequency is at most `TOTAL`, so the new total of `WFREQ` is a natural number (R111). -/
theorem State.CountsOk.newTotal_eq {s : State} (h : s.CountsOk) (b : Byte) (d : BitVec 32) :
    (s.total.toNat : Int) - (s.readFreq b).toNat + d.toNat =
      (s.total.toNat - (s.readFreq b).toNat + d.toNat : Nat) := by
  obtain ⟨hsum, -⟩ := h
  have hle := s.readFreq_le_sum b
  omega

/-- Settles O27: under R29 a `TOTAL` other than `2^W − 1` leaves room for one more in it and in every count. -/
theorem histCountsOneByte : Obligations.HistCountsOneByte := by
  refine ⟨spelledB (m := .HIST) rfl (operandsOf 0#9 0#32), fun s b ⟨hsum, hmax⟩ =>
    ⟨execHist_of_err, execHist_of_full, fun he hroom => ?_⟩⟩
  have hfreq := s.readFreq_le_sum b
  have hlt : s.total.toNat < s.cfg.maxCount := lt_of_le_of_ne hmax hroom
  obtain ⟨f, n, hset, hn, hb, hframe⟩ :=
    s.setCount_frame b (v := (s.readFreq b).toNat + 1) (n := s.total.toNat + 1) (by omega) (by omega)
  exact ⟨f, n, hset ▸ execHist_of_room he hroom, hn, hb, hframe⟩

/-- Settles O28: under R29 the new total is the difference of natural numbers, and it bounds the new count. -/
theorem wfreqSetsOneCount : Obligations.WfreqSetsOneCount := by
  refine ⟨spelledBD (m := .WFREQ) rfl (operandsOf 0#9 0#32), fun s b d hs =>
    ⟨execWfreq_of_err, fun he hover => ?_, fun he hroom => ?_⟩⟩
  · exact execWfreq_of_overflow he (by rw [hs.newTotal_eq]; exact Int.ofNat_lt.mpr hover)
  · obtain ⟨f, n, hset, hn, hb, hframe⟩ :=
      s.setCount_frame b (v := d.toNat) ((Nat.le_add_left _ _).trans hroom) hroom
    exact ⟨f, n, hset ▸ execWfreq_of_total he (hs.newTotal_eq b d) hroom, hn, BitVec.eq_of_toNat_eq hb, hframe⟩

/-- Settles O29: a 32-bit count is kept whole by the 64-bit `RESULT`. -/
theorem countReadsReturnTheCount : Obligations.CountReadsReturnTheCount := by
  have hwide : ∀ c : Count, (c.setWidth 64).toNat = c.toNat := fun c => BitVec.toNat_setWidth_of_le (by decide)
  exact ⟨spelledB (m := .RFREQ) rfl (operandsOf 0#9 0#32), spelledZ (m := .QTOTAL) rfl (operandsOf 0#9 0#32),
    fun s => ⟨fun b => ⟨(s.readFreq b).setWidth 64, rfl, hwide _⟩, s.total.setWidth 64, rfl, hwide _⟩⟩

end Sys2Proof.Machine
end

section
/-! PROOF. Two `HIST` commands commute (`spec/41_tree_builder.md` R138); the priority order as an order of nodes (R131); and
one turn of the merge loop (R134). -/

namespace Sys2Proof.Machine

/-! ### The order in which bytes arrive (R138) -/

/-- Writes of two different counts may change places when the totals stay in order. -/
theorem State.setCount_comm (s : State) {a b : Byte} (hab : a ≠ b) (v w n m : Nat) :
    (s.setCount a v n).setCount b w m = (s.setCount b w n).setCount a v m := by
  have hne : a.toNat ≠ b.toNat := fun h => hab (BitVec.eq_of_toNat_eq h)
  simp only [State.setCount]
  rw [Vector.set_comm _ _ hne]

/-- Two `HIST` commands of different bytes with room for both (R110). -/
theorem execAll_hist_hist {s : State} {a b : Byte} (hab : a ≠ b) (he : s.err = false)
    (hroom : s.total.toNat + 2 ≤ s.cfg.maxCount) :
    execAll [.hist a, .hist b] s =
      .next ((s.setCount a ((s.readFreq a).toNat + 1) (s.total.toNat + 1)).setCount b ((s.readFreq b).toNat + 1)
        (s.total.toNat + 1 + 1)) := by
  have hfirst : execHist a s = .next (s.setCount a ((s.readFreq a).toNat + 1) (s.total.toNat + 1)) :=
    execHist_of_room he (by omega)
  have htotal : (s.setCount a ((s.readFreq a).toNat + 1) (s.total.toNat + 1)).total.toNat = s.total.toNat + 1 :=
    truncCount_toNat (by omega)
  have hsecond := execHist_of_room (b := b) (s := s.setCount a ((s.readFreq a).toNat + 1) (s.total.toNat + 1)) he
    (by rw [htotal, State.setCount_cfg]; omega)
  rw [htotal, State.readFreq_setCount, if_neg hab] at hsecond
  simp only [execAll, exec, hfirst, hsecond]

/-- Settles O30: with room for both, each `HIST` writes its own count, and the total is the same after both. -/
theorem histOrderDoesNotMatter : Obligations.HistOrderDoesNotMatter := by
  intro s a b _ hroom
  cases he : s.err with
  | true => simp only [execAll, exec, execHist_of_err he]
  | false =>
    by_cases hab : a = b
    · rw [hab]
    · rw [execAll_hist_hist hab he hroom, execAll_hist_hist (Ne.symm hab) he hroom, State.setCount_comm s hab]

/-! ### The priority order (R131) -/

theorem key_toNat (nodes : List Node) (i : NodeIdx) :
    (key nodes i).toNat =
      (nodeOf nodes i).weight.toNat * 2 ^ 18 + (nodeOf nodes i).sym.toNat * 2 ^ 9 + i.toNat := by
  simp only [key, toNat_append_eq_add]
  omega

/-- The keys compare by weight, then symbol, then index. -/
theorem key_lt_iff (nodes : List Node) (i j : NodeIdx) :
    (key nodes i).toNat < (key nodes j).toNat ↔
      (nodeOf nodes i).weight.toNat < (nodeOf nodes j).weight.toNat ∨
        ((nodeOf nodes i).weight = (nodeOf nodes j).weight ∧
          ((nodeOf nodes i).sym.toNat < (nodeOf nodes j).sym.toNat ∨
            ((nodeOf nodes i).sym = (nodeOf nodes j).sym ∧ i.toNat < j.toNat))) := by
  have hi := (nodeOf nodes i).sym.isLt
  have hj := (nodeOf nodes j).sym.isLt
  rw [key_toNat, key_toNat, ← BitVec.toNat_inj, ← BitVec.toNat_inj]
  omega

/-- Two nodes have different keys, as the index is part of the key. -/
theorem key_inj {nodes : List Node} {i j : NodeIdx} (h : (key nodes i).toNat = (key nodes j).toNat) : i = j := by
  have hi := (nodeOf nodes i).sym.isLt
  have hj := (nodeOf nodes j).sym.isLt
  rw [key_toNat, key_toNat] at h
  exact BitVec.eq_of_toNat_eq (by omega)

/-- Settles O37: the key is the weight, the symbol and the index side by side, so the smallest key is the first entry in that
order. -/
theorem extractMinFollowsThePriorityOrder : Obligations.ExtractMinFollowsThePriorityOrder := by
  refine fun nodes pq => ⟨extractMin_eq_none, fun i rest h => ?_⟩
  obtain ⟨hi, hrest, hmin⟩ := extractMin_spec h
  have hlen : rest.length + 1 = pq.length := by
    rw [hrest, List.length_erase_of_mem hi]
    exact Nat.sub_add_cancel (List.length_pos_of_mem hi)
  refine ⟨hi, hrest, hlen, fun j hj => ?_⟩
  rcases (hmin j hj).lt_or_eq with hlt | heq
  · exact ((key_lt_iff nodes i j).mp hlt).imp_right (And.imp_right (Or.imp_right (And.imp_right Nat.le_of_lt)))
  · obtain rfl := key_inj heq
    exact .inr ⟨rfl, .inr ⟨rfl, le_rfl⟩⟩

/-! ### One merge (R134) -/

theorem extractMin_of_ne_nil (nodes : List Node) {pq : List NodeIdx} (h : pq ≠ []) :
    ∃ i, extractMin nodes pq = some (i, pq.erase i) ∧ i ∈ pq := by
  cases hx : extractMin nodes pq with
  | none => exact absurd (extractMin_eq_none.mp hx) h
  | some r =>
    obtain ⟨hi, hrest, -⟩ := extractMin_spec (i := r.1) (rest := r.2) hx
    exact ⟨r.1, by rw [← hrest], hi⟩

theorem mergeStep_of_extractMin {c : Config} {bd : Builder} {a b : NodeIdx} {pq1 pq2 : List NodeIdx}
    (ha : extractMin bd.nodes bd.pq = some (a, pq1)) (hb : extractMin bd.nodes pq1 = some (b, pq2)) :
    mergeStep c bd = some { nodes := bd.nodes ++ [mergedNode c bd.nodes a b]
                            pq := pq2 ++ [BitVec.ofNat 9 bd.nodes.length] } := by
  simp only [mergeStep, ha, hb]

/-- Settles O38: a queue of two entries can give two, and their weights add up without wrapping when the sum fits. -/
theorem mergeCombinesTheTwoSmallest : Obligations.MergeCombinesTheTwoSmallest := by
  refine fun c bd => ⟨fun hshort => ?_, fun hlong => ?_⟩
  · cases h : mergeStep c bd with
    | none => rfl
    | some bd' =>
      obtain ⟨a, b, ha, hb, -⟩ := mergeStep_spec h
      have h1 := List.length_erase_of_mem ha
      have h2 := List.length_pos_of_mem hb
      omega
  · obtain ⟨a, ha, hmem⟩ := extractMin_of_ne_nil bd.nodes (List.ne_nil_of_length_pos (by omega : 0 < bd.pq.length))
    have herase : 0 < (bd.pq.erase a).length := by rw [List.length_erase_of_mem hmem]; omega
    obtain ⟨b, hb, -⟩ := extractMin_of_ne_nil bd.nodes (List.ne_nil_of_length_pos herase)
    exact ⟨a, _, b, _, mergedNode c bd.nodes a b, ha, hb, mergeStep_of_extractMin ha hb, rfl, rfl, rfl, rfl,
      addWeights_toNat⟩

end Sys2Proof.Machine
end

section
/-! PROOF. What `BUILD` writes and leaves alone (`spec/41_tree_builder.md` R137), the empty table (R135), that the frequencies
alone decide what it leaves (R138), and where the leaves stand (R132). -/

namespace Sys2Proof.Machine

/-! ### What `BUILD` writes (R137) -/

theorem exec_build_of_noErr {s : State} (he : s.err = false) :
    exec .build s = .next (s.installTree (buildTree s.cfg s.freq)) := by
  rw [exec, execBuild, unlessBlocked_of_noErr he]

/-- Settles O31: `BUILD` installs a tree, and the merge loop has emptied the queue but for the root. -/
theorem buildWritesOnlyTheTree : Obligations.BuildWritesOnlyTheTree := fun _ hc he =>
  ⟨_, exec_build_of_noErr he, by simp, by simp, (build_ok hc).2.2.2, by simp only [State.installTree]⟩

/-! ### The empty table (R135) -/

theorem scanLeaves_length_eq_zero {s : State} (h : ∀ b, s.readFreq b = 0#32) : (scanLeaves s.freq).length = 0 := by
  refine List.length_eq_zero_iff.mpr (List.eq_nil_iff_forall_not_mem.mpr fun nd hnd => ?_)
  obtain ⟨b, -, hb⟩ := scanLeaves_mem hnd
  exact hb (h b)

theorem installTree_empty_readCode (s : State) (b : Byte) :
    (s.installTree Tree.empty).readCode b = noCode s.draws b.toNat := by
  rw [installTree_readCode]; simp [Tree.empty, visit, codeEntry]

/-- Settles O32: a table of zeros has no leaf, so `BUILD` installs the empty tree. -/
theorem buildOfEmptyTableGivesNoTree : Obligations.BuildOfEmptyTableGivesNoTree := by
  intro s he hzero
  refine ⟨_, exec_build_of_noErr he, ?_⟩
  rw [buildTree_empty (scanLeaves_length_eq_zero hzero)]
  refine ⟨rfl, by simp [State.treeValid, Tree.empty], rfl, rfl, rfl, fun b => ?_, rfl, rfl, by simpa using he⟩
  rw [installTree_empty_readCode]
  exact ⟨rfl, rfl⟩

/-! ### The frequencies alone (R138) -/

/-- Below the number of nodes, node RAM holds the tree's nodes whatever state the tree is installed in. -/
theorem installTree_readNode_congr (s s' : State) {t : Tree} {i : NodeIdx} (h : i.toNat < t.nodes.length) :
    (s.installTree t).readNode i = (s'.installTree t).readNode i := by
  by_cases hi : i.toNat < NODE_MAX
  · rw [State.readNode_of_lt hi, State.readNode_of_lt hi]
    simp [List.getD_eq_getElem?_getD, h]
  · simp only [State.readNode, dif_neg hi]

/-- The specified bits of a derived code are those of the recorded path. -/
theorem codeBits_take_of_le (draw sym : Nat) {p : List Bool} {n : Nat} (hp : n ≤ p.length) (hn : n ≤ CODE_MAX) :
    (codeBits draw sym p).toList.take n = p.take n := by
  refine List.ext_getElem (by simp [codeBits, hp, hn]) fun k h1 h2 => ?_
  have hk : k < p.length := by rw [List.length_take] at h2; omega
  simp [codeBits, List.getD_eq_getElem?_getD, hk]

/-- A symbol's code does not depend on the values drawn for the bits behind it. -/
theorem codeEntry_draw_irrelevant (d d' : Nat) (records : List (Byte × List Bool)) (sym : Nat) :
    (codeEntry d records sym).valid = (codeEntry d' records sym).valid ∧
      (codeEntry d records sym).len = (codeEntry d' records sym).len ∧
      (codeEntry d records sym).path = (codeEntry d' records sym).path := by
  unfold codeEntry
  cases records.lookup (BitVec.ofNat 8 sym) with
  | none => exact ⟨rfl, rfl, rfl⟩
  | some p =>
    have hle : (BitVec.ofNat 8 p.length).toNat ≤ p.length := Nat.mod_le _ _
    have hmax : (BitVec.ofNat 8 p.length).toNat ≤ CODE_MAX := Nat.le_of_lt_succ (BitVec.ofNat 8 p.length).isLt
    refine ⟨rfl, rfl, ?_⟩
    simp only [CodeEntry.path]
    rw [codeBits_take_of_le d sym hle hmax, codeBits_take_of_le d' sym hle hmax]

/-- Settles O36: both states get the same tree, and where node RAM and the codes are specified they are the tree's. -/
theorem buildDependsOnFrequenciesAlone : Obligations.BuildDependsOnFrequenciesAlone := by
  intro s s' t t' hcfg hfreq he he' ht ht'
  rw [exec_build_of_noErr he] at ht
  rw [exec_build_of_noErr he', ← hcfg, ← hfreq] at ht'
  cases ht
  cases ht'
  refine ⟨by simp, by simp, by simp, by simp, by simp, by simp, fun i hi => ?_, fun b => ?_⟩
  · rw [State.installTree_nodeCount, BitVec.toNat_ofNat] at hi
    exact installTree_readNode_congr s s' (hi.trans_le (Nat.mod_le _ _))
  · rw [installTree_readCode, installTree_readCode]
    exact codeEntry_draw_irrelevant _ _ _ _

/-! ### The leaves (R132) -/

/-- How many symbols below `n` have a positive frequency. -/
def State.countedBelow (s : State) (n : Nat) : Nat :=
  (List.range n).countP fun k => s.readFreq (BitVec.ofNat 8 k) != 0#32

theorem scanFrom_length (l : List Count) (k : Nat) : (scanFrom l k).length = l.countP (· != 0#32) := by
  induction l generalizing k with
  | nil => rfl
  | cons f l ih =>
    rw [scanFrom_cons, List.countP_cons, ← ih (k + 1)]
    by_cases hf : f = 0#32 <;> simp [hf]

theorem scanFrom_append (l m : List Count) (k : Nat) :
    scanFrom (l ++ m) k = scanFrom l k ++ scanFrom m (k + l.length) := by
  simp only [scanFrom, List.zipIdx_append, List.filterMap_append]

theorem State.freq_toList (s : State) : s.freq.toList = (List.range 256).map fun k => s.readFreq (BitVec.ofNat 8 k) := by
  refine List.ext_getElem (by simp) fun k h1 h2 => ?_
  have hk : k % 256 = k := Nat.mod_eq_of_lt (by simpa using h1)
  simp [State.readFreq, hk]

/-- The symbols below `n` have as many leaves as they are counted symbols. -/
theorem scanFrom_take_length (s : State) {n : Nat} (hn : n ≤ 256) :
    (scanFrom (s.freq.toList.take n) 0).length = s.countedBelow n := by
  rw [scanFrom_length, s.freq_toList, ← List.map_take, List.take_range, Nat.min_eq_left hn, List.countP_map]
  rfl

theorem scanLeaves_length (s : State) : (scanLeaves s.freq).length = s.countedBelow 256 := by
  rw [← scanFrom_take_length s le_rfl, scanLeaves_eq, List.take_of_length_le (by simp)]

/-- The leaf of a counted symbol stands behind those of the counted symbols below it. -/
theorem scanLeaves_getElem? {s : State} {b : Byte} (h : s.readFreq b ≠ 0#32) :
    (scanLeaves s.freq)[s.countedBelow b.toNat]? = some (leafNode ((s.readFreq b).setWidth 33) (b.setWidth 9)) := by
  have hb : b.toNat < s.freq.toList.length := by simp [ALPHABET]; omega
  have hlen : (s.freq.toList.take b.toNat).length = b.toNat := by rw [List.length_take]; omega
  have hsplit : s.freq.toList = s.freq.toList.take b.toNat ++ s.readFreq b :: s.freq.toList.drop (b.toNat + 1) := by
    rw [State.readFreq, ← Vector.getElem_toList hb, List.cons_getElem_drop_succ, List.take_append_drop]
  have hsym : BitVec.ofNat 9 b.toNat = b.setWidth 9 := by simp
  rw [scanLeaves_eq, hsplit, scanFrom_append, scanFrom_cons, if_neg (show s.readFreq b ≠ 0 from h), hlen, Nat.zero_add, hsym,
    ← scanFrom_take_length s (by omega)]
  simp

theorem LeavesIn.readNode_leaf {s : State} {leaves : List Node} {t : Tree} (h : LeavesIn leaves t) {i : NodeIdx}
    (hi : i.toNat < leaves.length) : (s.installTree t).readNode i = leaves[i.toNat]? := by
  have hstart := hi.trans_le h.leaves_le_start
  rw [installTree_readNode h.length_le (by have := h.built.count; omega), h.built.start_at hstart,
    ← List.getElem?_eq_getElem hstart, startNodes_real hi]

/-- Without a counted symbol there is no tree; otherwise the tree is as the builder's lemmas say. -/
theorem buildTree_cases {s : State} (hc : s.CountsOk) :
    ((scanLeaves s.freq).length = 0 ∧ buildTree s.cfg s.freq = Tree.empty) ∨
      LeavesIn (scanLeaves s.freq) (buildTree s.cfg s.freq) := by
  by_cases h : (scanLeaves s.freq).length = 0
  · exact .inl ⟨h, buildTree_empty h⟩
  · exact .inr (leavesIn_buildTree hc h)

theorem buildTree_leaves_toNat {s : State} (hc : s.CountsOk) :
    (buildTree s.cfg s.freq).leaves.toNat = (scanLeaves s.freq).length := by
  rcases buildTree_cases hc with ⟨h, hempty⟩ | h
  · rw [hempty, h]; rfl
  · exact h.leaves_toNat

/-- Every counted symbol's leaf is in node RAM, at its rank among them. -/
theorem build_readNode_leaf {s : State} (hc : s.CountsOk) {b : Byte} (hb : s.readFreq b ≠ 0#32) :
    ∃ i : NodeIdx, i.toNat = s.countedBelow b.toNat ∧
      (s.installTree (buildTree s.cfg s.freq)).readNode i =
        some (leafNode ((s.readFreq b).setWidth 33) (b.setWidth 9)) := by
  have hleaf := scanLeaves_getElem? hb
  have hlt := (List.getElem?_eq_some_iff.mp hleaf).1
  have h := leavesIn_buildTree hc (Nat.ne_of_gt (Nat.zero_lt_of_lt hlt))
  have hi : (BitVec.ofNat 9 (s.countedBelow b.toNat)).toNat = s.countedBelow b.toNat :=
    Nat.mod_eq_of_lt (by have := h.ok.le; omega)
  exact ⟨BitVec.ofNat 9 (s.countedBelow b.toNat), hi, by rw [h.readNode_leaf (hi.symm ▸ hlt), hi, hleaf]⟩

/-- A node of the tree that carries a byte is the leaf of a counted symbol. -/
theorem build_byte_counted {s : State} (hc : s.CountsOk) {i : NodeIdx} {nd : Node}
    (hi : i.toNat < (s.installTree (buildTree s.cfg s.freq)).nodeCount.toNat)
    (hnd : (s.installTree (buildTree s.cfg s.freq)).readNode i = some nd) (hsym : nd.sym.toNat ≤ 0xFF) :
    s.readFreq (BitVec.ofNat 8 nd.sym.toNat) ≠ 0#32 := by
  rcases buildTree_cases hc with ⟨-, hempty⟩ | h
  · rw [hempty] at hi
    exact absurd hi (Nat.not_lt_zero _)
  · rcases h.node_cases (h.read hi hnd).2 with ⟨-, hleaf, -⟩ | ⟨-, -, rfl⟩ | ⟨-, -, hs⟩
    · obtain ⟨b, rfl, hb⟩ := scanLeaves_mem (List.mem_of_getElem? hleaf)
      rw [leafNode, byte_setWidth_toNat, BitVec.ofNat_toNat, BitVec.setWidth_eq]
      exact hb
    · exact absurd hsym (by decide)
    · rw [hs] at hsym
      exact absurd hsym (by decide)

/-- Settles O33: the scan gives each counted symbol a leaf at its rank, and nothing later in the tree carries a byte. -/
theorem buildCreatesLeavesInSymbolOrder : Obligations.BuildCreatesLeavesInSymbolOrder := fun s hc he =>
  ⟨_, exec_build_of_noErr he, (buildTree_leaves_toNat hc).trans (scanLeaves_length s), fun _ => build_readNode_leaf hc,
    fun _ _ => build_byte_counted hc⟩

end Sys2Proof.Machine
end

section
/-! PROOF. The merges in the tree that `BUILD` leaves (`spec/41_tree_builder.md` R134), its sizes (R139), and the tree and the
code of a single symbol (R133). -/

namespace Sys2Proof.Machine

/-! ### Every merge takes the two smallest nodes (R134) -/

/-- Node `i` is one of `nodes` and a child of none of them. -/
def IsUnmerged (nodes : List Node) (i : NodeIdx) : Prop := i.toNat < nodes.length ∧ ∀ p, ¬ ChildIn nodes i.toNat p

/-- `a` and `b` are the first two of the unmerged nodes in the priority order. -/
structure SmallestTwo (nodes : List Node) (a b : NodeIdx) : Prop where
  left : IsUnmerged nodes a
  right : IsUnmerged nodes b
  lt : (key nodes a).toNat < (key nodes b).toNat
  least : ∀ j, IsUnmerged nodes j → j = a ∨ j = b ∨ (key nodes b).toNat < (key nodes j).toNat

/-- Each node from index `first` on merges the two smallest of the nodes created before it. -/
def MergesInOrder (first : Nat) (nodes : List Node) : Prop :=
  ∀ k nd, first ≤ k → nodes[k]? = some nd → SmallestTwo (nodes.take k) nd.left nd.right

section Merge

variable {c : Config} {start : List Node} {bd bd' : Builder}

/-- The queue holds exactly the unmerged nodes. -/
theorem BuilderOk.mem_pq_iff (ok : BuilderOk start bd) (i : NodeIdx) : i ∈ bd.pq ↔ IsUnmerged bd.nodes i := by
  constructor
  · exact fun hi => ⟨ok.pq_lt i hi, ok.queued i hi⟩
  · rintro ⟨hlt, hno⟩
    by_contra hi
    obtain ⟨p, hp, -⟩ := ok.merged i hlt hi
    exact hno p hp

/-- Two removals with the smallest key give the two smallest unmerged nodes. -/
theorem BuilderOk.smallestTwo (ok : BuilderOk start bd) {a b : NodeIdx} (ha : a ∈ bd.pq) (hb : b ∈ bd.pq.erase a)
    (hamin : ∀ j ∈ bd.pq, (key bd.nodes a).toNat ≤ (key bd.nodes j).toNat)
    (hbmin : ∀ j ∈ bd.pq.erase a, (key bd.nodes b).toNat ≤ (key bd.nodes j).toNat) : SmallestTwo bd.nodes a b := by
  obtain ⟨hba, hb'⟩ := ok.pq_nodup.mem_erase_iff.mp hb
  refine { left := (ok.mem_pq_iff a).mp ha, right := (ok.mem_pq_iff b).mp hb'
           lt := lt_of_le_of_ne (hamin b hb') fun h => hba (key_inj h).symm, least := fun j hj => ?_ }
  by_cases hja : j = a
  · exact .inl hja
  · by_cases hjb : j = b
    · exact .inr (.inl hjb)
    · have hmem := ok.pq_nodup.mem_erase_iff.mpr ⟨hja, (ok.mem_pq_iff j).mpr hj⟩
      exact .inr (.inr (lt_of_le_of_ne (hbmin j hmem) fun h => hjb (key_inj h).symm))

theorem mergeStep_mergesInOrder (ok : BuilderOk start bd) (h : mergeStep c bd = some bd')
    (hm : MergesInOrder start.length bd.nodes) : MergesInOrder start.length bd'.nodes := by
  obtain ⟨a, b, ha, hb, hamin, hbmin, rfl⟩ := mergeStep_spec h
  intro k nd hk hnd
  rcases Nat.lt_trichotomy k bd.nodes.length with hlt | rfl | hgt
  · rw [List.getElem?_append_left hlt] at hnd
    rw [List.take_append_of_le_length hlt.le]
    exact hm k nd hk hnd
  · obtain rfl : mergedNode c bd.nodes a b = nd := by simpa using hnd
    rw [List.take_left]
    exact ok.smallestTwo ha hb hamin hbmin
  · rw [List.getElem?_eq_none (by simpa using hgt)] at hnd
    cases hnd

theorem mergeLoop_mergesInOrder (hs : start.length ≤ 256) (hleaves : ∀ nd ∈ start, nd.leaf = true)
    (hw : weightSum start < 2 ^ c.NW) (turns : Nat) (bd : Builder) (ok : BuilderOk start bd)
    (hm : MergesInOrder start.length bd.nodes) : MergesInOrder start.length (mergeLoop c turns bd).nodes := by
  induction turns generalizing bd with
  | zero => exact hm
  | succ turns ih =>
    simp only [mergeLoop]
    split
    · exact hm
    · rename_i bd' h
      exact ih bd' (mergeStep_ok hs hleaves hw ok h).1 (mergeStep_mergesInOrder ok h hm)

end Merge

/-- The nodes of the tree are those that the merge loop leaves. -/
theorem buildTree_nodes (c : Config) (freq : Vector Count ALPHABET) :
    (buildTree c freq).nodes = [] ∨ (buildTree c freq).nodes = (mergeAll c (scanLeaves freq)).nodes := by
  simp only [buildTree]
  split
  · exact .inl rfl
  · split
    · exact .inl rfl
    · exact .inr rfl

theorem buildTree_mergesInOrder {s : State} (hc : s.CountsOk) (h : (scanLeaves s.freq).length ≠ 0) :
    MergesInOrder (startNodes (scanLeaves s.freq)).length (buildTree s.cfg s.freq).nodes := by
  have hok := scanLeaves_ok h
  obtain ⟨hpos, hle⟩ := hok.start_le
  rcases buildTree_nodes s.cfg s.freq with hn | hn
  · rw [hn]
    exact fun k nd _ hnd => by simp at hnd
  · rw [hn, mergeAll]
    refine mergeLoop_mergesInOrder hle hok.leaf (startNodes_weight_fits hc) _ _ ?_ ?_
    · rw [startBuilder_eq]
      exact builderOk_start _ (by omega) hle hok.leaf
    · intro k nd hk hnd
      rw [startBuilder_eq, List.getElem?_eq_none hk] at hnd
      cases hnd

/-! ### The merges seen in node RAM -/

theorem childIn_take {nodes : List Node} {k i p : Nat} :
    ChildIn (nodes.take k) i p ↔ p < k ∧ ChildIn nodes i p := by
  unfold ChildIn
  rw [List.getElem?_take]
  split <;> simp [*]

theorem nodeOf_take {nodes : List Node} {k : Nat} {i : NodeIdx} (h : i.toNat < k) :
    nodeOf (nodes.take k) i = nodeOf nodes i := by
  simp [nodeOf, List.getD_eq_getElem?_getD, h]

section Installed

variable {s : State} {t : Tree} {leaves : List Node}

/-- The nodes before `k` that are unmerged at `k` are those unmerged in the first `k` nodes. -/
theorem installTree_unmerged_iff (hlen : t.nodes.length ≤ 511) {k : NodeIdx} (hk : k.toNat ≤ t.nodes.length) (i : NodeIdx) :
    (s.installTree t).Unmerged k i ↔ IsUnmerged (t.nodes.take k.toNat) i := by
  simp only [State.Unmerged, IsUnmerged, List.length_take_of_le hk, childIn_take]
  refine and_congr_right fun _ => ⟨?_, ?_⟩
  · rintro h p ⟨hp, nd, hnd, hl, hor⟩
    have hp9 : (BitVec.ofNat 9 p).toNat = p := Nat.mod_eq_of_lt (by omega)
    have hread : (s.installTree t).readNode (BitVec.ofNat 9 p) = some nd := by
      rw [installTree_readNode hlen (by omega), hp9, hnd]
    obtain ⟨hleft, hright⟩ := h _ nd (by omega) hread hl
    exact hor.elim (fun e => hleft (BitVec.eq_of_toNat_eq e)) fun e => hright (BitVec.eq_of_toNat_eq e)
  · intro h p nd hp hread hl
    rw [installTree_readNode hlen (by omega)] at hread
    exact ⟨fun e => h p.toNat ⟨hp, nd, hread, hl, .inl (congrArg BitVec.toNat e)⟩,
      fun e => h p.toNat ⟨hp, nd, hread, hl, .inr (congrArg BitVec.toNat e)⟩⟩

/-- The order of the keys among the first `k` nodes is the priority order in node RAM. -/
theorem installTree_precedes (hlen : t.nodes.length ≤ 511) {k : Nat} (hk : k ≤ t.nodes.length) {i j : NodeIdx}
    (hi : i.toNat < k) (hj : j.toNat < k) (h : (key (t.nodes.take k) i).toNat < (key (t.nodes.take k) j).toNat) :
    (s.installTree t).Precedes i j := by
  have hread : ∀ n : NodeIdx, n.toNat < k → (s.installTree t).readNode n = some (nodeOf t.nodes n) := fun n hn => by
    rw [installTree_readNode hlen (by omega), getElem?_nodeOf (by omega)]
  rw [key_lt_iff, nodeOf_take hi, nodeOf_take hj] at h
  exact ⟨_, _, hread i hi, hread j hj, h⟩

/-- An internal node merges the two smallest nodes that were unmerged before it, in the terms of the state. -/
theorem LeavesIn.smallestTwo (h : LeavesIn leaves t) {k : NodeIdx} {l r : NodeIdx} (hk : k.toNat ≤ t.nodes.length)
    (hm : SmallestTwo (t.nodes.take k.toNat) l r) :
    (s.installTree t).Unmerged k l ∧ (s.installTree t).Unmerged k r ∧ (s.installTree t).Precedes l r ∧
      ∀ j, (s.installTree t).Unmerged k j → j = l ∨ j = r ∨ (s.installTree t).Precedes r j := by
  have hiff := installTree_unmerged_iff (s := s) h.length_le hk
  have hl := (hiff l).mpr hm.left
  have hr := (hiff r).mpr hm.right
  refine ⟨hl, hr, installTree_precedes h.length_le hk hl.1 hr.1 hm.lt, fun j hj => ?_⟩
  exact (hm.least j ((hiff j).mp hj)).imp_right (Or.imp_right (installTree_precedes h.length_le hk hr.1 hj.1))

end Installed

/-- Settles O39: the queue holds the unmerged nodes, so each turn of the loop merges the two smallest of them, and later turns
leave the nodes before theirs alone. -/
theorem buildMergesTheTwoSmallest : Obligations.BuildMergesTheTwoSmallest := by
  intro s hc he
  refine ⟨_, exec_build_of_noErr he, ?_⟩
  rcases buildTree_cases hc with ⟨-, hempty⟩ | h
  · rw [hempty]
    exact ⟨fun hroot => absurd rfl hroot, fun k nd hk => absurd hk (Nat.not_lt_zero _)⟩
  refine ⟨fun _ => ?_, fun k nd hk hnd => ⟨?_, fun hl => ?_⟩⟩
  · rw [installTree_nodeCount_toNat h.length_le, State.installTree_root]
    exact h.built.root
  · rw [← not_lt, ← h.layout.leaf_index k nd hk hnd, Bool.not_eq_true]
  · obtain ⟨hk', hnd'⟩ := h.read hk hnd
    have hfrom := h.built.internal_from h.ok.leaf _ nd hnd' hl
    obtain ⟨-, hsym, -⟩ := h.built.internal _ nd hfrom hnd'
    obtain ⟨-, -, -, hsum⟩ := h.nodes.internal k nd hk hnd hl
    obtain ⟨hleft, hright, hlt, hleast⟩ :=
      h.smallestTwo (s := s) hk'.le (buildTree_mergesInOrder hc h.ok.pos _ nd hfrom hnd')
    exact ⟨hsym, hleft, hright, hlt, hleast, hsum⟩

/-! ### The sizes (R139) -/

theorem scanLeaves_weightSum (s : State) : weightSum (scanLeaves s.freq) = s.freqSum := by
  rw [scanLeaves_eq, scanFrom_weightSum]; rfl

section Sizes

variable {s : State} {t : Tree} {leaves : List Node}

theorem LeavesIn.root_weight (h : LeavesIn leaves t) :
    ∃ nd, (s.installTree t).readNode t.root = some nd ∧ nd.weight.toNat = weightSum (startNodes leaves) := by
  have hroot : t.root.toNat < t.nodes.length := by have := h.built.root; omega
  exact ⟨nodeOf t.nodes t.root, by rw [installTree_readNode h.length_le hroot, getElem?_nodeOf hroot], h.built.weight⟩

/-- A code is shorter than the number of leaves. -/
theorem LeavesIn.code_len_lt (h : LeavesIn leaves t) {b : Byte} (hv : ((s.installTree t).readCode b).valid = true) :
    ((s.installTree t).readCode b).len.toNat + 1 ≤ (startNodes leaves).length := by
  rcases h.code_cases (s := s) b with ⟨p, j, w, hcode, -, hmax, hfollow, -⟩ | ⟨hcode, -⟩
  · rw [← CodeEntry.path_length, hcode, entry_path _ _ _ hmax]
    exact h.built.path_length h.ok.leaf h.ok.start_le.1 hfollow
  · rw [hcode] at hv
    cases hv

end Sizes

/-- The root's weight is `TOTAL`, and one more with the placeholder. -/
theorem build_root_weight {s : State} (hc : s.CountsOk)
    (h : LeavesIn (scanLeaves s.freq) (buildTree s.cfg s.freq)) :
    ∃ nd, (s.installTree (buildTree s.cfg s.freq)).readNode (buildTree s.cfg s.freq).root = some nd ∧
      nd.weight.toNat = s.total.toNat + ((scanLeaves s.freq).length == 1).toNat := by
  obtain ⟨nd, hnd, hw⟩ := h.root_weight (s := s)
  refine ⟨nd, hnd, ?_⟩
  rw [hw, startNodes_weightSum, scanLeaves_weightSum, hc.1]

/-- Settles O35: the registers are those of a full binary tree over the leaves, the root's weight is the sum of theirs, and a
path goes down at least one node with every branch. -/
theorem buildSizesAreThoseOfAFullTree : Obligations.BuildSizesAreThoseOfAFullTree := by
  intro s hc he
  refine ⟨_, exec_build_of_noErr he, ?_⟩
  rcases buildTree_cases hc with ⟨-, hempty⟩ | h
  · rw [hempty]
    simp [Tree.empty]
  have hregs := h.regs (s := s)
  have hlen := h.leaves_toNat
  obtain ⟨hcount, hroot⟩ := hregs.tree (by rw [State.installTree_leaves, hlen]; exact h.ok.pos)
  have hweight := build_root_weight hc h
  have hcode := fun b hv => And.intro ((h.codes (s := s)).len_pos b hv) (h.code_len_lt hv)
  rw [h.leafCount] at hcount
  rw [startNodes_length] at hcount hcode
  simp only [State.installTree_leaves, hlen, h.degen_eq, State.installTree_degen, State.installTree_root] at hroot ⊢
  refine ⟨h.ok.le, fun h0 => absurd h0 h.ok.pos, fun h1 => ?_, fun h2 => ?_⟩
  · simp only [h1, beq_self_eq_true, Bool.toNat_true] at hcount hweight hcode ⊢
    exact ⟨by omega, by omega, trivial, hweight, fun b hv => by have := hcode b hv; omega⟩
  · have hne : ((scanLeaves s.freq).length == 1) = false := beq_eq_false_iff_ne.mpr (by omega)
    simp only [hne, Bool.toNat_false, Nat.add_zero] at hcount hweight hcode ⊢
    exact ⟨by omega, by omega, trivial, hweight, fun b hv => by have := hcode b hv; omega⟩

/-! ### A single symbol (R133) -/

theorem scanLeaves_of_lone {s : State} {b : Byte} (hb : s.readFreq b ≠ 0#32) (hlone : ∀ c, c ≠ b → s.readFreq c = 0#32) :
    scanLeaves s.freq = [leafNode ((s.readFreq b).setWidth 33) (b.setWidth 9)] := by
  have hmem := mem_scanLeaves (freq := s.freq) b hb
  have hall : ∀ nd ∈ scanLeaves s.freq, nd = leafNode ((s.readFreq b).setWidth 33) (b.setWidth 9) := fun nd hnd => by
    obtain ⟨c, rfl, hc⟩ := scanLeaves_mem hnd
    obtain rfl : c = b := by_contra fun hcb => hc (hlone c hcb)
    rfl
  have hasc := scanFrom_ascending s.freq.toList 0 (by simp [ALPHABET])
  rw [← scanLeaves_eq] at hasc
  match hscan : scanLeaves s.freq with
  | [] => rw [hscan] at hmem; cases hmem
  | [x] => rw [hall x (by simp [hscan])]
  | x :: y :: _ =>
    have hlt : x.sym.toNat < y.sym.toNat := by
      rw [hscan] at hasc
      exact (List.pairwise_cons.mp hasc).1 y (by simp)
    rw [hall x (by simp [hscan]), hall y (by simp [hscan])] at hlt
    exact absurd hlt (lt_irrefl _)

/-- Two counted symbols have two leaves. -/
theorem scanLeaves_length_ne_one {s : State} {a b : Byte} (hab : a ≠ b) (ha : s.readFreq a ≠ 0#32)
    (hb : s.readFreq b ≠ 0#32) : (scanLeaves s.freq).length ≠ 1 := by
  intro h
  obtain ⟨x, hx⟩ := List.length_eq_one_iff.mp h
  have hma := mem_scanLeaves (freq := s.freq) a ha
  have hmb := mem_scanLeaves (freq := s.freq) b hb
  rw [hx, List.mem_singleton] at hma hmb
  have hbyte := congrArg Node.byte (hma.trans hmb.symm)
  rw [leafNode_byte, leafNode_byte] at hbyte
  exact hab hbyte

/-- The order of a leaf and the placeholder: a leaf of weight 1 comes first, by its symbol, and a heavier one last. -/
theorem smallestTwo_placeholder {w : Weight} {b : Byte} {l r : NodeIdx}
    (h : SmallestTwo [leafNode w (b.setWidth 9), placeholder] l r) :
    (l = 0#9 ∧ r = 1#9 ∧ w.toNat ≤ 1) ∨ (l = 1#9 ∧ r = 0#9 ∧ 2 ≤ w.toNat) := by
  have hb := b.isLt
  have hidx : ∀ i : NodeIdx, i.toNat < 2 → i = 0#9 ∨ i = 1#9 := fun i hi => by
    rw [← BitVec.toNat_inj, ← BitVec.toNat_inj]
    simp only [BitVec.toNat_ofNat]
    omega
  have hleaf : (key [leafNode w (b.setWidth 9), placeholder] 0#9).toNat = w.toNat * 2 ^ 18 + b.toNat * 2 ^ 9 := by
    rw [key_toNat]; simp [nodeOf, leafNode]; omega
  have hplace : (key [leafNode w (b.setWidth 9), placeholder] 1#9).toNat = 1 * 2 ^ 18 + 256 * 2 ^ 9 + 1 := by
    rw [key_toNat]; rfl
  have hlt := h.lt
  rcases hidx l h.left.1 with rfl | rfl <;> rcases hidx r h.right.1 with rfl | rfl
  · exact absurd hlt (lt_irrefl _)
  · rw [hleaf, hplace] at hlt
    exact .inl ⟨rfl, rfl, by omega⟩
  · rw [hleaf, hplace] at hlt
    exact .inr ⟨rfl, rfl, by omega⟩
  · exact absurd hlt (lt_irrefl _)

section Lone

variable {s : State} {t : Tree} {w : Weight} {b : Byte} (h : LeavesIn [leafNode w (b.setWidth 9)] t)

include h

theorem LeavesIn.lone_length : t.nodes.length = 3 := by
  have hcount := h.built.count
  change t.nodes.length + 1 = 4 at hcount
  omega

theorem LeavesIn.lone_root : t.root = 2#9 := by
  have hroot := h.built.root
  rw [h.lone_length] at hroot
  exact BitVec.eq_of_toNat_eq (by rw [show (2#9).toNat = 2 from rfl]; omega)

/-- The leaf of the only symbol is `NODE[0]`. -/
theorem LeavesIn.lone_leaf_index {j : NodeIdx} {v : Weight} (hj : t.nodes[j.toNat]? = some (leafNode v (b.setWidth 9))) :
    j = 0#9 := by
  rcases h.node_cases hj with ⟨hlt, -⟩ | ⟨-, -, hplace⟩ | ⟨-, hleaf, -⟩
  · exact BitVec.eq_of_toNat_eq (Nat.lt_one_iff.mp hlt)
  · exact absurd (congrArg Node.sym hplace) (byte_ne_sentinel b)
  · cases hleaf

/-- The root's children are the leaf and the placeholder, in the priority order. -/
theorem LeavesIn.lone_root_node (hm : MergesInOrder (startNodes [leafNode w (b.setWidth 9)]).length t.nodes) :
    ∃ nd, t.nodes[t.root.toNat]? = some nd ∧ nd.leaf = false ∧
      ((nd.left = 0#9 ∧ nd.right = 1#9 ∧ w.toNat ≤ 1) ∨ (nd.left = 1#9 ∧ nd.right = 0#9 ∧ 2 ≤ w.toNat)) := by
  have hroot : t.root.toNat = 2 := congrArg BitVec.toNat h.lone_root
  have hlt : t.root.toNat < t.nodes.length := by rw [h.lone_length, hroot]; decide
  have hfrom : (startNodes [leafNode w (b.setWidth 9)]).length ≤ t.root.toNat := hroot.ge
  have hnd := List.getElem?_eq_getElem hlt
  have hbefore : t.nodes.take t.root.toNat = [leafNode w (b.setWidth 9), placeholder] := by
    rw [hroot]; exact (List.prefix_iff_eq_take.mp h.built.starts).symm
  have hsmallest := hm _ _ hfrom hnd
  rw [hbefore] at hsmallest
  exact ⟨_, hnd, (h.built.internal _ _ hfrom hnd).1, smallestTwo_placeholder hsmallest⟩

/-- The code of the only symbol is the branch from the root to its leaf, by the order of the leaf and the placeholder. -/
theorem LeavesIn.lone_path (hv : ((s.installTree t).readCode b).valid = true)
    (hm : MergesInOrder (startNodes [leafNode w (b.setWidth 9)]).length t.nodes) :
    ((s.installTree t).readCode b).path = [decide (2 ≤ w.toNat)] := by
  rcases h.code_cases (s := s) b with ⟨p, j, w', hcode, hne, hmax, hfollow, hj⟩ | ⟨hcode, -⟩
  · rw [hcode, entry_path _ _ _ hmax]
    have hlen : p.length + 1 ≤ 2 := h.built.path_length h.ok.leaf h.ok.start_le.1 hfollow
    obtain ⟨x, rfl⟩ : ∃ x, p = [x] := List.length_eq_one_iff.mp (by have := List.length_pos_iff.mpr hne; omega)
    obtain ⟨nd, hnd, hl, hchildren⟩ := h.lone_root_node hm
    have hchild : nd.child x = j := by simpa [followIn, hnd, hl] using hfollow
    rw [h.lone_leaf_index hj] at hchild
    rcases hchildren with ⟨-, hright, hw⟩ | ⟨hleft, -, hw⟩ <;> cases x
    · simp; omega
    · exact absurd (hright.symm.trans hchild) (by decide)
    · exact absurd (hleft.symm.trans hchild) (by decide)
    · simp [hw]
  · rw [hcode] at hv
    cases hv

end Lone

/-- `BUILD` of one counted symbol. -/
theorem build_lone {s : State} {b : Byte} (hc : s.CountsOk) (hb : s.readFreq b ≠ 0#32)
    (hlone : ∀ c, c ≠ b → s.readFreq c = 0#32) :
    LeavesIn [leafNode ((s.readFreq b).setWidth 33) (b.setWidth 9)] (buildTree s.cfg s.freq) ∧
      MergesInOrder (startNodes [leafNode ((s.readFreq b).setWidth 33) (b.setWidth 9)]).length
        (buildTree s.cfg s.freq).nodes := by
  have hscan := scanLeaves_of_lone hb hlone
  have hne : (scanLeaves s.freq).length ≠ 0 := by simp [hscan]
  exact hscan ▸ ⟨leavesIn_buildTree hc hne, buildTree_mergesInOrder hc hne⟩

/-- With two counted symbols no leaf of the tree is a placeholder. -/
theorem build_no_placeholder {s : State} {i : NodeIdx} {nd : Node}
    (h : LeavesIn (scanLeaves s.freq) (buildTree s.cfg s.freq)) (hne : (scanLeaves s.freq).length ≠ 1)
    (hi : i.toNat < (s.installTree (buildTree s.cfg s.freq)).nodeCount.toNat)
    (hnd : (s.installTree (buildTree s.cfg s.freq)).readNode i = some nd) (hl : nd.leaf = true) : nd.sym ≠ SENTINEL := by
  rcases h.node_cases (h.read hi hnd).2 with ⟨-, -, w, b, rfl⟩ | ⟨hge, hlt, -⟩ | ⟨-, hinternal, -⟩
  · exact byte_ne_sentinel b
  · rw [startNodes_eq, if_neg hne] at hlt
    omega
  · rw [hl] at hinternal
    cases hinternal

/-- Settles O34: the placeholder stands behind the only leaf, and the root merges the two in the priority order; of two counted
symbols each has its leaf, so no placeholder is added. -/
theorem buildOfOneSymbolAddsPlaceholder : Obligations.BuildOfOneSymbolAddsPlaceholder := by
  refine ⟨fun s b hc he hb hlone => ⟨_, exec_build_of_noErr he, ?_⟩, fun s a b hc he hab ha hb =>
    ⟨_, exec_build_of_noErr he, ?_⟩⟩
  · obtain ⟨h, hm⟩ := build_lone hc hb hlone
    have hv := build_code_of_freq hc b hb
    have hpath := h.lone_path hv hm
    have hw : ((s.readFreq b).setWidth 33).toNat = (s.readFreq b).toNat := BitVec.toNat_setWidth_of_le (by decide)
    rw [hw] at hpath
    refine ⟨h.degen_eq, ?_, h.lone_root, h.leaves_eq, ?_, hv, fun h1 => ?_, fun h1 => ?_⟩
    · rw [State.installTree_nodeCount, h.lone_length]
    · rw [installTree_readNode h.length_le (by rw [h.lone_length]; decide)]
      exact h.built.start_at (k := 1) Nat.one_lt_two
    · rw [hpath, h1]; rfl
    · have htwo : 2 ≤ (s.readFreq b).toNat := by bv_omega
      rw [hpath, decide_eq_true htwo]
  · have h := leavesIn_buildTree hc (s := s) (Nat.ne_of_gt (List.length_pos_of_mem (mem_scanLeaves b hb)))
    have hne := scanLeaves_length_ne_one hab ha hb
    exact ⟨h.degen_eq.trans (beq_eq_false_iff_ne.mpr hne), fun _ _ => build_no_placeholder h hne⟩

end Sys2Proof.Machine
end

section
/-! PROOF. The encoder and the reads of the code-table LUT (`spec/42_encoder.md`): what one `ENC` does in each case (R160), a
sequence of them (R163), and what `QLEN` and `QBIT` return (R161, R162). -/

namespace Sys2Proof.Machine

/-! ### One `ENC` (R160) -/

theorem execEnc_of_err {b : Byte} {s : State} (he : s.err = true) : execEnc b s = .next s :=
  unlessBlocked_of_err he _

theorem execEnc_of_noCode {b : Byte} {s : State} (he : s.err = false) (hv : (s.readCode b).valid = false) :
    execEnc b s = .next (s.withError 1#4 (b.setWidth 32)) := by
  rw [execEnc, unlessBlocked_of_noErr he, if_neg (Bool.eq_false_iff.mp hv)]
  exact raiseError_of_noErr he .lookup (infoOfByte b)

theorem execEnc_of_code {b : Byte} {s : State} (he : s.err = false) (hv : (s.readCode b).valid = true) :
    execEnc b s = .next (s.emitEnc ((s.readCode b).path.map charOfBit)) := by
  rw [execEnc, unlessBlocked_of_noErr he, if_pos hv]

/-- A code is the first `len` of its entry's bits (R34). -/
theorem CodeEntry.path_eq_map_range (e : CodeEntry) :
    e.path = (List.range e.len.toNat).map fun k => e.bits.toList.getD k false := by
  refine List.ext_getElem (by simp [e.path_length]) fun k hk _ => ?_
  have hbits : k < CODE_MAX := hk.trans_le ((List.length_take_le' _ _).trans_eq e.bits.length_toList)
  simp [CodeEntry.path, hbits]

/-- Settles O41: the code is emitted bit by bit, in the order of its bits. -/
theorem encEmitsTheCode : Obligations.EncEmitsTheCode := by
  refine ⟨spelledB (m := .ENC) rfl (operandsOf 0#9 0#32), fun s b =>
    ⟨execEnc_of_err, execEnc_of_noCode, fun he hv => (execEnc_of_code he hv).trans ?_⟩⟩
  rw [CodeEntry.path_eq_map_range, List.map_map]
  rfl

/-! ### A sequence of `ENC` commands (R163) -/

theorem State.emitEnc_emitEnc (s : State) (cs ds : List Byte) : (s.emitEnc cs).emitEnc ds = s.emitEnc (cs ++ ds) := by
  simp [State.emitEnc]

@[simp] theorem State.emitEnc_readCode (s : State) (cs : List Byte) (b : Byte) :
    (s.emitEnc cs).readCode b = s.readCode b := rfl

/-- Once an error is recorded, a sequence of `ENC` commands does nothing (R229). -/
theorem execAll_enc_of_err (bs : List Byte) {s : State} (he : s.err = true) : execAll (bs.map .enc) s = .next s := by
  induction bs with
  | nil => rfl
  | cons b bs ih =>
    rw [List.map_cons, execAll_cons, show exec (.enc b) s = .next s from execEnc_of_err he]
    exact ih

/-- The codes of all the bytes are emitted in order, for emitting leaves the code table as it was. -/
theorem execAll_enc_of_codes (bs : List Byte) {s : State} (he : s.err = false)
    (hv : ∀ b ∈ bs, (s.readCode b).valid = true) :
    execAll (bs.map .enc) s = .next (s.emitEnc (bs.flatMap fun b => (s.readCode b).path.map charOfBit)) := by
  induction bs generalizing s with
  | nil => simp [execAll, State.emitEnc]
  | cons b bs ih =>
    obtain ⟨hb, hbs⟩ := List.forall_mem_cons.mp hv
    have hrest := ih (s := s.emitEnc ((s.readCode b).path.map charOfBit)) he hbs
    simp only [State.emitEnc_readCode, State.emitEnc_emitEnc] at hrest
    calc execAll ((b :: bs).map .enc) s
      _ = andThen (execEnc b s) (execAll (bs.map .enc)) := rfl
      _ = execAll (bs.map .enc) (s.emitEnc ((s.readCode b).path.map charOfBit)) := by
        rw [execEnc_of_code he hb, andThen_next]
      _ = _ := by rw [hrest, List.flatMap_cons]

/-- A byte without a code records the error, and the error blocks the commands behind it. -/
theorem execAll_enc_of_noCode {b : Byte} (cs : List Byte) {s : State} (he : s.err = false)
    (hv : (s.readCode b).valid = false) :
    execAll ((b :: cs).map .enc) s = .next (s.withError 1#4 (b.setWidth 32)) :=
  calc execAll ((b :: cs).map .enc) s
    _ = andThen (execEnc b s) (execAll (cs.map .enc)) := rfl
    _ = execAll (cs.map .enc) (s.withError 1#4 (b.setWidth 32)) := by rw [execEnc_of_noCode he hv, andThen_next]
    _ = _ := execAll_enc_of_err cs rfl

/-- Settles O44: the sequence is cut at the first byte without a code. -/
theorem encoderStreamLaw : Obligations.EncoderStreamLaw := by
  intro s bs he hv
  have hemit := execAll_enc_of_codes bs he hv
  refine ⟨hemit, fun b cs hb => ?_⟩
  rw [List.map_append, execAll_append _ _ _ _ hemit]
  exact execAll_enc_of_noCode (s := s.emitEnc _) cs he hb

/-! ### The reads of the code table (R161, R162) -/

/-- Settles O42: a length fits in `RESULT` as it is, and R34 gives a valid code at least one bit. -/
theorem qlenReadsTheLength : Obligations.QlenReadsTheLength := by
  refine ⟨spelledB (m := .QLEN) rfl (operandsOf 0#9 0#32), fun s b => ⟨_, rfl, ?_⟩⟩
  have hwide : ((s.readCode b).len.setWidth 64).toNat = (s.readCode b).len.toNat :=
    BitVec.toNat_setWidth_of_le (by decide)
  cases hv : (s.readCode b).valid with
  | true =>
    rw [if_pos rfl, hwide]
    exact ⟨fun _ => rfl, nofun, fun hs _ => Nat.ne_of_gt (hs.len_pos b hv)⟩
  | false => exact ⟨nofun, fun _ => rfl, nofun⟩

theorem execQbit_of_lt {b : Byte} {d : BitVec 32} {s : State} (hv : (s.readCode b).valid = true)
    (hd : d.toNat < (s.readCode b).len.toNat) :
    execQbit b d s =
      .next (s.setResult ((BitVec.ofBool ((s.readCode b).bits.toList.getD d.toNat false)).setWidth 64)) := by
  have hbits : d.toNat < CODE_MAX := by
    have := (s.readCode b).len.isLt
    unfold CODE_MAX
    omega
  rw [execQbit, dif_pos ⟨hv, hd⟩]
  simp [hbits]

theorem execQbit_of_not_lt {b : Byte} {d : BitVec 32} {s : State}
    (h : (s.readCode b).valid = false ∨ (s.readCode b).len.toNat ≤ d.toNat) :
    execQbit b d s = raiseError .queryRange d s := by
  refine dif_neg fun ⟨hv, hd⟩ => ?_
  rcases h with hn | hle
  · exact Bool.eq_false_iff.mp hn hv
  · exact Nat.not_lt.mpr hle hd

/-- Settles O43: the bit is zero-extended into `RESULT`; a raise records its error only when none is recorded. -/
theorem qbitReadsOneBit : Obligations.QbitReadsOneBit := by
  refine ⟨spelledBD (m := .QBIT) rfl (operandsOf 0#9 0#32), fun s b d =>
    ⟨fun hv hd => ⟨_, execQbit_of_lt hv hd, ?_⟩, fun h => ⟨fun he => ?_, fun he => ?_⟩⟩⟩
  · rw [BitVec.toNat_setWidth_of_le (by decide), BitVec.toNat_ofBool]
  · exact (execQbit_of_not_lt h).trans (raiseError_of_noErr he .queryRange d)
  · exact (execQbit_of_not_lt h).trans (congrArg _ (State.raise_of_err he _ _))

end Sys2Proof.Machine
end

section
/-! PROOF. The decoder (`spec/43_decoder.md`): what one `DEC` does in each case (R180, R182), `DEND` (R181), and the bytes that
come back from the characters of their codes (R183). -/

namespace Sys2Proof.Machine

/-! ### One `DEC` (R180, R182) -/

theorem execDec_of_err {b : Byte} {s : State} (he : s.err = true) : execDec b s = .next s :=
  unlessBlocked_of_err he _

theorem execDec_of_noTree {b : Byte} {s : State} (he : s.err = false) (hr : s.root = NIL) :
    execDec b s = .next (s.withError 3#4 (b.setWidth 32)) := by
  rw [execDec, unlessBlocked_of_noErr he, if_neg (by simp [State.treeValid, hr])]
  exact raiseError_of_noErr he .noTree (infoOfByte b)

theorem execDec_of_invalidBit {b : Byte} {s : State} (he : s.err = false) (hr : s.root ≠ NIL) (hb : bitOfChar b = none) :
    execDec b s = .next (s.withError 2#4 (b.setWidth 32)) := by
  rw [execDec, unlessBlocked_of_noErr he, if_pos (by simpa [State.treeValid] using hr)]
  simp only [mux, hb]
  exact raiseError_of_noErr he .invalidBit (infoOfByte b)

theorem bitOfChar_eq_none {b : Byte} (h0 : b ≠ 0x30#8) (h1 : b ≠ 0x31#8) : bitOfChar b = none := by
  rw [bitOfChar, CHAR0, CHAR1, if_neg h1, if_neg h0]

theorem exists_eq_charOfBit {b : Byte} (h : b = 0x30#8 ∨ b = 0x31#8) : ∃ x, b = charOfBit x :=
  h.elim (fun h0 => ⟨false, h0⟩) fun h1 => ⟨true, h1⟩

/-- The child that the character of a bit selects (R182). -/
theorem Node.child_eq_ite (nd : Node) (x : Bool) :
    (if charOfBit x = 0x31#8 then nd.right else nd.left) = nd.child x := by
  cases x <;> rfl

theorem arriveAt_internal {n : NodeIdx} {nd : Node} (hleaf : nd.leaf = false) (s : State) :
    arriveAt n nd s = .next (s.walkerTo n) := by
  simp [arriveAt, hleaf]

theorem arriveAt_realLeaf {n : NodeIdx} {nd : Node} (hleaf : nd.leaf = true) (hsym : nd.sym ≠ SENTINEL) (s : State) :
    arriveAt n nd s = .next (s.emitDec nd.byte).walkerToRoot := by
  simp [arriveAt, hleaf, hsym]

theorem arriveAt_placeholder {n : NodeIdx} {nd : Node} (hleaf : nd.leaf = true) (hsym : nd.sym = SENTINEL) {s : State}
    (he : s.err = false) : arriveAt n nd s = .next (s.withError 4#4 (n.setWidth 32)) := by
  rw [arriveAt, if_pos hleaf, if_pos hsym]
  exact raiseError_of_noErr he .placeholderLeaf (infoOfNode n)

/-- Where there is a tree, the walker's node and its children are nodes of the tree (R31, R35). -/
theorem State.WalkerOk.reads {s : State} (hw : s.WalkerOk) (ht : s.TreeOk) (hr : s.root ≠ NIL) :
    ∃ nd, s.readNode s.cur = some nd ∧
      ∀ x, (nd.child x).toNat < s.nodeCount.toNat ∧ ∃ nx, s.readNode (nd.child x) = some nx := by
  obtain ⟨hcur, nd, hnd, hleaf⟩ := hw.internal hr
  obtain ⟨hleft, hright, -, l, r, hl, hrt, -⟩ := ht.nodes.internal s.cur nd hcur hnd hleaf
  refine ⟨nd, hnd, fun x => ?_⟩
  cases x with
  | false => exact ⟨hleft.trans hcur, l, hl⟩
  | true => exact ⟨hright.trans hcur, r, hrt⟩

/-- The placeholder is the leaf behind the only real one (R133). -/
theorem State.TreeOk.placeholder_index {s : State} (ht : s.TreeOk) {i : NodeIdx} {nd : Node}
    (hi : i.toNat < s.nodeCount.toNat) (hnd : s.readNode i = some nd) (hleaf : nd.leaf = true)
    (hsym : nd.sym = SENTINEL) : i = 1#9 := by
  have hlt : i.toNat < s.leaves.toNat + s.degen.toNat := (ht.layout.leaf_index i nd hi hnd).mp hleaf
  have hle : s.leaves.toNat ≤ i.toNat := (ht.layout.sentinel i nd hi hnd).mp hsym
  cases hd : s.degen with
  | false => rw [hd, Bool.toNat_false] at hlt; omega
  | true =>
    have hone := ht.regs.degen_iff.mp hd
    rw [hd, Bool.toNat_true] at hlt
    exact BitVec.eq_of_toNat_eq (show i.toNat = 1 by omega)

/-- Settles O45: the checks come in the order of R182, and the node that the walker arrives at decides the rest. -/
theorem decTakesOneCharacter : Obligations.DecTakesOneCharacter := by
  refine ⟨spelledB (m := .DEC) rfl (operandsOf 0#9 0#32), fun s b ht hw =>
    ⟨execDec_of_err, execDec_of_noTree, fun he hr h0 h1 => execDec_of_invalidBit he hr (bitOfChar_eq_none h0 h1),
      fun he hr hb => ?_⟩⟩
  obtain ⟨x, rfl⟩ := exists_eq_charOfBit hb
  obtain ⟨nd, hnd, hchild⟩ := hw.reads ht hr
  obtain ⟨hin, nx, hnx⟩ := hchild x
  have hexec := exec_dec_char he hr hnd hnx
  refine ⟨nd, nx, hnd, ?_⟩
  rw [Node.child_eq_ite]
  refine ⟨hnx, fun hleaf => ?_, fun hleaf hsym => ?_, fun hleaf hsym => ?_⟩
  · exact hexec.trans (arriveAt_internal hleaf s)
  · exact hexec.trans (arriveAt_realLeaf hleaf hsym s)
  · have hone := ht.placeholder_index hin hnx hleaf hsym
    rw [hone] at hexec ⊢
    exact ⟨rfl, hexec.trans (arriveAt_placeholder hleaf hsym he)⟩

/-! ### `DEND` (R181) -/

theorem execDend_of_err {s : State} (he : s.err = true) : execDend s = .next s := unlessBlocked_of_err he _

theorem execDend_of_noErr {s : State} (he : s.err = false) :
    execDend s = .next ((s.setResult (s.depth.setWidth 64)).setPartial (s.depth != 0#8)).walkerToRoot :=
  unlessBlocked_of_noErr he _

/-- At the root there is no partial code to drop. -/
theorem execAll_dend_at_root {s : State} (he : s.err = false) :
    execAll [.dend] s.walkerToRoot = .next ((s.setResult 0#64).setPartial false).walkerToRoot := by
  simp only [execAll, exec, execDend_of_noErr (s := s.walkerToRoot) he]
  rfl

/-- Settles O46: a depth fits in `RESULT` as it is. -/
theorem dendReportsTheDepth : Obligations.DendReportsTheDepth := by
  refine ⟨spelledZ (m := .DEND) rfl (operandsOf 0#9 0#32), fun s => ⟨execDend_of_err, fun he =>
    ⟨s.depth.setWidth 64, BitVec.toNat_setWidth_of_le (by decide), (execDend_of_noErr he).trans ?_⟩⟩⟩
  rw [decide_not]
  rfl

/-! ### Decoding what was encoded (R183) -/

/-- A walker at depth 0 stands on the root (R35). -/
theorem State.WalkerOk.walkerToRoot_eq {s : State} (hw : s.WalkerOk) (hr : s.root ≠ NIL) (hdepth : s.depth = 0#8) :
    s.walkerToRoot = s := by
  obtain ⟨p, hlen, hp⟩ := hw.on_path hr
  obtain rfl : p = [] := List.eq_nil_of_length_eq_zero (by rw [hlen, hdepth]; rfl)
  have hcur : s.root = s.cur := Option.some.inj hp
  exact congrArg₂ (fun c d => { s with cur := c, depth := d }) hcur hdepth.symm

/-- No path leads on from `NIL`, which names no node (R66). -/
theorem State.root_ne_nil_of_follow {s : State} {p : List Bool} {i : NodeIdx} (hne : p ≠ [])
    (h : s.follow s.root p = some i) : s.root ≠ NIL := by
  intro hr
  cases p with
  | nil => exact hne rfl
  | cons x p => simp [State.follow, hr, State.readNode, NIL] at h

/-- From the root, the characters of one code append its byte and return the walker to the root (R180). -/
theorem execAll_dec_code {s : State} (he : s.err = false) (hs : s.CodesOk) {b : Byte}
    (hv : (s.readCode b).valid = true) (rest : List Instr) :
    execAll (((s.readCode b).path.map charOfBit).map .dec ++ rest) s.walkerToRoot =
      execAll rest (s.emitDec b).walkerToRoot := by
  obtain ⟨i, hpath, hleaf⟩ := hs.path b hv
  have hne : (s.readCode b).path ≠ [] := by
    rw [ne_eq, ← List.length_eq_zero_iff, CodeEntry.path_length]
    exact Nat.ne_of_gt (hs.len_pos b hv)
  rw [List.map_map]
  exact execAll_dec_path s he (State.root_ne_nil_of_follow hne hpath) b rest _ _ _ i hne hpath hleaf

/-- From the root, the characters of the codes of `bs` append `bs`, for appending leaves the tree and the code table as they
were. -/
theorem execAll_dec_codes (bs : List Byte) {s : State} (he : s.err = false) (hs : s.CodesOk)
    (hv : ∀ b ∈ bs, (s.readCode b).valid = true) (rest : List Instr) :
    execAll ((bs.flatMap fun b => (s.readCode b).path.map charOfBit).map .dec ++ rest) s.walkerToRoot =
      execAll rest { s with decOut := s.decOut ++ bs }.walkerToRoot := by
  induction bs generalizing s with
  | nil => simp
  | cons b bs ih =>
    obtain ⟨hb, hbs⟩ := List.forall_mem_cons.mp hv
    have hsame : s.SameTree (s.emitDec b) := by constructor <;> rfl
    have hrest := ih (s := s.emitDec b) he (hsame.codesOk hs) hbs
    rw [List.flatMap_cons, List.map_append, List.append_assoc, execAll_dec_code he hs hb]
    refine hrest.trans ?_
    simp [State.emitDec]

/-- From the root, `DECOMPRESS` of the characters of the codes of `bs` appends `bs`, and its `DEND` reports depth 0 (R183). -/
theorem execAll_decompress_codes (bs : List Byte) {s : State} (he : s.err = false) (hs : s.CodesOk)
    (hv : ∀ b ∈ bs, (s.readCode b).valid = true) :
    execAll (Pseudo.DECOMPRESS (bs.flatMap fun b => (s.readCode b).path.map charOfBit)).expand s.walkerToRoot =
      .next { s with decOut := s.decOut ++ bs, result := 0#64, partialBit := false, cur := s.root, depth := 0#8 } :=
  (execAll_dec_codes bs he hs hv [.dend]).trans (execAll_dend_at_root (s := { s with decOut := s.decOut ++ bs }) he)

/-- Settles O47: the codes that `ENC` emits lead the walker from the root to the leaves of their bytes, one after another. -/
theorem decodeStreamLaw : Obligations.DecodeStreamLaw := by
  intro s bs _ hs hw hr hdepth he hv
  refine ⟨_, execAll_enc_of_codes bs he hv, ?_⟩
  have hsame : s.SameTree (s.emitEnc (bs.flatMap fun b => (s.readCode b).path.map charOfBit)) := by constructor <;> rfl
  have hdec := execAll_decompress_codes bs (s := s.emitEnc _) he (hsame.codesOk hs) hv
  rwa [(hsame.walkerOk rfl rfl hw).walkerToRoot_eq hr hdepth] at hdec

end Sys2Proof.Machine
end

section
/-! PROOF. Control and inspection (`spec/44_control.md`): what `NOP` and `ERRCLR` leave (R200, R202), and what the queries report
in `RESULT` (R203–R205). -/

namespace Sys2Proof

/-- `RSV` is the 15 zero bits between the opcode and a node operand (R81, R82). -/
theorem encode_ofMnemonic_N {m : Mnemonic} (hm : m.form = .N) (o : Operands) :
    encode (Instr.ofMnemonic m o) = m.opc ++ 0#15 ++ o.n ++ selData o.sel := by
  rw [encode_ofMnemonic, hm]; rfl

theorem selData_lt (sel : NodeSel) : (selData sel).toNat < 4 := by cases sel <;> decide

end Sys2Proof

namespace Sys2Proof.Machine

/-! ### The words of a row of form N (R82, R85) -/

/-- The words of a row of form N; the form reads no operand but the node and the selector. -/
theorem spelledN {m : Mnemonic} (hm : m.form = .N) (o : Operands) :
    SpelledN m.opc fun n sel => Instr.ofMnemonic m { o with n := n, sel := sel } := by
  refine ⟨fun n => ?_, fun w hopc hne => illegalWord_of_ne_encode hopc fun o => ?_⟩
  · have hword (sel : NodeSel) : decode (m.opc ++ 0#15 ++ n ++ selData sel) =
        .ok (Instr.ofMnemonic m { o with n := n, sel := sel }) := by
      rw [← encode_ofMnemonic_N hm { o with n := n, sel := sel }]; exact decode_encode _
    exact ⟨hword .weight, hword .symbol, hword .left, hword .right⟩
  · rw [encode_ofMnemonic_N hm]; exact hne o.n (selData o.sel) (selData_lt o.sel)

/-! ### `NOP` and `ERRCLR` (R200, R202) -/

/-- Settles O50: no register is written. -/
theorem nopChangesNothing : Obligations.NopChangesNothing :=
  ⟨spelledZ (m := .NOP) rfl (operandsOf 0#9 0#32), fun _ => rfl⟩

/-- Settles O51: clearing the error and moving the walker write these five registers and no other. -/
theorem errclrReturnsFromAnError : Obligations.ErrclrReturnsFromAnError :=
  ⟨spelledZ (m := .ERRCLR) rfl (operandsOf 0#9 0#32), fun _ => rfl⟩

/-! ### The layouts of `RESULT` as numbers (R203–R205) -/

theorem rootResult_toNat (valid : Bool) (count : BitVec 10) (root : NodeIdx) :
    (rootResult valid count root).toNat = root.toNat + count.toNat * 2 ^ 16 + valid.toNat * 2 ^ 32 := by
  simp only [rootResult, toNat_append_eq_add, BitVec.toNat_ofBool, BitVec.toNat_ofNat]
  omega

theorem errResult_toNat (err : Bool) (errcode : BitVec 4) (errinfo : BitVec 32) :
    (errResult err errcode errinfo).toNat = errinfo.toNat + errcode.toNat * 2 ^ 32 + err.toNat * 2 ^ 40 := by
  simp only [errResult, toNat_append_eq_add, BitVec.toNat_ofBool, BitVec.toNat_ofNat]
  omega

theorem nodeResult_weight_toNat (nd : Node) : (nodeResult nd .weight).toNat = nd.weight.toNat :=
  BitVec.toNat_setWidth_of_le (by decide)

theorem nodeResult_symbol_toNat (nd : Node) :
    (nodeResult nd .symbol).toNat = nd.sym.toNat + nd.leaf.toNat * 2 ^ 16 := by
  simp only [nodeResult, toNat_append_eq_add, BitVec.toNat_ofBool, BitVec.toNat_ofNat]
  omega

theorem nodeResult_left_toNat (nd : Node) : (nodeResult nd .left).toNat = nd.left.toNat :=
  BitVec.toNat_setWidth_of_le (by decide)

theorem nodeResult_right_toNat (nd : Node) : (nodeResult nd .right).toNat = nd.right.toNat :=
  BitVec.toNat_setWidth_of_le (by decide)

/-! ### `QROOT` (R203) -/

/-- With no tree, `QROOT` reports `ROOT = NIL` and two zero fields. -/
theorem State.TreeRegsOk.rootResult_of_root_nil {s : State} (hs : s.TreeRegsOk) (hr : s.root = NIL) :
    rootResult s.treeValid s.nodeCount s.root = 0x00000000000001FF#64 := by
  have hcount : s.nodeCount = 0#10 := BitVec.eq_of_toNat_eq (hs.no_tree (hs.root_nil_iff.mp hr))
  rw [State.treeValid, hr, hcount]
  rfl

/-- Settles O52, from the layout of its result. -/
theorem qrootReportsTheTreeRegisters : Obligations.QrootReportsTheTreeRegisters := by
  refine ⟨spelledZ (m := .QROOT) rfl (operandsOf 0#9 0#32), fun s => ⟨_, rfl, ?_, State.TreeRegsOk.rootResult_of_root_nil⟩⟩
  rw [rootResult_toNat, s.treeValid_toNat, ite_mul, zero_mul, one_mul]

/-! ### `QNODE` (R204) -/

theorem execQnode_of_le {n : NodeIdx} {s : State} (h : s.nodeCount.toNat ≤ n.toNat) (sel : NodeSel) :
    execQnode n sel s = raiseError .queryRange (infoOfNode n) s := if_pos h

theorem execQnode_of_lt {n : NodeIdx} {nd : Node} {s : State} (h : n.toNat < s.nodeCount.toNat)
    (hnd : s.readNode n = some nd) (sel : NodeSel) :
    execQnode n sel s = .next (s.setResult (nodeResult nd sel)) := by
  rw [execQnode, if_neg (Nat.not_le.mpr h), withNode_some hnd]

/-- Settles O53: an index below `NODE_COUNT` names an entry of node RAM, and a raise records its error only when none is
recorded. -/
theorem qnodeReportsOneField : Obligations.QnodeReportsOneField := by
  refine ⟨spelledN (m := .QNODE) rfl (operandsOf 0#9 0#32), fun s n sel hmax =>
    ⟨fun hle => ⟨fun he => ?_, fun he => ?_⟩, fun hlt => ?_⟩⟩
  · exact (execQnode_of_le hle sel).trans (raiseError_of_noErr he .queryRange (infoOfNode n))
  · exact (execQnode_of_le hle sel).trans (congrArg _ (State.raise_of_err he _ _))
  · have hnd := State.readNode_of_lt (s := s) (hlt.trans_le hmax)
    refine ⟨_, hnd, _, execQnode_of_lt hlt hnd sel, ?_⟩
    cases sel with
    | weight => exact nodeResult_weight_toNat _
    | symbol => exact nodeResult_symbol_toNat _
    | left => exact nodeResult_left_toNat _
    | right => exact nodeResult_right_toNat _

/-! ### `QERR` (R205) -/

/-- Settles O54, from the layout of its result. -/
theorem qerrReportsTheErrorRegisters : Obligations.QerrReportsTheErrorRegisters :=
  ⟨spelledZ (m := .QERR) rfl (operandsOf 0#9 0#32), fun s =>
    ⟨_, rfl, errResult_toNat s.err s.errcode s.errinfo⟩⟩

end Sys2Proof.Machine
end

section
/-! PROOF. Errors (`spec/60_exceptions.md`): what a command can do to the error registers and the log of errors (R220, R232,
R237), the causes of an error (R221–R228), and the blocked commands (R229). -/

namespace Sys2Proof

/-- The two commands that return from an error (R232). -/
def Instr.clearsError : Instr → Bool
  | .clr | .errclr => true
  | _ => false

theorem Instr.clearsError_eq_false {i : Instr} (hi : i.isBlocked = true ∨ i.mayRaise = true ∨ i.isRead = true) :
    i.clearsError = false := by
  cases i with
  | clr | errclr => rcases hi with hi | hi | hi <;> cases hi
  | _ => rfl

theorem Instr.eq_of_clearsError {i : Instr} (hi : i.clearsError = true) : i = .clr ∨ i = .errclr := by
  cases i with
  | clr => exact .inl rfl
  | errclr => exact .inr rfl
  | _ => cases hi

end Sys2Proof

namespace Sys2Proof.Machine

/-! ### What a command can do to the error registers -/

/-- The two states agree on the error registers and on the log of errors. -/
structure State.SameErrors (s t : State) : Prop where
  err : t.err = s.err
  errcode : t.errcode = s.errcode
  errinfo : t.errinfo = s.errinfo
  errLog : t.errLog = s.errLog

/-- In `t` no error is recorded, and the log is the one of `s` (R232, R237). -/
structure State.ErrorCleared (s t : State) : Prop where
  err : t.err = false
  errcode : t.errcode = 0#4
  errinfo : t.errinfo = 0#32
  errLog : t.errLog = s.errLog

/-- What happens to the error registers and the log when a command runs: nothing, a raise and nothing else, or clearing. -/
inductive State.ErrorChange (s : State) : State → Prop where
  | kept {t : State} (h : s.SameErrors t) : ErrorChange s t
  | raised (e : ErrKind) (info : BitVec 32) : ErrorChange s (s.raise e info)
  | cleared {t : State} (h : s.ErrorCleared t) : ErrorChange s t

theorem Effect.errorCleared {i : Instr} {s t : State} (h : Effect s i t) (hi : i.clearsError = true) :
    s.ErrorCleared t := by
  cases h with
  | clr | errclr => constructor <;> rfl
  | blocked hb => simp [Instr.clearsError_eq_false (.inl hb)] at hi
  | raised hr => simp [Instr.clearsError_eq_false (.inr (.inl hr))] at hi
  | read hr => simp [Instr.clearsError_eq_false (.inr (.inr hr))] at hi
  | _ => simp [Instr.clearsError] at hi

/-- A command that does not return from an error leaves the error registers, or takes an error and does nothing else. -/
theorem Effect.sameErrors_or_raise {i : Instr} {s t : State} (h : Effect s i t) (hi : i.clearsError = false) :
    s.SameErrors t ∨ ∃ e info, t = s.raise e info := by
  cases h with
  | clr | errclr => simp [Instr.clearsError] at hi
  | raised _ e info => exact .inr ⟨e, info, rfl⟩
  | _ => exact .inl (by constructor <;> simp)

theorem Effect.errorChange {i : Instr} {s t : State} (h : Effect s i t) : s.ErrorChange t := by
  cases hi : i.clearsError with
  | true => exact .cleared (h.errorCleared hi)
  | false =>
    rcases h.sameErrors_or_raise hi with hsame | ⟨e, info, rfl⟩
    · exact .kept hsame
    · exact .raised e info

/-! ### The invariant of the error registers (R221) -/

theorem State.SameErrors.errorsOk {s t : State} (h : s.SameErrors t) (hs : s.ErrorsOk) : t.ErrorsOk := by
  simpa [State.ErrorsOk, h.err, h.errcode, h.errinfo] using hs

theorem State.ErrorCleared.errorsOk {s t : State} (h : s.ErrorCleared t) : t.ErrorsOk := by
  simp [State.ErrorsOk, h.err, h.errcode, h.errinfo]

theorem State.ErrorChange.errorsOk {s t : State} (h : s.ErrorChange t) (hs : s.ErrorsOk) : t.ErrorsOk := by
  cases h with
  | kept h => exact h.errorsOk hs
  | raised e info => exact State.raise_errorsOk hs e info
  | cleared h => exact h.errorsOk

theorem State.SameRegs.sameErrors {s t : State} (h : s.SameRegs t) : s.SameErrors t := by
  rw [h]; constructor <;> rfl

/-- Settles O20: a raise records one of the codes 1 to 7, and what clears `ERR` clears the other two registers with it. -/
theorem errorInvariantKeptByEveryStep : Obligations.ErrorInvariantKeptByEveryStep := fun _ _ hs h =>
  step_keeps (fun hst => hst.sameErrors.errorsOk) State.ResetValues.errorsOk
    (fun e info hs => State.raise_errorsOk hs e info) (fun hi => hi.errorChange.errorsOk) hs h

/-! ### The first error alone is recorded, until it is cleared (R220, R232) -/

/-- Where `ERR` rises, an error was taken and nothing else happened. -/
theorem State.ErrorChange.eq_withError {s t : State} (h : s.ErrorChange t) (hs : s.err = false) (ht : t.err = true) :
    ∃ (e : ErrKind) (info : BitVec 32), t = s.withError e.code info := by
  cases h with
  | kept h => simp [h.err, hs] at ht
  | raised e info => exact ⟨e, info, State.raise_of_noErr hs e info⟩
  | cleared h => simp [h.err] at ht

/-- Settles O14: a raise is discarded while an error is recorded, and a command that takes an error does nothing else. -/
theorem errorsArePrecise : Obligations.ErrorsArePrecise := by
  refine ⟨fun s e info => ⟨fun he => State.raise_of_noErr he e info, fun he => State.raise_of_err he e info⟩,
    fun i s t h hs ht => ?_⟩
  obtain ⟨e, info, heq⟩ := (exec_effect h).errorChange.eq_withError hs ht
  exact ⟨e.code, info, heq⟩

/-- While an error is recorded, a raise is discarded, so a command that does not clear it keeps it. -/
theorem Effect.sameErrors_of_err {i : Instr} {s t : State} (h : Effect s i t) (hi : i.clearsError = false)
    (hs : s.err = true) : s.SameErrors t := by
  rcases h.sameErrors_or_raise hi with hsame | ⟨e, info, rfl⟩
  · exact hsame
  · rw [State.raise_of_err hs]; constructor <;> rfl

/-- Settles O17: of the commands only `CLR` and `ERRCLR` clear a recorded error, and none touches the log. -/
theorem firstErrorIsKeptUntilCleared : Obligations.FirstErrorIsKeptUntilCleared := by
  intro i s t hs h
  have he := exec_effect h
  cases hi : i.clearsError with
  | true =>
    have hc := he.errorCleared hi
    refine ⟨hc.errLog, fun hclr herrclr => ?_, fun _ => ⟨hc.err, hc.errcode, hc.errinfo⟩⟩
    exact ((Instr.eq_of_clearsError hi).elim hclr herrclr).elim
  | false =>
    have hk := he.sameErrors_of_err hi hs
    refine ⟨hk.errLog, fun _ _ => ⟨hk.err.trans hs, hk.errcode, hk.errinfo⟩, fun hor => ?_⟩
    rcases hor with rfl | rfl <;> cases hi

/-! ### The log of errors (R237) -/

/-- From `s` to `t` the log gains the recorded error if `ERR` rises, and is the same otherwise. -/
def State.LogsNewError (s t : State) : Prop :=
  (s.err = false ∧ t.err = true → t.errLog = s.errLog ++ [(t.errcode, t.errinfo)]) ∧
    (¬ (s.err = false ∧ t.err = true) → t.errLog = s.errLog)

theorem State.ErrorChange.logsNewError {s t : State} (h : s.ErrorChange t) : s.LogsNewError t := by
  refine ⟨fun ⟨hs, ht⟩ => ?_, fun hnot => ?_⟩
  · obtain ⟨e, info, rfl⟩ := h.eq_withError hs ht
    rfl
  · cases h with
    | kept h => exact h.errLog
    | raised e info =>
      have hs : s.err = true := by simpa using hnot
      rw [State.raise_of_err hs]
    | cleared h => exact h.errLog

/-- Outside a reset clearing, a step changes the error registers as a command does, from a state with the same ones. -/
theorem step_errorChange {s t : State} (hbusy : s.busy = false) (h : step s = .next t) :
    ∃ u, s.SameErrors u ∧ u.ErrorChange t := by
  have hkept {v : State} (hv : s.SameRegs v) : ∃ u, s.SameErrors u ∧ u.ErrorChange v :=
    ⟨v, hv.sameErrors, .kept (by constructor <;> rfl)⟩
  rcases step_next h with ⟨-, rfl⟩ | ⟨-, hb, -⟩ | ⟨-, -, -, rfl⟩ | ⟨w, rest, -, -, -, hrun⟩ | ⟨w, rest, u, -, -, -, -, rfl⟩
  · exact hkept rfl
  · simp [hbusy] at hb
  · exact hkept rfl
  · refine ⟨{ s.tickRst with cmdIn := rest }, by constructor <;> rfl, ?_⟩
    rcases runWord_next hrun with ⟨i, -, hi⟩ | ⟨r, -, rfl⟩
    · exact (exec_effect hi).errorChange
    · exact .raised _ _
  · exact hkept rfl

/-- Settles O18: the one raise that records its error logs it, and nothing else writes the log. -/
theorem errorLogRecordsEachNewError : Obligations.ErrorLogRecordsEachNewError := by
  intro s t _ hbusy h
  obtain ⟨u, hsu, hut⟩ := step_errorChange hbusy h
  have hlogs := hut.logsNewError
  rwa [State.LogsNewError, hsu.err, hsu.errLog] at hlogs

/-! ### The causes of an error (R221–R228) -/

theorem Config.maxCount_cast (c : Config) : (c.maxCount : Int) = 2 ^ c.W - 1 := by
  rw [Config.maxCount, Nat.cast_pred (Nat.two_pow_pos _), Nat.cast_pow]; rfl

/-- Settles O15: each cause fails the check that raises its error. -/
theorem errorCodesAndInformation : Obligations.ErrorCodesAndInformation := by
  intro s he
  refine ⟨fun b hv => execEnc_of_noCode he hv, fun b hr h0 h1 => execDec_of_invalidBit he hr (bitOfChar_eq_none h0 h1),
    fun b hr => execDec_of_noTree he hr, ?_, fun b hfull => execHist_of_full he hfull, fun b d hover => ?_,
    fun w r hw => (runWord_illegal_cases hw s).1 he, fun b d h => ?_, fun n sel hn => ?_⟩
  · rintro b nd nx x hr hnd (⟨rfl, rfl⟩ | ⟨rfl, rfl⟩) hnx hleaf hsym
    · exact (exec_dec_char (x := false) he hr hnd hnx).trans (arriveAt_placeholder hleaf hsym he)
    · exact (exec_dec_char (x := true) he hr hnd hnx).trans (arriveAt_placeholder hleaf hsym he)
  · exact execWfreq_of_overflow he (by rwa [Config.maxCount_cast])
  · exact (execQbit_of_not_lt h).trans (raiseError_of_noErr he .queryRange d)
  · exact (execQnode_of_le hn sel).trans (raiseError_of_noErr he .queryRange (infoOfNode n))

/-! ### The blocked commands (R229) -/

theorem execBuild_of_err {s : State} (he : s.err = true) : execBuild s = .next s := unlessBlocked_of_err he _

theorem setWidth_ofBool (x : Bool) : (BitVec.ofBool x).setWidth 64 = if x then 1 else 0 := by cases x <;> rfl

theorem rootResult_root (valid : Bool) (count : BitVec 10) (root : NodeIdx) :
    (rootResult valid count root).extractLsb' 0 9 = root := BitVec.extractLsb'_append_eq_right

theorem errResult_errinfo (err : Bool) (errcode : BitVec 4) (errinfo : BitVec 32) :
    (errResult err errcode errinfo).extractLsb' 0 32 = errinfo := BitVec.extractLsb'_append_eq_right

/-- Settles O16: six commands begin with the blocking check, and the other ten do not look at `ERR`. -/
theorem blockedCommandsHaveNoEffect : Obligations.BlockedCommandsHaveNoEffect := by
  intro s he
  refine ⟨⟨fun b => execHist_of_err he, fun b d => execWfreq_of_err he, execBuild_of_err he,
    fun b => execEnc_of_err he, fun b => execDec_of_err he, execDend_of_err he⟩,
    rfl, ⟨_, rfl, s.clearAll_resetValues⟩, rfl, fun b => rfl, rfl, fun b => ?_, fun b d hv hd => ?_,
    ⟨_, rfl, rootResult_root _ _ _⟩, fun n sel nd hn hnd => execQnode_of_lt hn hnd sel, ⟨_, rfl, errResult_errinfo _ _ _⟩⟩
  · obtain ⟨v, hv, hlen, hzero, -⟩ := qlenReadsTheLength.2 s b
    exact ⟨v, hv, hlen, fun h => BitVec.eq_of_toNat_eq (hzero h)⟩
  · exact (execQbit_of_lt hv hd).trans (by rw [setWidth_ofBool]; rfl)

end Sys2Proof.Machine
end

section
/-! PROOF. Compressing and decompressing a whole string (`spec/60_exceptions.md` R236, `spec/95_test_vectors.md` S1): `HISTS`
counts every byte, `BUILD` gives each counted byte a code, and `ENCS` and `DECOMPRESS` run through those codes. -/

namespace Sys2Proof.Machine

/-! ### A sequence of `HIST` commands (R110) -/

/-- `u` is the state that counting the bytes `bs` makes of `s`: only the counts differ. -/
structure State.Counted (s : State) (bs : List Byte) (u : State) : Prop where
  counts : u.CountsOk
  readFreq : ∀ b, (u.readFreq b).toNat = (s.readFreq b).toNat + bs.count b
  total : u.total.toNat = s.total.toNat + bs.length
  frame : u = { s with freq := u.freq, total := u.total }

/-- One `HIST` with room for its byte counts it. -/
theorem exec_hist_counted {s : State} (b : Byte) (hs : s.CountsOk) (he : s.err = false)
    (hroom : s.total.toNat < s.cfg.maxCount) : ∃ u, exec (.hist b) s = .next u ∧ s.Counted [b] u := by
  obtain ⟨f, n, hexec, hn, hb, hframe⟩ := (histCountsOneByte.2 s b hs).2.2 he (Nat.ne_of_lt hroom)
  refine ⟨_, hexec, (exec_effect hexec).countsOk hs, fun c => ?_, hn, rfl⟩
  by_cases hc : c = b
  · rw [hc, List.count_singleton_self]; exact hb
  · rw [List.count_singleton, beq_false_of_ne (Ne.symm hc)]
    exact congrArg BitVec.toNat (hframe c hc)

theorem State.Counted.append {s u v : State} {as bs : List Byte} (h : s.Counted as u) (h' : u.Counted bs v) :
    s.Counted (as ++ bs) v where
  counts := h'.counts
  readFreq b := by rw [h'.readFreq, h.readFreq, List.count_append, Nat.add_assoc]
  total := by rw [h'.total, h.total, List.length_append, Nat.add_assoc]
  frame := by rw [h'.frame, h.frame]

/-- `HISTS` of a string for which there is room counts every byte of it. -/
theorem execAll_hists (bs : List Byte) {s : State} (hs : s.CountsOk) (he : s.err = false)
    (hroom : s.total.toNat + bs.length ≤ s.cfg.maxCount) :
    ∃ u, execAll (bs.map .hist) s = .next u ∧ s.Counted bs u := by
  induction bs generalizing s with
  | nil => exact ⟨s, rfl, hs, fun _ => rfl, rfl, rfl⟩
  | cons b bs ih =>
    rw [List.length_cons] at hroom
    obtain ⟨u, hu, hcu⟩ := exec_hist_counted b hs he (by omega)
    have htotal : u.total.toNat = s.total.toNat + 1 := hcu.total
    obtain ⟨v, hv, hcv⟩ := ih hcu.counts (by rw [hcu.frame]; exact he)
      (by rw [htotal, show u.cfg = s.cfg by rw [hcu.frame]]; omega)
    exact ⟨v, by rw [List.map_cons, execAll_cons, hu, andThen_next, hv], hcu.append hcv⟩

/-- After `CLR`, counting leaves the number of times each byte occurs. -/
theorem State.Counted.readFreq_of_clearAll {s u : State} {bs : List Byte} (h : s.clearAll.Counted bs u) (b : Byte) :
    (u.readFreq b).toNat = bs.count b := by
  rw [h.readFreq, s.clearAll_resetValues.freq, BitVec.toNat_ofNat, Nat.zero_mod, Nat.zero_add]

theorem State.Counted.total_of_clearAll {s u : State} {bs : List Byte} (h : s.clearAll.Counted bs u) :
    u.total.toNat = bs.length := by
  rw [h.total, s.clearAll_resetValues.total, BitVec.toNat_ofNat, Nat.zero_mod, Nat.zero_add]

/-! ### `COMPRESS` (R89, R236) -/

/-- The characters of the codes of `bs`, in order (R163). -/
def State.codeChars (s : State) (bs : List Byte) : List Byte := bs.flatMap fun b => (s.readCode b).path.map charOfBit

/-- State `v` is ready to emit the codes of `bs`, and since state `s` nothing was emitted and no error taken: the counts are
those of `bs`, the tree is built from them, and the walker stands on its root. -/
structure State.ReadyFor (s : State) (bs : List Byte) (v : State) : Prop where
  noError : s.NoErrorSince v
  encOut : v.encOut = s.encOut
  decOut : v.decOut = s.decOut
  readFreq : ∀ b, (v.readFreq b).toNat = bs.count b
  total : v.total.toNat = bs.length
  codes : v.CodesOk
  valid : ∀ b ∈ bs, (v.readCode b).valid = true
  atRoot : v.walkerToRoot = v
  root_of_nil : bs = [] → v.root = NIL

/-- `BUILD` after the counting gives every byte a code and writes neither a count nor a log (R137). -/
theorem State.Counted.readyFor {s u : State} {bs : List Byte} (h : s.clearAll.Counted bs u) :
    s.ReadyFor bs (u.installTree (buildTree u.cfg u.freq)) where
  noError := ⟨by rw [h.frame]; simp, by rw [h.frame]; simp⟩
  encOut := by rw [h.frame]; simp
  decOut := by rw [h.frame]; simp
  readFreq b := by rw [← h.readFreq_of_clearAll b]; simp [State.readFreq]
  total := by rw [State.installTree_total, h.total_of_clearAll]
  codes := (build_ok h.counts).2.1
  valid b hb := build_code_of_freq h.counts b fun hzero => by
    have hcount := h.readFreq_of_clearAll b
    rw [hzero] at hcount
    exact (List.count_pos_iff.mpr hb).ne hcount
  atRoot := by simp only [State.walkerToRoot, State.installTree]
  root_of_nil hbs := by
    subst hbs
    have hzero : ∀ b, u.readFreq b = 0#32 := fun b => BitVec.eq_of_toNat_eq (h.readFreq_of_clearAll b)
    rw [buildTree_empty (scanLeaves_length_eq_zero hzero)]
    exact State.installTree_root u Tree.empty

/-- `COMPRESS` counts the bytes of a string that an empty table has room for, builds their tree and emits their codes. -/
theorem execAll_compress {s : State} {bs : List Byte} (hroom : bs.length ≤ s.cfg.maxCount) :
    ∃ v, s.ReadyFor bs v ∧ execAll (Pseudo.COMPRESS bs).expand s = .next (v.emitEnc (v.codeChars bs)) := by
  have hzero : s.clearAll.total.toNat = 0 := rfl
  obtain ⟨u, hu, hcu⟩ := execAll_hists bs s.clearAll_resetValues.countsOk rfl
    (by rwa [hzero, Nat.zero_add, State.clearAll_cfg])
  have he : u.err = false := by rw [hcu.frame]; rfl
  have hv := hcu.readyFor
  refine ⟨_, hv, ?_⟩
  calc execAll (Pseudo.COMPRESS bs).expand s
    _ = execAll (bs.map .hist ++ .build :: bs.map .enc) s.clearAll := rfl
    _ = andThen (exec .build u) (execAll (bs.map .enc)) := by rw [execAll_append _ _ _ _ hu, execAll_cons]
    _ = execAll (bs.map .enc) (u.installTree (buildTree u.cfg u.freq)) := by rw [exec_build_of_noErr he, andThen_next]
    _ = _ := execAll_enc_of_codes bs hv.noError.1 hv.valid

/-- Settles O48: `CLR` makes room for the string, and every counted byte has a code. -/
theorem compressNeverRaises : Obligations.CompressNeverRaises := by
  intro s bs hroom
  obtain ⟨v, hv, hexec⟩ := execAll_compress hroom
  refine ⟨_, hexec, hv.noError, hv.readFreq, hv.total, hv.valid, ?_, hv.root_of_nil⟩
  rw [State.emitEnc_encOut, hv.encOut]
  rfl

/-! ### `DECOMPRESS` of what `COMPRESS` emitted (S1) -/

/-- With the walker on the root, the characters just emitted decode to their bytes (R183). -/
theorem execAll_decompress_emitted {s : State} (bs : List Byte) (he : s.err = false) (hs : s.CodesOk)
    (hv : ∀ b ∈ bs, (s.readCode b).valid = true) (hroot : s.walkerToRoot = s) :
    execAll (Pseudo.DECOMPRESS (s.codeChars bs)).expand (s.emitEnc (s.codeChars bs)) =
      .next { s.emitEnc (s.codeChars bs) with
        decOut := s.decOut ++ bs, result := 0#64, partialBit := false, cur := s.root, depth := 0#8 } := by
  have hsame : s.SameTree (s.emitEnc (s.codeChars bs)) := by constructor <;> rfl
  have hdec := execAll_decompress_codes bs (s := s.emitEnc (s.codeChars bs)) he (hsame.codesOk hs) hv
  rwa [show (s.emitEnc (s.codeChars bs)).walkerToRoot = s.walkerToRoot.emitEnc (s.codeChars bs) from rfl, hroot] at hdec

/-- Settles O49: `DECOMPRESS` begins at the root of the tree whose codes were emitted. -/
theorem compressThenDecompressGivesInput : Obligations.CompressThenDecompressGivesInput := by
  intro s bs hroom
  obtain ⟨v, hv, hexec⟩ := execAll_compress hroom
  have hdec := execAll_decompress_emitted bs hv.noError.1 hv.codes hv.valid hv.atRoot
  refine ⟨_, _, v.codeChars bs, hexec, ?_, hdec, ?_, hv.noError, rfl, rfl⟩
  · rw [State.emitEnc_encOut, hv.encOut]
  · rw [hv.decOut]

end Sys2Proof.Machine
end

section
/-! PROOF. Reset and hazards (`spec/70_reset_and_hazards.md`): what a step answers for each level of `rst` and each thing the
port can offer (R250, R251, R253), a command that `rst` abandons (R230, U14), and an `ENC` beside a `DEC` or a `DEND` (R260). -/

namespace Sys2Proof.Machine

/-! ### What a step answers -/

section Step

variable {s : State}

theorem step_of_rst (hrst : s.rst = true) : step s = .next s.holdReset := by
  simp [step, advance, hrst]

theorem step_of_rises_clearing_due (hrises : s.rstNow = .rises) (hbusy : s.busy = true) : step s = .next s.holdReset := by
  simp [step, advance, State.rst, State.rstRises, hrises, hbusy]

theorem step_of_low_clearing_due (hlow : s.rstNow = .low) (hbusy : s.busy = true) : step s = .next s.finishReset := by
  simp [step, advance, State.rst, State.rstRises, hlow, hbusy]

theorem step_of_low_idle (hlow : s.rstNow = .low) (hbusy : s.busy = false) (hcmd : s.cmdIn = []) :
    step s = .next s.tickRst := by
  simp [step, advance, State.rst, State.rstRises, hlow, hbusy, acceptCommand, hcmd]

/-- An unstable word is refused whether or not `rst` rises within the step (R253). -/
theorem step_of_changed {v w : CmdWord} {rest : List Presentation} (hrst : s.rst = false) (hbusy : s.busy = false)
    (hcmd : s.cmdIn = .changed v w :: rest) : step s = .refused .unstableCommand := by
  cases hrises : s.rstRises with
  | true => simp [step, advance, hrst, hbusy, hrises, acceptAndAbandon, hcmd]
  | false => simp [step, advance, hrst, hbusy, hrises, acceptCommand, hcmd]

theorem abandonWord_of_next {w : CmdWord} {u : State} (h : runWord w s = .next u) :
    abandonWord w s = .next (s.abandon u) := by
  rw [abandonWord, h]

theorem step_of_rises_held {w : CmdWord} {rest : List Presentation} (hrises : s.rstNow = .rises)
    (hbusy : s.busy = false) (hcmd : s.cmdIn = .held w :: rest) : step s = abandonWord w (s.tickRst.withCmdIn rest) := by
  have haccept : step s = acceptAndAbandon s := by simp [step, advance, State.rst, State.rstRises, hrises, hbusy]
  rw [haccept, acceptAndAbandon, hcmd]
  rfl

end Step

/-- Settles O9: an idle step only lets a level of `rst` go by, and an unstable word is refused. -/
theorem stepWaitsOrRefusesUnstableWord : Obligations.StepWaitsOrRefusesUnstableWord :=
  ⟨fun _ hlow hbusy hcmd => step_of_low_idle hlow hbusy hcmd,
    fun _ _ _ _ hrst hbusy hcmd => step_of_changed hrst hbusy hcmd⟩

/-! ### Reset (R250) -/

theorem State.busyNow_of_busy {s : State} (h : s.busy = true) : s.busyNow = true := by simp [State.busyNow, h]

theorem State.cmdReady_of_busy {s : State} (h : s.busy = true) : s.cmdReady = false := by simp [State.cmdReady, h]

theorem State.finishReset_resetValues (s : State) : s.finishReset.ResetValues :=
  s.tickRst.clearAll_resetValues.clearLogs

/-- Settles O10: `rst` high, or rising while the clearing is due, holds the reset; the first step with it low clears. -/
theorem resetHoldsThenClears : Obligations.ResetHoldsThenClears := by
  refine ⟨fun s hrst => ⟨?_, ?_, ?_⟩, fun s hrises hbusy => ?_, fun s hlow hbusy => ?_⟩
  · simp [State.busyNow, hrst]
  · simp [State.cmdReady, hrst]
  · exact ⟨s.holdReset, step_of_rst hrst, rfl, State.cmdReady_of_busy rfl, rfl, rfl⟩
  · exact ⟨s.holdReset, step_of_rises_clearing_due hrises hbusy, rfl, State.cmdReady_of_busy rfl, rfl, rfl⟩
  · exact ⟨s.finishReset, step_of_low_clearing_due hlow hbusy, s.finishReset_resetValues, rfl, rfl, rfl, rfl, rfl, rfl⟩

/-- What an accepted word emits is added to the output streams (R37). -/
theorem runWord_outputs_prefix {w : CmdWord} {s t : State} (h : runWord w s = .next t) :
    s.encOut <+: t.encOut ∧ s.decOut <+: t.decOut := by
  rcases runWord_next h with ⟨i, -, hi⟩ | ⟨r, -, rfl⟩
  · exact ⟨(exec_effect hi).encOut_prefix, (exec_effect hi).decOut_prefix⟩
  · simp

/-- Settles O11: an abandoned command leaves `BUSY` set and a prefix of its output, so the next step with `rst` low clears. -/
theorem resetAbandonsTheCommand : Obligations.ResetAbandonsTheCommand := by
  intro s u w rest hrises hbusy hcmd hrun
  change runWord w (s.tickRst.withCmdIn rest) = .next u at hrun
  have hstep : step s = .next ((s.tickRst.withCmdIn rest).abandon u) :=
    (step_of_rises_held hrises hbusy hcmd).trans (abandonWord_of_next hrun)
  obtain ⟨henc, hdec⟩ := runWord_outputs_prefix hrun
  obtain ⟨hencCut, hdecCut⟩ := State.abandon_logs henc hdec
  refine ⟨_, hstep, rfl, State.busyNow_of_busy rfl, State.cmdReady_of_busy rfl, rfl, rfl, rfl, rfl, hencCut, hdecCut,
    fun hlow => ?_⟩
  exact ⟨_, step_of_low_clearing_due hlow rfl, State.finishReset_resetValues _, rfl, rfl, rfl, rfl⟩

/-! ### `ENC` beside the decoder (R260) -/

/-- An `ENC` of a byte with a code may change places with a command that does the same before and after an emission, writes
no code and raises nothing. -/
theorem execAll_enc_comm {a : Byte} {i : Instr} {s t : State} (he : s.err = false) (hv : (s.readCode a).valid = true)
    (hi : i.writesTree = false) (h : exec i s = .next t) (ht : t.err = false)
    (hemit : ∀ cs, exec i (s.emitEnc cs) = .next (t.emitEnc cs)) :
    execAll [.enc a, i] s = execAll [i, .enc a] s := by
  have hcode : t.readCode a = s.readCode a := congrFun ((exec_effect h).sameTree hi).readCode a
  have hfirst : exec (.enc a) s = .next (s.emitEnc ((s.readCode a).path.map charOfBit)) := execEnc_of_code he hv
  have hlast : exec (.enc a) t = .next (t.emitEnc ((s.readCode a).path.map charOfBit)) := by
    rw [← hcode] at hv ⊢
    exact execEnc_of_code ht hv
  simp only [execAll, hfirst, hemit, h, hlast]

theorem eq_charOfBit_of_bitOfChar {b : Byte} {x : Bool} (h : bitOfChar b = some x) : b = charOfBit x := by
  unfold bitOfChar at h
  split at h
  · cases h; assumption
  · split at h
    · cases h; assumption
    · cases h

theorem State.root_ne_nil_of_treeValid {s : State} (h : s.treeValid = true) : s.root ≠ NIL := bne_iff_ne.mp h

/-- A `DEC` that raises nothing does not look at `ENC_OUT`: it arrives at the same node after an emission. -/
theorem exec_dec_emitEnc {b : Byte} {s t : State} (he : s.err = false) (h : exec (.dec b) s = .next t)
    (ht : t.err = false) (cs : List Byte) : exec (.dec b) (s.emitEnc cs) = .next (t.emitEnc cs) := by
  cases exec_effect h with
  | blocked _ herr => simp [he] at herr
  | raised => simp at ht
  | read hi => cases hi
  | decLeaf _ x nd nx _ htree hx hnd hnx hleaf hsym =>
    obtain rfl := eq_charOfBit_of_bitOfChar hx
    exact (exec_dec_char (s := s.emitEnc cs) he (State.root_ne_nil_of_treeValid htree) hnd hnx).trans
      (arriveAt_realLeaf hleaf hsym _)
  | decNode _ x nd nx _ htree hx hnd hnx hleaf =>
    obtain rfl := eq_charOfBit_of_bitOfChar hx
    exact (exec_dec_char (s := s.emitEnc cs) he (State.root_ne_nil_of_treeValid htree) hnd hnx).trans
      (arriveAt_internal hleaf _)

/-- Settles O60: neither `DEC` nor `DEND` looks at `ENC_OUT`, and `ENC` looks at nothing that they write. -/
theorem encodeAndDecodeInterleave : Obligations.EncodeAndDecodeInterleave := fun _ _ he hv =>
  ⟨fun _ _ h ht => execAll_enc_comm he hv rfl h ht (exec_dec_emitEnc he h ht),
    execAll_enc_comm he hv rfl (execDend_of_noErr he) he fun _ => execDend_of_noErr he⟩

end Sys2Proof.Machine
end
